-- ==== Sys2Proof/Word.lean ====
section
/-! DEFINITION. The word types of the records the NRE block exchanges with its hosts (spec/20_memory.md R32, R33). -/

namespace Sys2Proof

/-- One 32-bit word of a request, a response or a trace record (R21). Bit 0 is the least significant (R32). -/
abbrev Word := BitVec 32

/-- One byte of a record stored in byte-addressed memory of a host, or sent over a byte stream (R33). -/
abbrev Byte := BitVec 8

end Sys2Proof
end

