-- ==== Sys2Proof/Syntax.lean ====
section
/-! DEFINITION. The request record, the eight operations as syntax, and the names of the outcomes:
spec/30_encoding.md R45 to R55, spec/00_scope.md R9, spec/60_exceptions.md R140. -/

namespace Sys2Proof

/-- The request record `REQ96` (R45, R46): three words, `CTL`, `B`, `A`, always taken whole (R36). -/
structure Request where
  ctl : Word
  b : Word
  a : Word
  deriving DecidableEq, Repr

/-- The eight operations the `OP` field selects (R47, R50). -/
inductive Op where
  | add | sub | mul | div | tobin | frombin | tob32 | f32x
  deriving DecidableEq, Repr

/-- A request that selects an operation, field by field as R50 lists the fields the operation uses. A field
is kept as it was read (`W` of TOBIN stays 0 where the width was left unspecified, R77), so that two different
requests are two different terms (R51). Operand assembly is at face value (R55). -/
inductive Instr where
  /-- `compute(a, b, add, width)` (R102). -/
  | add (w alen blen : BitVec 6) (a b : Word)
  /-- `compute(a, b, subtract, width)` (R106). -/
  | sub (w alen blen : BitVec 6) (a b : Word)
  /-- `compute(a, b, multiply, width)` (R113). -/
  | mul (w alen blen : BitVec 6) (a b : Word)
  /-- `compute(a, b, divide, width)` (R119). -/
  | div (w alen blen : BitVec 6) (a b : Word)
  /-- `to_binary(value, width)` (R75): the Numeral is `(sgn, a, fr)` (R52). -/
  | tobin (w : BitVec 6) (sgn : Bool) (fr : BitVec 8) (a : Word)
  /-- `from_binary(text)` (R78): `frac` is `FR[7:4]` (R53). -/
  | frombin (alen : BitVec 6) (frac : BitVec 4) (a : Word)
  /-- `to_base32(value)` (R95): the Numeral is `(sgn, a, fr)` (R52). -/
  | tob32 (sgn : Bool) (fr : BitVec 8) (a : Word)
  /-- `encode(value)` (R86): the operand is the 64-bit word with `B` high and `A` low (R54). -/
  | f32x (b a : Word)
  deriving DecidableEq, Repr

/-- The operation a request's syntax names (R50). -/
def Instr.op : Instr → Op
  | .add _ _ _ _ _ => .add
  | .sub _ _ _ _ _ => .sub
  | .mul _ _ _ _ _ => .mul
  | .div _ _ _ _ _ => .div
  | .tobin _ _ _ _ => .tobin
  | .frombin _ _ _ => .frombin
  | .tob32 _ _ _ => .tob32
  | .f32x _ _ => .f32x

/-- Why a request is illegal (R56, R149), by name. Every one of them gives the same response, `IllegalCommand`. -/
inductive Illegal where
  /-- A byte string that is not a 96-bit record (R45, R60); no request record can cause it. -/
  | wrongLength
  /-- `CTL[31]` is set (R58). -/
  | reservedBit
  /-- `OP` is 8 to 15 (R57). -/
  | reservedOp
  /-- A field of `CTL` the operation does not use is not zero (R51). -/
  | unusedField
  /-- The word `B` of TOBIN, FROMBIN or TOB32 is not zero (R51). -/
  | unusedWord
  /-- `W` is outside the operation's legal values (R48). -/
  | badWidth
  /-- `ALEN` or `BLEN` is above 32 (R49). -/
  | badLength
  /-- An operand bit at or above the stated length is set (R49). -/
  | strayBits
  deriving DecidableEq, Repr

/-- The classification of an F32X operand (R84). -/
inductive Class754 where
  | zero | normal | subnormal | infinite | nan
  deriving DecidableEq, Repr, Inhabited

/-- The failure outcomes (R140). `invalidDigit` and `invalidPrefix` belong to the host's text layer and are
never produced by the block (R154). -/
inductive Failure where
  | emptyInput | invalidDigit | invalidPrefix | rangeError | widthMismatch | domainError | divideByZero
  /-- Carries the class of the operand and nothing else (R89, R147). -/
  | unsupportedSpecialValue (cls : Class754)
  | illegalCommand
  deriving DecidableEq, Repr, Inhabited

/-- A BinaryString (R9, R24): the length of the integer portion beside its bits, and the fractional portion. -/
structure BinStr where
  len : Nat
  bits : BitVec len
  frac : BitVec 4
  deriving DecidableEq, Repr

/-- A Numeral (R9, R22): it stands for the rational `(-1)^sgn * (imag + fmag / 256)`. -/
structure Numeral where
  sgn : Bool
  imag : Word
  fmag : BitVec 8
  deriving DecidableEq, Repr

/-- The single-precision fields (R9, R25). -/
structure Fields754 where
  sign : Bool
  exponent : BitVec 8
  mantissa : BitVec 23
  deriving DecidableEq, Repr

end Sys2Proof
end

