-- ==== Sys2Proof/Config.lean ====
section
/-! DEFINITION. What an implementation fixes: the parameters of spec/00_scope.md R5 at the values this hardware
takes, and the parameters spec/92_eei_decisions.md leaves OPEN, which have no value here. The widths of record
fields (32, 8, 4, 23 ...) stand as numerals in the types: the encodings are written for these values. -/

namespace Sys2Proof

/-- `W_MAX`: the largest bit width (R5). -/
abbrev Config.wMax : Nat := 32

/-- `DEFAULT_W`: the width TOBIN uses when `W` is 0 (R5, R77). -/
abbrev Config.defaultW : Nat := 32

/-- `FB`: fractional bits of a BinaryString (R5, R76). -/
abbrev Config.fb : Nat := 4

/-- `FRACW`: fractional bits of a Numeral (R5, R22). -/
abbrev Config.fracW : Nat := 8

/-- `B32_FD`: fractional symbols TOB32 produces (R5, R96). The field `RFR` of the record is laid out for exactly one. -/
abbrev Config.b32Fd : Nat := 1

/-- `B32_ND`: the largest count of integer symbols TOB32 produces (R5, R95). -/
abbrev Config.b32Nd : Nat := 7

/-- How F32X cuts the mantissa. The spec defines one variant, truncation (R88; U2 names a second, `nearest_even`,
which it does not define). -/
inductive RoundMode where
  | truncate
  deriving DecidableEq, Repr

/-- What F32X does with subnormal, infinite and NaN operands. The spec defines one variant (R89, U5). -/
inductive SpecialsMode where
  | unsupported
  deriving DecidableEq, Repr

/-- `F32_ROUND` (R5, R88). -/
abbrev Config.f32Round : RoundMode := .truncate

/-- `F32_SPECIALS` (R5, R89). -/
abbrev Config.f32Specials : SpecialsMode := .unsupported

/-- `LATENCY(op, w)`, cycles of an implementation (D27): OPEN, and no rule reads it (R172). -/
opaque Config.latency : Op → Nat → Nat

/-! The host's Parser: the points D30 and N14 leave OPEN. No rule of the block reads them; only the host text
layer of Machine/HostText.lean does. None has a value here, so nothing can be proved of one. -/

/-- `PARSER_SIGN`: is a leading `+` or `-` accepted (D30). -/
opaque Config.parserSign : Bool

/-- `PARSER_PREFIX_CASE`: are `0B`, `0O`, `0X` accepted as prefixes (D30). -/
opaque Config.parserPrefixCase : Bool

/-- Is a leading `0b` at radix 16 read as a prefix (and not as two digits) (N14, R127). -/
opaque Config.parserHex0b : Bool

/-- Are blanks around the text dropped first (N14). -/
opaque Config.parserTrim : Bool

/-- `PARSER_SECOND_DOT`: the failure a second `.` gives (D30). -/
opaque Config.parserSecondDot : Failure

/-- `PARSER_PREFIX_ONLY`: the failure a prefix with no digits gives (D30). -/
opaque Config.parserPrefixOnly : Failure

/-- The failure a text with no digits and no prefix (such as `.` alone) gives (N14). -/
opaque Config.parserNoDigits : Failure

/-- `PARSER_BAD_RADIX`: the failure a radix outside 2, 8, 10, 16 gives (D30, R126). -/
opaque Config.parserBadRadix : Failure

/-- `PARSER_PRIORITY`: which of several failures that apply is reported, as an index into their list (D30). -/
opaque Config.parserPriority : List Failure → Nat

/-- The binary64 word a host takes for a value `± num / den` that binary64 does not hold exactly: the spec does not say
how the host rounds (R91, R130). -/
opaque Config.hostBinary64 : (neg : Bool) → (num den : Nat) → BitVec 64

end Sys2Proof
end

