-- ==== Sys2Proof/WellFormed.lean ====
section
/-! DEFINITION. When an instruction is well formed: its fields hold values a legal request can hold
(spec/30_encoding.md R48, R49). Stated here by bounds on numbers; Decode.lean's `Instr.illegal?` makes the same
checks the way R56 writes them, and Laws/Decode.lean proves the two agree. -/

namespace Sys2Proof

/-- A declared width of an arithmetic operation is a positive integer up to `W_MAX` (R48). -/
def wfWidth (w : BitVec 6) : Bool := decide (1 ≤ w.toNat) && decide (w.toNat ≤ Config.wMax)

/-- A BinaryString operand: its length is at most 32 and its bits lie below its length (R49). -/
def wfString (len : BitVec 6) (bits : Word) : Bool :=
  decide (len.toNat ≤ Config.wMax) && decide (bits.toNat < 2 ^ len.toNat)

/-- A well-formed instruction: the syntax of a legal request (R48, R49, R52, R54). -/
def Instr.wellFormed : Instr → Bool
  | .add w alen blen a b => wfWidth w && wfString alen a && wfString blen b
  | .sub w alen blen a b => wfWidth w && wfString alen a && wfString blen b
  | .mul w alen blen a b => wfWidth w && wfString alen a && wfString blen b
  | .div w alen blen a b => wfWidth w && wfString alen a && wfString blen b
  | .tobin w _ _ _ => decide (w.toNat ≤ Config.wMax)
  | .frombin alen _ a => wfString alen a
  | .tob32 _ _ _ => true
  | .f32x _ _ => true

end Sys2Proof
end

