-- ==== Sys2Proof/Decode.lean ====
section
/-! DEFINITION. The decoder and the encoder: spec/30_encoding.md R45 to R60, with the byte order of
spec/20_memory.md R33. Decoding is in two stages, in R56's order: `decode` selects the operation (R50, R51, R57,
R58) and reads its fields; `Instr.illegal?` makes the checks on the values of those fields (R48, R49).
`decodeLegal` is both together, R56 whole. -/

namespace Sys2Proof

/-! ## Fields of the request record (R46) -/

def Request.op (r : Request) : BitVec 4 := r.ctl.extractLsb' 0 4
def Request.w (r : Request) : BitVec 6 := r.ctl.extractLsb' 4 6
def Request.alen (r : Request) : BitVec 6 := r.ctl.extractLsb' 10 6
def Request.blen (r : Request) : BitVec 6 := r.ctl.extractLsb' 16 6
def Request.sgn (r : Request) : Bool := r.ctl.getLsbD 22
def Request.fr (r : Request) : BitVec 8 := r.ctl.extractLsb' 23 8
def Request.reserved (r : Request) : Bool := r.ctl.getLsbD 31

/-! ## The operation map (R50) -/

/-- The operation an `OP` value selects; 8 to 15 are reserved (R47, R57). -/
def Op.ofCode? (c : BitVec 4) : Option Op :=
  match c.toNat with
  | 0 => some .add
  | 1 => some .sub
  | 2 => some .mul
  | 3 => some .div
  | 4 => some .tobin
  | 5 => some .frombin
  | 6 => some .tob32
  | 7 => some .f32x
  | _ => none

/-- The `OP` value of an operation (R50). -/
def Op.code : Op → BitVec 4
  | .add => 0
  | .sub => 1
  | .mul => 2
  | .div => 3
  | .tobin => 4
  | .frombin => 5
  | .tob32 => 6
  | .f32x => 7

/-- The mask of the operation's row (R50). -/
def Op.mask : Op → Word
  | .add => 0xFFC0000F#32
  | .sub => 0xFFC0000F#32
  | .mul => 0xFFC0000F#32
  | .div => 0xFFC0000F#32
  | .tobin => 0x803FFC0F#32
  | .frombin => 0x87FF03FF#32
  | .tob32 => 0x803FFFFF#32
  | .f32x => 0xFFFFFFFF#32

/-- The match value of the operation's row (R50). -/
def Op.matchWord (o : Op) : Word := o.code.setWidth 32

/-- The bits of `CTL` that must be zero: the row's mask without bits 3 to 0 (R56). -/
def Op.mbzMask (o : Op) : Word := o.mask &&& 0xFFFFFFF0#32

/-- Does the operation use the word `B` (R50, R51). -/
def Op.usesB : Op → Bool
  | .add | .sub | .mul | .div | .f32x => true
  | .tobin | .frombin | .tob32 => false

/-- The fields the operation's row lists as used, read at face value (R50, R52, R53, R54, R55). -/
def Op.read (o : Op) (r : Request) : Instr :=
  match o with
  | .add => .add r.w r.alen r.blen r.a r.b
  | .sub => .sub r.w r.alen r.blen r.a r.b
  | .mul => .mul r.w r.alen r.blen r.a r.b
  | .div => .div r.w r.alen r.blen r.a r.b
  | .tobin => .tobin r.w r.sgn r.fr r.a
  | .frombin => .frombin r.alen (r.fr.extractLsb' 4 4) r.a
  | .tob32 => .tob32 r.sgn r.fr r.a
  | .f32x => .f32x r.b r.a

/-! ## Decoding a record -/

/-- Select the operation of a request and read its fields: the checks of R56 on `CTL[31]`, `OP`, the unused
fields and the word `B`, in that order. -/
def decode (r : Request) : Except Illegal Instr :=
  if r.reserved then .error .reservedBit
  else
    match Op.ofCode? r.op with
    | none => .error .reservedOp
    | some o =>
      if r.ctl &&& o.mbzMask ≠ 0 then .error .unusedField
      else if o.usesB = false ∧ r.b ≠ 0 then .error .unusedWord
      else .ok (o.read r)

/-- The checks of R56 on the two operand words of an arithmetic operation (R48, R49). -/
def arithIllegal? (w alen blen : BitVec 6) (a b : Word) : Option Illegal :=
  if w.toNat = 0 ∨ Config.wMax < w.toNat then some .badWidth
  else if Config.wMax < alen.toNat ∨ Config.wMax < blen.toNat then some .badLength
  else if a >>> alen.toNat ≠ 0 ∨ b >>> blen.toNat ≠ 0 then some .strayBits
  else none

/-- The check of R56 on the width of TOBIN, where 0 means unspecified (R48). -/
def tobinIllegal? (w : BitVec 6) : Option Illegal :=
  if Config.wMax < w.toNat then some .badWidth else none

/-- The checks of R56 on the operand of FROMBIN (R49). -/
def frombinIllegal? (alen : BitVec 6) (a : Word) : Option Illegal :=
  if Config.wMax < alen.toNat then some .badLength
  else if a >>> alen.toNat ≠ 0 then some .strayBits
  else none

/-- The checks of R56 on the values of the fields that were read. TOB32 and F32X have none (R52, R54). -/
def Instr.illegal? : Instr → Option Illegal
  | .add w alen blen a b => arithIllegal? w alen blen a b
  | .sub w alen blen a b => arithIllegal? w alen blen a b
  | .mul w alen blen a b => arithIllegal? w alen blen a b
  | .div w alen blen a b => arithIllegal? w alen blen a b
  | .tobin w _ _ _ => tobinIllegal? w
  | .frombin alen _ a => frombinIllegal? alen a
  | .tob32 _ _ _ => none
  | .f32x _ _ => none

/-- R56 whole: a request decodes to a legal operation or is illegal. -/
def decodeLegal (r : Request) : Except Illegal Instr :=
  match decode r with
  | .error e => .error e
  | .ok i =>
    match i.illegal? with
    | some e => .error e
    | none => .ok i

/-! ## Words and bytes (R32, R33) -/

/-- A field put at bit position `lo` of a word. -/
def place {n : Nat} (x : BitVec n) (lo : Nat) : Word := x.setWidth 32 <<< lo

/-- The 64-bit value with the given high and low words (R54, R68). -/
def joinWords (hi lo : Word) : BitVec 64 := hi.setWidth 64 <<< 32 ||| lo.setWidth 64

/-- A word's bytes, little-endian: bits 7 to 0 first (R33). -/
def wordBytes (x : Word) : List Byte :=
  [x.extractLsb' 0 8, x.extractLsb' 8 8, x.extractLsb' 16 8, x.extractLsb' 24 8]

/-- The word four bytes hold, the first being the least significant (R33). -/
def wordOfBytes (b0 b1 b2 b3 : Byte) : Word := place b0 0 ||| place b1 8 ||| place b2 16 ||| place b3 24

/-- A stored request: `CTL`, `B`, `A` in that order (R33). -/
def Request.bytes (r : Request) : List Byte := wordBytes r.ctl ++ wordBytes r.b ++ wordBytes r.a

/-- The request a byte string holds, if it is one 96-bit record (R33, R45). -/
def Request.ofBytes? : List Byte → Option Request
  | [c0, c1, c2, c3, b0, b1, b2, b3, a0, a1, a2, a3] =>
    some ⟨wordOfBytes c0 c1 c2 c3, wordOfBytes b0 b1 b2 b3, wordOfBytes a0 a1 a2 a3⟩
  | _ => none

/-- The decoder on any bytes: the record they hold, decoded; a string that is not 12 bytes is no record (R45). -/
def decodeBytes (bs : List Byte) : Except Illegal Instr :=
  match Request.ofBytes? bs with
  | none => .error .wrongLength
  | some r => decode r

/-! ## The encoder -/

/-- `CTL` from its fields, each at its place, bit 31 zero (R46). -/
def ctlWord (op : BitVec 4) (w alen blen : BitVec 6) (sgn : Bool) (fr : BitVec 8) : Word :=
  place op 0 ||| place w 4 ||| place alen 10 ||| place blen 16 ||| place (BitVec.ofBool sgn) 22 ||| place fr 23

/-- The request of an instruction: every unused field zero (R50, R51). -/
def encode : Instr → Request
  | .add w alen blen a b => ⟨ctlWord Op.add.code w alen blen false 0, b, a⟩
  | .sub w alen blen a b => ⟨ctlWord Op.sub.code w alen blen false 0, b, a⟩
  | .mul w alen blen a b => ⟨ctlWord Op.mul.code w alen blen false 0, b, a⟩
  | .div w alen blen a b => ⟨ctlWord Op.div.code w alen blen false 0, b, a⟩
  | .tobin w sgn fr a => ⟨ctlWord Op.tobin.code w 0 0 sgn fr, 0, a⟩
  | .frombin alen frac a => ⟨ctlWord Op.frombin.code 0 alen 0 false (frac.setWidth 8 <<< 4), 0, a⟩
  | .tob32 sgn fr a => ⟨ctlWord Op.tob32.code 0 0 0 sgn fr, 0, a⟩
  | .f32x b a => ⟨ctlWord Op.f32x.code 0 0 0 false 0, b, a⟩

/-- The bytes of an instruction's request (R33). -/
def encodeBytes (i : Instr) : List Byte := (encode i).bytes

/-! ## The host's numbering of an instruction's bits -/

/-- The 12 bytes of a record whose bits, numbered from the least significant bit of the first word on, are the
low `nbits` bits of `w`; the bits above are zero. -/
def tableBytes (nbits w : Nat) : List Byte :=
  (List.range 12).map fun k => BitVec.ofNat 8 ((w % 2 ^ nbits) >>> (8 * k))

/-- The request whose bits are the low `nbits` bits of `w`. -/
def tableRequest (nbits w : Nat) : Request :=
  (Request.ofBytes? (tableBytes nbits w)).getD ⟨0, 0, 0⟩

/-- The instruction the decoder reads from the record whose bits are `w` (none where it refuses). -/
def decodeTableWord (nbits w : Nat) : Option Instr :=
  match decodeBytes (tableBytes nbits w) with
  | .ok i => some i
  | .error _ => none

end Sys2Proof
end

