-- ==== Sys2Proof/Machine/State.lean ====
section
/-! DEFINITION. What a transaction returns, and the state of the model. THE BLOCK ITSELF HAS NO STATE
(spec/10_state.md R13, R17 to R21, R28, R29): no register, no program counter, no stored flag, no memory. What
`State` holds is the boundary between the block and its hosts: the requests that were presented and are not yet
answered, and the answers that were delivered. Both are the MODEL's own fields (notes/assumptions/1.md). -/

namespace Sys2Proof.Machine

open Sys2Proof

/-- The payload of a success (R63, R65), one alternative per kind of result. -/
inductive Payload where
  /-- ADD, SUB, MUL, DIV: the result pattern of `w` bits and the flag `OVF` (R19). -/
  | arith (w : Nat) (result : BitVec w) (ovf : Bool)
  /-- TOBIN: the integer bits and the fractional bits. -/
  | binStr (s : BinStr)
  /-- FROMBIN: a Numeral. -/
  | numeral (v : Numeral)
  /-- TOB32: the integer symbols, `d[0]` (least significant) first, and the `B32_FD` fractional symbols in the order
  they are produced (R64, R96). -/
  | b32 (digits fraction : List (BitVec 5))
  /-- F32X: the class and the three fields. -/
  | f754 (cls : Class754) (f : Fields754)
  deriving DecidableEq, Repr

/-- The abstract response (R65): a success with its payload, or one named failure with no payload at all (R147). -/
inductive Response where
  | ok (p : Payload)
  | fail (f : Failure)
  deriving DecidableEq, Repr

/-- One record of a trace (R26): what ADD and SUB (R103), MUL (R114) and DIV (R120) record for one bit position.
`pp` and `acc` are the 2w-bit values zero-extended to 64 bits, `rem` the w-bit value zero-extended to 32 (R68). -/
inductive TraceRec where
  | add (pos : Nat) (ai bi cin sum cout : Bool)
  | mul (pos : Nat) (mbit : Bool) (pp acc : BitVec 64)
  | div (pos : Nat) (dbit qbit : Bool) (rem : Word)
  deriving DecidableEq, Repr

/-- The trace of a transaction: its records in the order the operation appended them (R66). -/
abbrev Trace := List TraceRec

/-- The name of a host (R14, R40), used only to say whose request and whose answer an entry is. -/
abbrev HostId := Nat

/-- A request that a host presented (R15). -/
structure Presented where
  host : HostId
  req : Request
  deriving DecidableEq, Repr

/-- A response with the complete trace that belongs to it, delivered as one unit (R36, R174), and the host it goes
to (`none` only where an operation is executed with no request presented, which `step` never does). -/
structure Answer where
  host : Option HostId
  response : Response
  trace : Trace
  deriving DecidableEq, Repr

/-- The state of the model: `pending` holds the presented requests not yet answered, oldest first; `answers` the
answers delivered so far, oldest first. Both are inputs and outputs of the block, not state of it (R29). -/
structure State where
  pending : List Presented
  answers : List Answer
  deriving DecidableEq, Repr

/-- Reasons for the machine to stop with a fault. There is NONE: `exec` is total and single-valued (R16), and every
failure of the block is a response (R139, R146). Nothing raises one; the empty type is safe and unsafe for nothing. -/
inductive Fault where
  deriving DecidableEq, Repr

/-- Reasons for the model to refuse. -/
inductive Refusal where
  /-- An instruction with no meaning yet; raised by an arm of `exec` only, and safe. No arm raises it: every
  operation has its meaning. -/
  | notModelled (mnemonic : String)
  deriving DecidableEq, Repr

/-- Right after reset: the block is idle, no transaction is in progress (R161), and nothing was delivered. -/
def State.reset : State := ⟨[], []⟩

end Sys2Proof.Machine
end

