-- ==== Sys2Proof/Machine/Ops.lean ====
section
/-! DEFINITION. The shared operations on the boundary between the block and its hosts: taking a request,
delivering an answer, and delivering a failure, which is the block's trap entry (spec/60_exceptions.md R146). -/

namespace Sys2Proof.Machine

open Sys2Proof

/-- The outcome of one step of this machine. -/
abbrev Result := Host.Outcome State Fault Refusal

/-- What an operation computes: a payload with its trace, or the failure it raises (R8, `raise`). -/
abbrev OpResult := Except Failure (Payload × Trace)

/-- The request the block takes next: the oldest one presented (R15, R40). -/
def State.fetch (s : State) : Option Request := s.pending.head?.map (·.req)

/-- The host whose request is the oldest one presented. -/
def State.requester (s : State) : Option HostId := s.pending.head?.map (·.host)

/-- Deliver a response with its trace to the host that presented the oldest request, which is thereby answered: one
answer per request, response and trace as one unit (R36, R40, R174). Nothing delivered earlier changes (R27). -/
def State.answer (s : State) (r : Response) (t : Trace) : State :=
  ⟨s.pending.tail, s.answers ++ [⟨s.requester, r, t⟩]⟩

/-- TRAP ENTRY (R146, R147): a failure ends the operation and is delivered as a response with no payload and no
trace. Nothing is saved, no mode changes, control goes nowhere. There is no return operation and nothing to
restore (R148): the next transaction executes as if the failure had not happened. -/
def State.raise (s : State) (f : Failure) : Result := .next (s.answer (.fail f) [])

/-- End a transaction: deliver the payload and the trace, or raise the failure. -/
def State.conclude (s : State) (r : OpResult) : Result :=
  match r with
  | .ok (p, t) => .next (s.answer (.ok p) t)
  | .error f => s.raise f

/-! ## What a host can do (R14, R170) -/

/-- A host presents a request (R15); it waits its turn behind those already presented (R40). -/
def State.present (s : State) (h : HostId) (r : Request) : State :=
  ⟨s.pending ++ [⟨h, r⟩], s.answers⟩

/-- The answers delivered to one host, in the order they were delivered (R40). -/
def State.answersTo (s : State) (h : HostId) : List Answer :=
  s.answers.filter fun x => x.host == some h

/-- A host drops the answers it was given (R170). -/
def State.discard (s : State) (h : HostId) : State :=
  ⟨s.pending, s.answers.filter fun x => x.host != some h⟩

/-- Reset applied to a running block (R161): every request not yet answered is abandoned, with no response and no
trace, not even a failure; what was delivered before stays the hosts' (R27). -/
def State.applyReset (s : State) : State := ⟨[], s.answers⟩

end Sys2Proof.Machine
end

