-- ==== Sys2Proof/Machine/Operands.lean ====
section
/-! DEFINITION. Patterns and operands: the bit-vector notation of spec/00_scope.md R6 and R8, and the assembly of
every operand form (spec/30_encoding.md R52, R53, R54; spec/44_addsub.md R100). -/

namespace Sys2Proof.Machine

open Sys2Proof

/-- The pattern of `n` bits whose bit `i` is `f i`. -/
def ofBits (f : Nat → Bool) : (n : Nat) → BitVec n
  | 0 => 0#0
  | n + 1 => BitVec.cons (f n) (ofBits f n)

/-- `neg_w`: invert every bit, add 1, keep `w` bits (R8, R109). -/
def neg {w : Nat} (x : BitVec w) : BitVec w := ~~~x + 1#w

/-- `mag_w`: the magnitude of a two's-complement pattern, `u(x)` when the sign bit is 0, else `2^w - u(x)`,
carried as a `w`-bit unsigned number (R8, R111). -/
def mag {w : Nat} (x : BitVec w) : BitVec w :=
  BitVec.ofNat w (if x.msb then 2 ^ w - x.toNat else x.toNat)

/-- `MIN_w`: only bit `w-1` set (R6). -/
def minPattern (w : Nat) : BitVec w := ofBits (fun i => decide (i + 1 = w)) w

/-- `ONES_w`: `w` ones (R6). -/
def onesPattern (w : Nat) : BitVec w := ofBits (fun _ => true) w

/-- An arithmetic operation on its operands: the request is legal (R56), then both lengths equal the declared width
(R100, R144, R151), then the operation runs on two patterns of `w` bits (R53). -/
def withOperands (w alen blen : BitVec 6) (a b : Word)
    (op : (n : Nat) → BitVec n → BitVec n → OpResult) : OpResult :=
  if (arithIllegal? w alen blen a b).isSome then .error .illegalCommand
  else if alen ≠ w ∨ blen ≠ w then .error .widthMismatch
  else op w.toNat (a.setWidth w.toNat) (b.setWidth w.toNat)

/-- The Numeral operand of TOBIN and TOB32 (R52). -/
def numeralOperand (sgn : Bool) (fr : BitVec 8) (a : Word) : Numeral := ⟨sgn, a, fr⟩

/-- The width of a TOBIN request: 0 means unspecified and selects `DEFAULT_W` (R77). -/
def tobinWidth (w : BitVec 6) : Nat := if w.toNat = 0 then Config.defaultW else w.toNat

/-- The BinaryString operand of FROMBIN (R53). -/
def stringOperand (alen : BitVec 6) (frac : BitVec 4) (a : Word) : BinStr :=
  ⟨alen.toNat, a.setWidth alen.toNat, frac⟩

/-- The 64-bit operand of F32X: `B` is the high word (R54). -/
def doubleOperand (b a : Word) : BitVec 64 := joinWords b a

end Sys2Proof.Machine
end

