-- ==== Sys2Proof/Machine/Flags.lean ====
section
/-! DEFINITION. The one flag, `OVF` (spec/10_state.md R19): how ADD, SUB, MUL and DIV compute it. It is a field of a
success response and is stored nowhere. -/

namespace Sys2Proof.Machine

/-- The overflow rule of ADD on two addends and their sum: the signs of the addends match and differ from the
sign of the sum (R102). SUB uses it on `a` and the negated operand (R106, R107). -/
def addOverflow {w : Nat} (x y s : BitVec w) : Bool := (x.msb == y.msb) && (s.msb != x.msb)

/-- The true mathematical product from the product `p` of the magnitudes (R113): negative when the signs differ. -/
def trueProduct (signsDiffer : Bool) (p : Nat) : Int := if signsDiffer then -(p : Int) else (p : Int)

/-- The overflow rule of MUL: the true product cannot be represented in `w` bits (R113). -/
def mulOverflow (w : Nat) (signsDiffer : Bool) (p : Nat) : Bool :=
  decide (trueProduct signsDiffer p > 2 ^ (w - 1) - 1) || decide (trueProduct signsDiffer p < -2 ^ (w - 1))

/-- The overflow rule of DIV: the edge case `MIN / -1` (R119). -/
def divOverflow {w : Nat} (x y : BitVec w) : Bool :=
  decide (x = minPattern w) && decide (y = onesPattern w)

end Sys2Proof.Machine
end

