-- ==== Sys2Proof/Machine/AddSub.lean ====
section
/-! DEFINITION. ADD and SUB: spec/44_addsub.md. -/

namespace Sys2Proof.Machine

open Sys2Proof

/-- `c[i]`, the carry into position `i`: 0 into position 0, and out of each position the carry of a full adder
(R101). -/
def carry {w : Nat} (x y : BitVec w) : Nat → Bool
  | 0 => false
  | i + 1 =>
    (x.getLsbD i && y.getLsbD i) || (x.getLsbD i && carry x y i) || (y.getLsbD i && carry x y i)

/-- `s[i]`, the sum bit of position `i` (R101). -/
def sumBit {w : Nat} (x y : BitVec w) (i : Nat) : Bool := x.getLsbD i ^^ y.getLsbD i ^^ carry x y i

/-- The sum of a ripple-carry addition (R101). -/
def rippleSum {w : Nat} (x y : BitVec w) : BitVec w := ofBits (sumBit x y) w

/-- The record of position `i` (R101, R103). -/
def addRec {w : Nat} (x y : BitVec w) (i : Nat) : TraceRec :=
  .add i (x.getLsbD i) (y.getLsbD i) (carry x y i) (sumBit x y i) (carry x y (i + 1))

/-- The trace of a ripple-carry addition: positions 0 to `w-1` (R101, R103). -/
def addTrace {w : Nat} (x y : BitVec w) : Trace := (List.range w).map (addRec x y)

/-- ADD on patterns of `w` bits (R102). -/
def addOp (w : Nat) (x y : BitVec w) : OpResult :=
  .ok (.arith w (rippleSum x y) (addOverflow x y (rippleSum x y)), addTrace x y)

/-- SUB on patterns of `w` bits: the addition of the negated operand, in result, flag and trace (R106). -/
def subOp (w : Nat) (x y : BitVec w) : OpResult :=
  .ok (.arith w (rippleSum x (neg y)) (addOverflow x (neg y) (rippleSum x (neg y))), addTrace x (neg y))

/-- ADD (R102). -/
def execAdd (w alen blen : BitVec 6) (a b : Word) (s : State) : Result :=
  s.conclude (withOperands w alen blen a b addOp)

/-- SUB (R106). -/
def execSub (w alen blen : BitVec 6) (a b : Word) (s : State) : Result :=
  s.conclude (withOperands w alen blen a b subOp)

end Sys2Proof.Machine
end

