-- ==== Sys2Proof/Machine/Base32.lean ====
section
/-! DEFINITION. TOB32: spec/43_base32_encoder.md. -/

namespace Sys2Proof.Machine

open Sys2Proof

/-- Repeated division by 32 while `n > 0`, at most `fuel` times: the remainders, least significant first (R95).
`B32_ND` divisions are enough for every integer magnitude of the block. -/
def base32Digits : (fuel n : Nat) → List (BitVec 5)
  | 0, _ => []
  | fuel + 1, n => if n = 0 then [] else BitVec.ofNat 5 (n % 32) :: base32Digits fuel (n / 32)

/-- The integer symbols, `d[0]` first; the value 0 is the one symbol 0 (R95). -/
def base32Symbols (n : Nat) : List (BitVec 5) := if n = 0 then [0#5] else base32Digits Config.b32Nd n

/-- Repeated multiplication by 32 of the fraction `f / 2^FRACW`, `n` times, taking the integer digit each step and
keeping the remainder (R96). -/
def fractionSymbols : (n f : Nat) → List (BitVec 5)
  | 0, _ => []
  | n + 1, f => BitVec.ofNat 5 (32 * f / 2 ^ Config.fracW) :: fractionSymbols n (32 * f % 2 ^ Config.fracW)

/-- The `B32_FD` fractional symbols of a Numeral; what remains is dropped (R96). -/
def base32Fraction (fmag : BitVec 8) : List (BitVec 5) := fractionSymbols Config.b32Fd fmag.toNat

/-- Is a Numeral negative: negative zero is not (R94). -/
def isNegative (v : Numeral) : Bool := v.sgn && (v.imag != 0 || v.fmag != 0)

/-- TOB32 on the abstract command `ToB32(v)` (R95). -/
def tob32Op (v : Numeral) : OpResult :=
  if isNegative v then .error .domainError
  else .ok (.b32 (base32Symbols v.imag.toNat) (base32Fraction v.fmag), [])

/-- TOB32 (R95). -/
def execTob32 (sgn : Bool) (fr : BitVec 8) (a : Word) (s : State) : Result :=
  s.conclude (tob32Op (numeralOperand sgn fr a))

end Sys2Proof.Machine
end

