-- ==== Sys2Proof/Machine/Ieee754.lean ====
section
/-! DEFINITION. F32X: spec/42_ieee754_extractor.md. -/

namespace Sys2Proof.Machine

open Sys2Proof

/-! ## The fields of a binary64 word (R85) -/

def signBit (v : BitVec 64) : Bool := v.getLsbD 63
def exponent11 (v : BitVec 64) : BitVec 11 := v.extractLsb' 52 11
def fraction52 (v : BitVec 64) : BitVec 52 := v.extractLsb' 0 52

/-- `E = e11 - 1023 + 127`, the exponent biased for single precision (R83, R86). -/
def rebiased (e11 : BitVec 11) : Int := (e11.toNat : Int) - 1023 + 127

/-- The class of an operand, in the order R86 makes its tests (R84, R92). -/
def classify (e11 : BitVec 11) (f52 : BitVec 52) : Class754 :=
  if e11.toNat = 2047 then (if f52 = 0 then .infinite else .nan)
  else if e11.toNat = 0 then (if f52 = 0 then .zero else .subnormal)
  else if 255 ≤ rebiased e11 then .infinite
  else if rebiased e11 ≤ 0 then .subnormal
  else .normal

/-- The mantissa of a normal value: the top 23 fraction bits (R88, `F32_ROUND`). -/
def cutMantissa (mode : RoundMode) (f52 : BitVec 52) : BitVec 23 :=
  match mode with
  | .truncate => f52.extractLsb' 29 23

/-- What a class outside zero and normal gives (R89, `F32_SPECIALS`). -/
def special (mode : SpecialsMode) (c : Class754) : OpResult :=
  match mode with
  | .unsupported => .error (.unsupportedSpecialValue c)

/-- F32X on the abstract command `F32X(V)` (R86). -/
def f32xOp (v : BitVec 64) : OpResult :=
  match classify (exponent11 v) (fraction52 v) with
  | .zero => .ok (.f754 .zero ⟨signBit v, 0#8, 0#23⟩, [])
  | .normal =>
    .ok (.f754 .normal
          ⟨signBit v, BitVec.ofInt 8 (rebiased (exponent11 v)), cutMantissa Config.f32Round (fraction52 v)⟩, [])
  | .subnormal => special Config.f32Specials .subnormal
  | .infinite => special Config.f32Specials .infinite
  | .nan => special Config.f32Specials .nan

/-- F32X (R86): every operand is legal (R54). -/
def execF32x (b a : Word) (s : State) : Result := s.conclude (f32xOp (doubleOperand b a))

end Sys2Proof.Machine
end

