-- ==== Sys2Proof/Machine/MulDiv.lean ====
section
/-! DEFINITION. MUL and DIV: spec/45_muldiv.md. -/

namespace Sys2Proof.Machine

open Sys2Proof

/-! ## MUL -/

/-- The partial product of multiplier bit `i`, `2w` bits (R112). -/
def partialProduct {w : Nat} (ma mb : BitVec w) (i : Nat) : BitVec (2 * w) :=
  if mb.getLsbD i then ma.setWidth (2 * w) <<< i else 0#(2 * w)

/-- The running accumulator before position `i`, `2w` bits: it starts at 0 (R112). -/
def accumulator {w : Nat} (ma mb : BitVec w) : Nat → BitVec (2 * w)
  | 0 => 0#(2 * w)
  | i + 1 => accumulator ma mb i + partialProduct ma mb i

/-- The double-width product of the magnitudes (R112). -/
def shiftAdd {w : Nat} (ma mb : BitVec w) : BitVec (2 * w) := accumulator ma mb w

/-- The record of multiplier bit `i`: the accumulator is the one after the step (R114). -/
def mulRec {w : Nat} (ma mb : BitVec w) (i : Nat) : TraceRec :=
  .mul i (mb.getLsbD i) ((partialProduct ma mb i).setWidth 64) ((accumulator ma mb (i + 1)).setWidth 64)

/-- The trace of MUL: multiplier bits 0 to `w-1`, a record for every position (R112, R114). -/
def mulTrace {w : Nat} (ma mb : BitVec w) : Trace := (List.range w).map (mulRec ma mb)

/-- Sign assignment on the double-width product, then truncation to `w` bits (R113). -/
def assignSign {w : Nat} (signsDiffer : Bool) (p : BitVec (2 * w)) : BitVec w :=
  (if signsDiffer then 0#(2 * w) - p else p).setWidth w

/-- MUL on patterns of `w` bits (R113). -/
def mulOp (w : Nat) (x y : BitVec w) : OpResult :=
  .ok (.arith w (assignSign (x.msb ^^ y.msb) (shiftAdd (mag x) (mag y)))
        (mulOverflow w (x.msb ^^ y.msb) (shiftAdd (mag x) (mag y)).toNat),
      mulTrace (mag x) (mag y))

/-! ## DIV -/

/-- The partial remainder with dividend bit `i` brought down (R118). -/
def bringDown {w : Nat} (ma rem : BitVec w) (i : Nat) : BitVec w :=
  (rem <<< 1) ||| (BitVec.ofBool (ma.getLsbD i)).setWidth w

/-- One step of restoring division after the bit is brought down: subtract the divisor where that does not go
negative, else restore (R118). -/
def trialSubtract {w : Nat} (mb rem : BitVec w) : BitVec w := if mb ≤ rem then rem - mb else rem

/-- The partial remainder after `k` steps: step `k` belongs to dividend bit `w-1-k`; it starts at 0 (R118). -/
def remainderAfter {w : Nat} (ma mb : BitVec w) : Nat → BitVec w
  | 0 => 0#w
  | k + 1 => trialSubtract mb (bringDown ma (remainderAfter ma mb k) (w - 1 - k))

/-- The quotient bit of step `k`: 1 when the trial subtraction does not go negative (R118). -/
def quotientBit {w : Nat} (ma mb : BitVec w) (k : Nat) : Bool :=
  decide (mb ≤ bringDown ma (remainderAfter ma mb k) (w - 1 - k))

/-- The quotient: bit `i` is the quotient bit of step `w-1-i` (R118). -/
def quotient {w : Nat} (ma mb : BitVec w) : BitVec w := ofBits (fun i => quotientBit ma mb (w - 1 - i)) w

/-- The record of step `k`, which belongs to quotient position `w-1-k`; the remainder is the one after the step
(R120). -/
def divRec {w : Nat} (ma mb : BitVec w) (k : Nat) : TraceRec :=
  .div (w - 1 - k) (ma.getLsbD (w - 1 - k)) (quotientBit ma mb k) ((remainderAfter ma mb (k + 1)).setWidth 32)

/-- The trace of DIV: positions `w-1` down to 0 (R120). -/
def divTrace {w : Nat} (ma mb : BitVec w) : Trace := (List.range w).map (divRec ma mb)

/-- DIV on patterns of `w` bits: signed, truncating (R117, R119). -/
def divOp (w : Nat) (x y : BitVec w) : OpResult :=
  if y.toNat = 0 then .error .divideByZero
  else
    .ok (.arith w (if x.msb ^^ y.msb then neg (quotient (mag x) (mag y)) else quotient (mag x) (mag y))
          (divOverflow x y),
        divTrace (mag x) (mag y))

/-- MUL (R113). -/
def execMul (w alen blen : BitVec 6) (a b : Word) (s : State) : Result :=
  s.conclude (withOperands w alen blen a b mulOp)

/-- DIV (R119). -/
def execDiv (w alen blen : BitVec 6) (a b : Word) (s : State) : Result :=
  s.conclude (withOperands w alen blen a b divOp)

end Sys2Proof.Machine
end

