-- ==== Sys2Proof/Machine/Radix.lean ====
section
/-! DEFINITION. TOBIN and FROMBIN: spec/41_radix_converter.md. -/

namespace Sys2Proof.Machine

open Sys2Proof

/-- Repeated doubling of the fraction `f / 2^FRACW`, `n` times: multiply by 2, take the integer bit, keep the
remainder; the bits already produced are `acc`, the first being the most significant (R76). -/
def doubling : (n f acc : Nat) → Nat
  | 0, _, acc => acc
  | n + 1, f, acc => doubling n (2 * f % 2 ^ Config.fracW) (2 * acc + 2 * f / 2 ^ Config.fracW)

/-- The `FB` fractional bits of a Numeral; what remains is dropped (R76). -/
def fractionBits (fmag : BitVec 8) : BitVec 4 := BitVec.ofNat 4 (doubling Config.fb fmag.toNat 0)

/-- Does the integer part fit width `w` (R74). -/
def fitsWidth (w : Nat) (v : Numeral) : Bool :=
  if v.sgn then decide (v.imag.toNat ≤ 2 ^ (w - 1)) else decide (v.imag.toNat ≤ 2 ^ (w - 1) - 1)

/-- The integer portion: the magnitude over `w` bits, negated for a negative Numeral (R73, R75). -/
def integerBits (w : Nat) (v : Numeral) : BitVec w :=
  if v.imag = 0 then 0#w
  else if v.sgn then neg (v.imag.setWidth w)
  else v.imag.setWidth w

/-- TOBIN on the abstract command `ToBin(w, v)` (R75). -/
def tobinOp (w : Nat) (v : Numeral) : OpResult :=
  if v.imag ≠ 0 ∧ fitsWidth w v = false then .error .rangeError
  else .ok (.binStr ⟨w, integerBits w v, fractionBits v.fmag⟩, [])

/-- FROMBIN on the abstract command `FromBin(s)` (R78, R79). -/
def frombinOp (s : BinStr) : OpResult :=
  if s.len = 0 then .error .emptyInput
  else if s.bits.msb then .ok (.numeral ⟨true, BitVec.ofNat 32 (2 ^ s.len - s.bits.toNat), s.frac.setWidth 8 <<< 4⟩, [])
  else .ok (.numeral ⟨false, BitVec.ofNat 32 s.bits.toNat, s.frac.setWidth 8 <<< 4⟩, [])

/-- TOBIN (R75, R77). -/
def execTobin (w : BitVec 6) (sgn : Bool) (fr : BitVec 8) (a : Word) (s : State) : Result :=
  s.conclude
    (if (tobinIllegal? w).isSome then .error .illegalCommand
     else tobinOp (tobinWidth w) (numeralOperand sgn fr a))

/-- FROMBIN (R78). -/
def execFrombin (alen : BitVec 6) (frac : BitVec 4) (a : Word) (s : State) : Result :=
  s.conclude
    (if (frombinIllegal? alen a).isSome then .error .illegalCommand
     else frombinOp (stringOperand alen frac a))

end Sys2Proof.Machine
end

