-- ==== Sys2Proof/Machine/Dispatch.lean ====
section
/-! DEFINITION. One arm per operation of the operation map (spec/30_encoding.md R50), each one call of its meaning. -/

namespace Sys2Proof.Machine

open Sys2Proof

def exec (i : Instr) (s : State) : Host.Outcome State Fault Refusal :=
  match i with
  | .add w alen blen a b => Sys2Proof.Machine.execAdd w alen blen a b s
  | .sub w alen blen a b => Sys2Proof.Machine.execSub w alen blen a b s
  | .mul w alen blen a b => Sys2Proof.Machine.execMul w alen blen a b s
  | .div w alen blen a b => Sys2Proof.Machine.execDiv w alen blen a b s
  | .tobin w sgn fr a => Sys2Proof.Machine.execTobin w sgn fr a s
  | .frombin alen frac a => Sys2Proof.Machine.execFrombin alen frac a s
  | .tob32 sgn fr a => Sys2Proof.Machine.execTob32 sgn fr a s
  | .f32x b a => Sys2Proof.Machine.execF32x b a s

end Sys2Proof.Machine
end

