-- ==== Sys2Proof/Machine/Step.lean ====
section
/-! DEFINITION. The step: one transaction (spec/10_state.md R15). -/

namespace Sys2Proof.Machine

open Sys2Proof

/-- One step is one transaction (R15): the block takes the oldest request presented and answers it. A request that
selects no operation is answered `IllegalCommand` (R56, R149). With no request presented the block is idle, and a
step changes nothing (R159, R161). -/
def step (s : State) : Host.Outcome State Fault Refusal :=
  match s.fetch with
  | none => .next s
  | some r =>
    match decode r with
    | .error _ => s.raise .illegalCommand
    | .ok i => exec i s

/-- `s` with the request whose bits are the low `nbits` bits of `w` where `step` takes its next request: in place of
the oldest one presented, keeping the host that presented it, or presented by host 0 where there is none. -/
def State.withFetchWord (s : State) (nbits w : Nat) : State :=
  ⟨⟨s.requester.getD 0, tableRequest nbits w⟩ :: s.pending.tail, s.answers⟩

end Sys2Proof.Machine
end

