-- ==== Sys2Proof/Machine/Record.lean ====
section
/-! DEFINITION. The records on the port: how an abstract response and an abstract trace record stand in 32-bit words
(spec/30_encoding.md R61 to R68, spec/60_exceptions.md R140, R147) and in bytes (spec/20_memory.md R33). The state
holds the abstract answer once; these are its other views. -/

namespace Sys2Proof.Machine

open Sys2Proof

/-! ## Codes -/

/-- The `STATUS` code of a failure (R140). -/
def failureCode : Failure → BitVec 4
  | .emptyInput => 1
  | .invalidDigit => 2
  | .invalidPrefix => 3
  | .rangeError => 4
  | .widthMismatch => 5
  | .domainError => 6
  | .divideByZero => 7
  | .unsupportedSpecialValue _ => 8
  | .illegalCommand => 15

/-- The `CLASS` code (R84). -/
def classCode : Class754 → BitVec 3
  | .zero => 0
  | .normal => 1
  | .subnormal => 2
  | .infinite => 3
  | .nan => 4

/-- The class a `CLASS` code names; 5 to 7 are never produced (R84). -/
def classOfCode? (c : BitVec 3) : Option Class754 :=
  match c.toNat with
  | 0 => some .zero
  | 1 => some .normal
  | 2 => some .subnormal
  | 3 => some .infinite
  | 4 => some .nan
  | _ => none

/-- The failure a non-zero `STATUS` code names; 9 to 14 are never produced (R140). -/
def failureOfCode? (status : BitVec 4) (cls : BitVec 3) : Option Failure :=
  match status.toNat with
  | 1 => some .emptyInput
  | 2 => some .invalidDigit
  | 3 => some .invalidPrefix
  | 4 => some .rangeError
  | 5 => some .widthMismatch
  | 6 => some .domainError
  | 7 => some .divideByZero
  | 8 => (classOfCode? cls).map .unsupportedSpecialValue
  | 15 => some .illegalCommand
  | _ => none

/-! ## The response record -/

/-- The response record (R61): three words. -/
structure RspRecord where
  s : Word
  r1 : Word
  r0 : Word
  deriving DecidableEq, Repr

/-- The fields of a response record (R61), apart from `S[31:29]`, which is always 0. -/
structure RspFields where
  status : BitVec 4
  ovf : Bool
  rsgn : Bool
  rlen : BitVec 6
  rfr : BitVec 8
  cls : BitVec 3
  nrec : BitVec 6
  r1 : Word
  r0 : Word
  deriving DecidableEq, Repr

/-- Every field 0 (R62). -/
def RspFields.zero : RspFields := ⟨0, false, false, 0, 0, 0, 0, 0, 0⟩

/-- The packing of base-32 symbols, `d[k]` in `P[5k+4:5k]`, as a number (R64). -/
def packDigits : List (BitVec 5) → Nat
  | [] => 0
  | d :: ds => d.toNat + 32 * packDigits ds

/-- The fields of a success (R63), with `nrec` records in the trace. -/
def Payload.fields (nrec : Nat) : Payload → RspFields
  | .arith w result ovf =>
    { RspFields.zero with
      ovf := ovf, rlen := BitVec.ofNat 6 w, nrec := BitVec.ofNat 6 nrec, r0 := result.setWidth 32 }
  | .binStr s =>
    { RspFields.zero with
      rlen := BitVec.ofNat 6 s.len, rfr := s.frac.setWidth 8 <<< 4, nrec := BitVec.ofNat 6 nrec,
      r0 := s.bits.setWidth 32 }
  | .numeral v =>
    { RspFields.zero with rsgn := v.sgn, rfr := v.fmag, nrec := BitVec.ofNat 6 nrec, r0 := v.imag }
  | .b32 digits fraction =>
    { RspFields.zero with
      rlen := BitVec.ofNat 6 digits.length, rfr := BitVec.ofNat 8 (packDigits fraction.reverse),
      nrec := BitVec.ofNat 6 nrec,
      r1 := BitVec.ofNat 32 (packDigits digits / 2 ^ 32 % 8), r0 := BitVec.ofNat 32 (packDigits digits) }
  | .f754 cls f =>
    { RspFields.zero with
      rsgn := f.sign, cls := classCode cls, nrec := BitVec.ofNat 6 nrec,
      r0 := place f.mantissa 0 ||| place f.exponent 23 ||| place (BitVec.ofBool f.sign) 31 }

/-- The class a failure response carries: that of `UnsupportedSpecialValue`, else 0 (R147). -/
def failureClass : Failure → BitVec 3
  | .unsupportedSpecialValue c => classCode c
  | _ => 0

/-- The fields of a response (R62, R63, R147). -/
def Response.fields (nrec : Nat) : Response → RspFields
  | .ok p => Payload.fields nrec p
  | .fail f =>
    { RspFields.zero with status := failureCode f, cls := failureClass f, nrec := BitVec.ofNat 6 nrec }

/-- The words of a record from its fields (R61). -/
def RspFields.words (f : RspFields) : RspRecord :=
  ⟨place f.status 0 ||| place (BitVec.ofBool f.ovf) 4 ||| place (BitVec.ofBool f.rsgn) 5 ||| place f.rlen 6 |||
      place f.rfr 12 ||| place f.cls 20 ||| place f.nrec 23, f.r1, f.r0⟩

/-- The fields of a record from its words (R61). -/
def RspRecord.fields (r : RspRecord) : RspFields :=
  { status := r.s.extractLsb' 0 4, ovf := r.s.getLsbD 4, rsgn := r.s.getLsbD 5, rlen := r.s.extractLsb' 6 6,
    rfr := r.s.extractLsb' 12 8, cls := r.s.extractLsb' 20 3, nrec := r.s.extractLsb' 23 6, r1 := r.r1, r0 := r.r0 }

/-- The response record of an answer (R61): `NREC` is the number of its trace records (R66). -/
def Answer.record (x : Answer) : RspRecord := (Response.fields x.trace.length x.response).words

/-- The payload that the fields of a success record stand for, GIVEN the operation that was asked for: the fields
alone do not tell a TOBIN result from a TOB32 result, nor a Numeral from an F32X zero (R63, R65). -/
def payloadOfFields (o : Op) (f : RspFields) : Option Payload :=
  match o with
  | .add | .sub | .mul | .div => some (.arith f.rlen.toNat (f.r0.setWidth f.rlen.toNat) f.ovf)
  | .tobin => some (.binStr ⟨f.rlen.toNat, f.r0.setWidth f.rlen.toNat, f.rfr.extractLsb' 4 4⟩)
  | .frombin => some (.numeral ⟨f.rsgn, f.r0, f.rfr⟩)
  | .tob32 =>
    some (.b32 ((List.range f.rlen.toNat).map fun k => ((joinWords f.r1 f.r0).extractLsb' (5 * k) 5))
      ((List.range Config.b32Fd).map fun k => f.rfr.extractLsb' (5 * (Config.b32Fd - 1 - k)) 5))
  | .f32x =>
    (classOfCode? f.cls).map fun c =>
      .f754 c ⟨f.r0.getLsbD 31, f.r0.extractLsb' 23 8, f.r0.extractLsb' 0 23⟩

/-- The abstract response a record stands for, given the operation (R65, R167). -/
def RspRecord.response? (o : Op) (r : RspRecord) : Option Response :=
  if r.fields.status = 0 then (payloadOfFields o r.fields).map .ok
  else (failureOfCode? r.fields.status r.fields.cls).map .fail

/-- The bytes of a stored response: `S`, `R1`, `R0` (R33). -/
def RspRecord.bytes (r : RspRecord) : List Byte := wordBytes r.s ++ wordBytes r.r1 ++ wordBytes r.r0

/-! ## The trace records -/

/-- The five words of a trace record (R66). -/
structure TraceWords where
  t0 : Word
  t1 : Word
  t2 : Word
  t3 : Word
  t4 : Word
  deriving DecidableEq, Repr

/-- `T0` from its fields (R67): `KIND`, `POS` and bits 8 to 12. -/
def traceT0 (kind : BitVec 2) (pos : Nat) (b8 b9 b10 b11 b12 : Bool) : Word :=
  place kind 0 ||| place (BitVec.ofNat 6 pos) 2 ||| place (BitVec.ofBool b8) 8 ||| place (BitVec.ofBool b9) 9 |||
    place (BitVec.ofBool b10) 10 ||| place (BitVec.ofBool b11) 11 ||| place (BitVec.ofBool b12) 12

/-- The words of a trace record (R67, R68). -/
def TraceRec.words : TraceRec → TraceWords
  | .add pos ai bi cin sum cout => ⟨traceT0 0 pos ai bi cin sum cout, 0, 0, 0, 0⟩
  | .mul pos mbit pp acc =>
    ⟨traceT0 1 pos mbit false false false false, pp.setWidth 32, pp.extractLsb' 32 32, acc.setWidth 32,
      acc.extractLsb' 32 32⟩
  | .div pos dbit qbit rem => ⟨traceT0 2 pos dbit qbit false false false, rem, 0, 0, 0⟩

/-- The trace record five words stand for; `KIND` 3 is never produced (R67, R68). -/
def TraceWords.record? (t : TraceWords) : Option TraceRec :=
  match (t.t0.extractLsb' 0 2).toNat with
  | 0 =>
    some (.add (t.t0.extractLsb' 2 6).toNat (t.t0.getLsbD 8) (t.t0.getLsbD 9) (t.t0.getLsbD 10) (t.t0.getLsbD 11)
      (t.t0.getLsbD 12))
  | 1 => some (.mul (t.t0.extractLsb' 2 6).toNat (t.t0.getLsbD 8) (joinWords t.t2 t.t1) (joinWords t.t4 t.t3))
  | 2 => some (.div (t.t0.extractLsb' 2 6).toNat (t.t0.getLsbD 8) (t.t0.getLsbD 9) t.t1)
  | _ => none

/-- The bytes of a stored trace record: `T0` to `T4` (R33). -/
def TraceWords.bytes (t : TraceWords) : List Byte :=
  wordBytes t.t0 ++ wordBytes t.t1 ++ wordBytes t.t2 ++ wordBytes t.t3 ++ wordBytes t.t4

/-- The trace of an answer on the port: its records in their order (R66). -/
def Answer.traceWords (x : Answer) : List TraceWords := x.trace.map TraceRec.words

/-- The bytes of a stored trace: record 0 first (R33). -/
def Answer.traceBytes (x : Answer) : List Byte := (x.traceWords.map TraceWords.bytes).flatten

end Sys2Proof.Machine
end

