-- ==== Sys2Proof/Machine/HostText.lean ====
section
/-! DEFINITION. The host text layer: spec/47_host_text_layer.md, with the alphabet of spec/43_base32_encoder.md
R93, the assembler forms of spec/30_encoding.md R69 and the host's conversions of spec/42_ieee754_extractor.md R91
and spec/70_reset_and_hazards.md R168. EVERY RULE HERE BINDS THE HOST, NOT THE BLOCK (R125): neither `exec` nor
`step` uses anything of this file. Texts are lists of characters. -/

namespace Sys2Proof.Machine

open Sys2Proof

/-- What the host's text layer reports instead of a request: a failure of the common taxonomy (R125), or that the
value cannot be presented to the block without loss (R130, R131). -/
inductive HostError where
  | failure (f : Failure)
  | cannotPresent
  deriving DecidableEq, Repr

/-! ## Texts -/

/-- The text before the first `.` and, if there is a `.`, the text after it (R24, R129, R133). -/
def splitDot : List Char → List Char × Option (List Char)
  | [] => ([], none)
  | c :: cs =>
    if c = '.' then ([], some cs)
    else (c :: (splitDot cs).1, (splitDot cs).2)

/-- The pattern a string of binary characters stands for, most significant first (R7): bit `len-1-k` is
character `k` (R131). -/
def bitsOfText : (cs : List Char) → BitVec cs.length
  | [] => 0#0
  | c :: cs => BitVec.cons (c == '1') (bitsOfText cs)

/-- A pattern of `w` bits as `w` characters, bit `w-1` first (R132). -/
def textOfBits {w : Nat} (x : BitVec w) : List Char :=
  (List.range w).map fun k => if x.getLsbD (w - 1 - k) then '1' else '0'

/-- The fractional portion as a field of `FB` bits: character `k` is bit `3-k`, 0 where the text is shorter (R131). -/
def fracOfText (cs : List Char) : BitVec 4 :=
  ofBits (fun i => (cs.getD (3 - i) '0') == '1') 4

/-- Is a character binary (R131). -/
def isBinary (c : Char) : Bool := c == '0' || c == '1'

/-- The BinaryString a text stands for (R131): binary characters with at most one `.`; no stripping, no padding. A
text with more than 32 integer characters, or with a `1` beyond the fourth fractional character, is refused. -/
def binStrOfText (text : List Char) : Except HostError BinStr :=
  if ((splitDot text).1 ++ (splitDot text).2.getD []).all isBinary = false then .error (.failure .invalidDigit)
  else if Config.wMax < (splitDot text).1.length then .error .cannotPresent
  else if (((splitDot text).2.getD []).drop Config.fb).any (· == '1') then .error .cannotPresent
  else .ok ⟨(splitDot text).1.length, bitsOfText (splitDot text).1, fracOfText ((splitDot text).2.getD [])⟩

/-- The fractional portion of a printed BinaryString: its characters as far as the last `1`, and of the zeros after
that as many as bring it to `atLeast` characters; no `.` where none is left. -/
def textOfFraction (atLeast : Nat) (cs : List Char) : List Char :=
  match cs.take (max atLeast (cs.reverse.dropWhile (· == '0')).length) with
  | [] => []
  | f => '.' :: f

/-- A BinaryString as text (R132). Whether a fractional portion of zeros is written, and whether trailing zeros of one
are (`0101.1` for `0101.1000`), the spec leaves to the host (R76, R132, N11); the model leaves it open too, as the
argument `atLeast`: 0 writes no trailing zero, 4 writes all four characters. That no `1` is left out is the model's
reading of R132 (notes/assumptions/17.md). -/
def textOfBinStr (atLeast : Nat) (s : BinStr) : List Char :=
  textOfBits s.bits ++ textOfFraction atLeast (textOfBits s.frac)

/-- The alphabet `0-9A-V`: digit value = index (R93). -/
def base32Alphabet : List Char :=
  ['0', '1', '2', '3', '4', '5', '6', '7', '8', '9', 'A', 'B', 'C', 'D', 'E', 'F',
   'G', 'H', 'I', 'J', 'K', 'L', 'M', 'N', 'O', 'P', 'Q', 'R', 'S', 'T', 'U', 'V']

/-- The character of a symbol value (R93). -/
def symbolChar (d : BitVec 5) : Char := base32Alphabet.getD d.toNat '0'

/-- A TOB32 result as text: integer symbols most significant first (R97), then a separator and the fractional symbols.
What the separator is (N10; it may be empty), and whether a zero fraction is written (R96, D28), is the host's choice
and left open as the first two arguments (notes/assumptions/17.md). -/
def textOfBase32 (separator : List Char) (zeroFraction : Bool) (digits fraction : List (BitVec 5)) : List Char :=
  if zeroFraction || fraction.any (· != 0#5) then
    digits.reverse.map symbolChar ++ separator ++ fraction.map symbolChar
  else digits.reverse.map symbolChar

/-! ## The Formatter (R133) -/

/-- Put a space before every character whose index satisfies `p`; `k` is the index of the first. -/
def spaceBefore (p : Nat → Bool) : Nat → List Char → List Char
  | _, [] => []
  | k, c :: cs => if p k then ' ' :: c :: spaceBefore p (k + 1) cs else c :: spaceBefore p (k + 1) cs

/-- Right-aligned groups of `n` characters, counted from the right end (R133). -/
def groupRight (n : Nat) (cs : List Char) : List Char :=
  spaceBefore (fun k => decide (k ≠ 0) && decide ((cs.length - k) % n = 0)) 0 cs

/-- Left-aligned groups of `n` characters, counted from the left end (R133). -/
def groupLeft (n : Nat) (cs : List Char) : List Char :=
  spaceBefore (fun k => decide (k ≠ 0) && decide (k % n = 0)) 0 cs

/-- `group(text, group_size)`: the integer portion in right-aligned groups, the fractional portion, if present, in
left-aligned groups, joined by the original `.` (R133). -/
def group (text : List Char) (n : Nat) : List Char :=
  match (splitDot text).2 with
  | none => groupRight n (splitDot text).1
  | some f => groupRight n (splitDot text).1 ++ '.' :: groupLeft n f

/-- `group_result_digits_only`, read as the text without its spaces (R134). -/
def digitsOnly (text : List Char) : List Char := text.filter fun c => c != ' '

/-! ## The Parser (R126 to R129) -/

/-- The exact value of a parsed text: sign, integer digits, and the fraction `fracNum / fracDen` (R126, R129). -/
structure ParsedValue where
  neg : Bool
  int : Nat
  fracNum : Nat
  fracDen : Nat
  deriving DecidableEq, Repr

/-- The value of a digit character, letters in either case (R128). -/
def digitValue (c : Char) : Option Nat :=
  if 48 ≤ c.toNat ∧ c.toNat ≤ 57 then some (c.toNat - 48)
  else if 97 ≤ c.toNat ∧ c.toNat ≤ 102 then some (c.toNat - 87)
  else if 65 ≤ c.toNat ∧ c.toNat ≤ 70 then some (c.toNat - 55)
  else none

/-- Is a character in the radix's digit alphabet (R128). -/
def isDigitOf (radix : Nat) (c : Char) : Bool :=
  match digitValue c with
  | some v => decide (v < radix)
  | none => false

/-- The number a string of digits stands for. -/
def digitsValue (radix : Nat) (cs : List Char) : Nat :=
  cs.foldl (fun acc c => radix * acc + (digitValue c).getD 0) 0

/-- The radix a prefix letter goes with (R127); upper case is accepted only where `PARSER_PREFIX_CASE` says so. -/
def prefixRadix (c : Char) : Option Nat :=
  if c = 'b' ∨ (c = 'B' ∧ Config.parserPrefixCase) then some 2
  else if c = 'o' ∨ (c = 'O' ∧ Config.parserPrefixCase) then some 8
  else if c = 'x' ∨ (c = 'X' ∧ Config.parserPrefixCase) then some 16
  else none

/-- The radix of a text's prefix, if it has one, and the text after it (R127). At radix 16 the letter of `0b` is also
a digit, and which reading holds is open (N14). -/
def takePrefix (radix : Nat) (text : List Char) : Option Nat × List Char :=
  match text with
  | '0' :: c :: rest =>
    match prefixRadix c with
    | some r => if radix = 16 ∧ r = 2 ∧ Config.parserHex0b = false then (none, text) else (some r, rest)
    | none => (none, text)
  | _ => (none, text)

/-- The sign of a text, where a sign character is accepted (D30), and the text after it. -/
def takeSign (text : List Char) : Bool × List Char :=
  match text with
  | c :: rest =>
    if c = '-' ∧ Config.parserSign then (true, rest)
    else if c = '+' ∧ Config.parserSign then (false, rest)
    else (false, text)
  | [] => (false, [])

/-- A text without the blanks around it, where the host drops them (N14). -/
def trimBlanks (text : List Char) : List Char :=
  if Config.parserTrim then
    ((text.dropWhile (· == ' ')).reverse.dropWhile (· == ' ')).reverse
  else text

/-- The failures that apply to the text after sign and prefix: an inconsistent prefix (R127), a character outside the
radix's alphabet (R128), a second `.`, no digits (N14). Digits on one side only of a `.` (`.5`, `5.`) are no failure:
the model's choice, the spec does not say (notes/assumptions/11.md). -/
def parseFailures (radix : Nat) (pre : Option Nat) (body : List Char) : List Failure :=
  (if pre ≠ none ∧ pre ≠ some radix then [.invalidPrefix] else [])
    ++ (if (body.filter fun c => c != '.').all (isDigitOf radix) = false then [.invalidDigit] else [])
    ++ (if 2 ≤ body.count '.' then [Config.parserSecondDot] else [])
    ++ (if (body.filter fun c => c != '.') = [] then
          [if pre = none then Config.parserNoDigits else Config.parserPrefixOnly] else [])

/-- The value of a text whose digits are all in the alphabet: fractional digit `i` counts `radix^(-i)` (R129).
A side of the `.` with no digits counts 0 (notes/assumptions/11.md). -/
def parsedValue (radix : Nat) (neg : Bool) (body : List Char) : ParsedValue :=
  ⟨neg, digitsValue radix (splitDot body).1, digitsValue radix ((splitDot body).2.getD []),
    radix ^ ((splitDot body).2.getD []).length⟩

/-- The failure that is reported of those that apply, `f` and `fs`: one of them, which one is open
(`PARSER_PRIORITY`, D30). -/
def reported (f : Failure) (fs : List Failure) : Failure :=
  (f :: fs).getD (Config.parserPriority (f :: fs) % (f :: fs).length) f

/-- Is a text blank: no character other than a space (R129). -/
def isBlank (text : List Char) : Bool := text.all (· == ' ')

/-- Parsing of a text that is not blank, at a radix of the contract: sign, prefix, then digits (R127 to R129). -/
def parseBody (radix : Nat) (signed : Bool × List Char) : Except Failure ParsedValue :=
  match parseFailures radix (takePrefix radix signed.2).1 (takePrefix radix signed.2).2 with
  | [] => .ok (parsedValue radix signed.1 (takePrefix radix signed.2).2)
  | f :: fs => .error (reported f fs)

/-- `parse(text, radix)` (R126 to R129). -/
def parse (text : List Char) (radix : Nat) : Except Failure ParsedValue :=
  if radix ∉ [2, 8, 10, 16] then
    .error (reported Config.parserBadRadix (if isBlank text then [.emptyInput] else []))
  else if isBlank text then .error .emptyInput
  else parseBody radix (takeSign (trimBlanks text))

/-- The block's Numeral of a parsed value: the fraction is cut to `FRACW` bits; an integer part of `2^32` or more
cannot be presented (R130). -/
def numeralOfParsed (v : ParsedValue) : Except HostError Numeral :=
  if v.int < 2 ^ 32 then
    .ok ⟨v.neg, BitVec.ofNat 32 v.int, BitVec.ofNat 8 (v.fracNum * 2 ^ Config.fracW / v.fracDen)⟩
  else .error .cannotPresent

/-! ## The host's conversions of operands -/

/-- The magnitude of a Numeral in units of `1/256`. -/
def numeralUnits (v : Numeral) : Nat := 256 * v.imag.toNat + v.fmag.toNat

/-- A binary64 word from its fields (R85). -/
def binary64 (s : Bool) (e11 : BitVec 11) (f52 : BitVec 52) : BitVec 64 :=
  (BitVec.ofBool s).setWidth 64 <<< 63 ||| e11.setWidth 64 <<< 52 ||| f52.setWidth 64

/-- The binary64 word of a Numeral, which is exact: at most 40 significant bits (R91). With `L` the position of the
highest set bit of the magnitude in units of `1/256`, the true exponent is `L - 8`. -/
def binary64OfNumeral (v : Numeral) : BitVec 64 :=
  if numeralUnits v = 0 then binary64 v.sgn 0 0
  else
    binary64 v.sgn (BitVec.ofNat 11 (Nat.log2 (numeralUnits v) + 1015))
      (BitVec.ofNat 52 ((numeralUnits v - 2 ^ Nat.log2 (numeralUnits v)) * 2 ^ (52 - Nat.log2 (numeralUnits v))))

/-- The binary64 word that holds `± m / 2^j` exactly, if there is one (R91, D9; the layout is R85's): the true exponent
is that of the highest set bit; below the normal range the fraction counts in units of `2^-1074`. -/
def binary64OfDyadic? (neg : Bool) (m j : Nat) : Option (BitVec 64) :=
  if m = 0 then some (binary64 neg 0 0)
  else if 1024 + j ≤ Nat.log2 m then none
  else if j ≤ Nat.log2 m + 1022 then
    if Nat.log2 m ≤ 52 ∨ m % 2 ^ (Nat.log2 m - 52) = 0 then
      some (binary64 neg (BitVec.ofNat 11 (Nat.log2 m + 1023 - j))
        (BitVec.ofNat 52 (m * 2 ^ 52 / 2 ^ Nat.log2 m - 2 ^ 52)))
    else none
  else if j ≤ 1074 then some (binary64 neg 0 (BitVec.ofNat 52 (m * 2 ^ (1074 - j))))
  else if m % 2 ^ (j - 1074) = 0 then some (binary64 neg 0 (BitVec.ofNat 52 (m / 2 ^ (j - 1074))))
  else none

/-- The binary64 word that holds a parsed value exactly, if there is one (R91). -/
def binary64OfParsed? (v : ParsedValue) : Option (BitVec 64) :=
  let num := v.int * v.fracDen + v.fracNum
  let g := Nat.gcd num v.fracDen
  if v.fracDen / g = 2 ^ Nat.log2 (v.fracDen / g) then binary64OfDyadic? v.neg (num / g) (Nat.log2 (v.fracDen / g))
  else none

/-- The binary64 word the host makes of a parsed value for F32X (R130, R91). Where binary64 does not hold the value
exactly, which word the host takes is open. -/
def binary64OfParsed (v : ParsedValue) : BitVec 64 :=
  (binary64OfParsed? v).getD (Config.hostBinary64 v.neg (v.int * v.fracDen + v.fracNum) v.fracDen)

/-- `zext_N`: widening with zeros in the high bits, the caller's zero-padding (R8, R168). -/
def zeroPad {w : Nat} (n : Nat) (x : BitVec w) : BitVec n := x.zeroExtend n

/-- `sext_N`: widening with copies of the top bit (R8, R168). -/
def signPad {w : Nat} (n : Nat) (x : BitVec w) : BitVec n := x.signExtend n

/-! ## The assembler forms (R69, R70) -/

/-- A transaction in the mnemonic notation: BinaryStrings as texts, a Numeral or a binary64 word as a value, and the
raw form of three words (R69). `tobin none` is TOBIN without a width suffix. -/
inductive AsmLine where
  | add (w : Nat) (a b : List Char)
  | sub (w : Nat) (a b : List Char)
  | mul (w : Nat) (a b : List Char)
  | div (w : Nat) (a b : List Char)
  | tobin (w : Option Nat) (v : Numeral)
  | frombin (text : List Char)
  | tob32 (v : Numeral)
  | f32x (v : BitVec 64)
  | req (ctl b a : Word)
  deriving DecidableEq, Repr

/-- Decimal digits, optionally a `.` and decimal digits (R69). -/
def decimalOfText? (neg : Bool) (text : List Char) : Option ParsedValue :=
  if ((splitDot text).1 ++ (splitDot text).2.getD []).all (isDigitOf 10) = true ∧ (splitDot text).1 ≠ [] ∧
      (splitDot text).2 ≠ some [] then
    some (parsedValue 10 neg text)
  else none

/-- The `numeral` of the mnemonic notation: `+` or `-` and a decimal whose fraction is a multiple of 1/256 (R69). -/
def numeralOfText : List Char → Except HostError Numeral
  | c :: text =>
    if c ≠ '+' ∧ c ≠ '-' then .error .cannotPresent
    else
      match decimalOfText? (c == '-') text with
      | some v => if v.fracNum * 2 ^ Config.fracW % v.fracDen = 0 then numeralOfParsed v else .error .cannotPresent
      | none => .error .cannotPresent
  | [] => .error .cannotPresent

/-- The `real` of the mnemonic notation: a decimal, with a sign or without, that binary64 holds exactly (R69). -/
def realOfText (text : List Char) : Except HostError (BitVec 64) :=
  match (match text with
    | '-' :: rest => decimalOfText? true rest
    | '+' :: rest => decimalOfText? false rest
    | _ => decimalOfText? false text).bind binary64OfParsed? with
  | some x => .ok x
  | none => .error .cannotPresent

/-- The request of an arithmetic line: `ALEN` and `BLEN` are the character counts of the operands, which need not
equal the width (R69). A text with a fractional portion is no operand of an arithmetic operation (R53). Where several
refusals apply the spec gives no order: THE MODEL'S CHOICE is the width and the fractional portion first, then the
characters of R131, `a` before `b` (notes/assumptions/18.md). -/
def assembleArith (build : BitVec 6 → BitVec 6 → BitVec 6 → Word → Word → Instr) (w : Nat) (a b : List Char) :
    Except HostError Request :=
  if 64 ≤ w ∨ (splitDot a).2 ≠ none ∨ (splitDot b).2 ≠ none then .error .cannotPresent
  else
    match binStrOfText a, binStrOfText b with
    | .ok x, .ok y =>
      .ok (encode (build (BitVec.ofNat 6 w) (BitVec.ofNat 6 x.len) (BitVec.ofNat 6 y.len) (x.bits.setWidth 32)
        (y.bits.setWidth 32)))
    | .error e, _ => .error e
    | _, .error e => .error e

/-- The request a line stands for (R69). -/
def assemble : AsmLine → Except HostError Request
  | .add w a b => assembleArith .add w a b
  | .sub w a b => assembleArith .sub w a b
  | .mul w a b => assembleArith .mul w a b
  | .div w a b => assembleArith .div w a b
  | .tobin w v =>
    if 64 ≤ w.getD 0 then .error .cannotPresent
    else .ok (encode (.tobin (BitVec.ofNat 6 (w.getD 0)) v.sgn v.fmag v.imag))
  | .frombin text =>
    match binStrOfText text with
    | .ok s => .ok (encode (.frombin (BitVec.ofNat 6 s.len) s.frac (s.bits.setWidth 32)))
    | .error e => .error e
  | .tob32 v => .ok (encode (.tob32 v.sgn v.fmag v.imag))
  | .f32x v => .ok (encode (.f32x (v.extractLsb' 32 32) (v.setWidth 32)))
  | .req ctl b a => .ok ⟨ctl, b, a⟩

end Sys2Proof.Machine
end

