-- ==== Sys2Proof/Safety.lean ====
section
/-! DEFINITION. The terms claims are stated in: what a well-formed answer is, when a request is legal, and what it
means that an operation delivers a response. Nothing here is used by `exec` or `step`. -/

namespace Sys2Proof.Machine

open Sys2Proof

/-! ## What an operation delivers -/

/-- Executing `i` in `s` completes, and all it does is to answer the oldest request with the response `r` and the
trace `t`: the request is no longer pending, the other requests and every earlier answer are unchanged. -/
def Delivers (i : Instr) (s : State) (r : Response) (t : Trace) : Prop :=
  exec i s = .next ⟨s.pending.tail, s.answers ++ [⟨s.requester, r, t⟩]⟩

/-- The two's-complement value of the low `n` bits of a word, `s_n` (R6). -/
def signedLow (n : Nat) (a : Word) : Int := (a.setWidth n).toInt

/-- The magnitude of the low `n` bits of a word, `mag_n`, as a number (R8). -/
def magnitudeLow (n : Nat) (a : Word) : Nat := (signedLow n a).natAbs

/-- A number lies in the range a width `n` bounds (R23). -/
def FitsSigned (n : Nat) (z : Int) : Prop := -2 ^ (n - 1) ≤ z ∧ z ≤ 2 ^ (n - 1) - 1

/-- The operands of an arithmetic request of declared width `w`: both lengths are `w`, which is a legal width, and
no operand bit lies at or above it (R48, R49, R100). -/
def OperandsFit (w : BitVec 6) (a b : Word) : Prop :=
  1 ≤ w.toNat ∧ w.toNat ≤ 32 ∧ a.toNat < 2 ^ w.toNat ∧ b.toNat < 2 ^ w.toNat

/-- A legal request, stated on the numbers its bits stand for (R50, R51, R48, R49, R56, R57, R58). -/
def LegalRequest (r : Request) : Prop :=
  r.ctl.toNat % 16 < 8 ∧ r.ctl.toNat < 2 ^ 31 ∧
  (r.ctl.toNat % 16 < 4 →
    r.ctl.toNat < 2 ^ 22 ∧ 1 ≤ r.ctl.toNat / 2 ^ 4 % 64 ∧ r.ctl.toNat / 2 ^ 4 % 64 ≤ 32 ∧
    r.ctl.toNat / 2 ^ 10 % 64 ≤ 32 ∧ r.ctl.toNat / 2 ^ 16 % 64 ≤ 32 ∧
    r.a.toNat < 2 ^ (r.ctl.toNat / 2 ^ 10 % 64) ∧ r.b.toNat < 2 ^ (r.ctl.toNat / 2 ^ 16 % 64)) ∧
  (r.ctl.toNat % 16 = 4 →
    r.ctl.toNat / 2 ^ 10 % 2 ^ 12 = 0 ∧ r.ctl.toNat / 2 ^ 4 % 64 ≤ 32 ∧ r.b = 0) ∧
  (r.ctl.toNat % 16 = 5 →
    r.ctl.toNat / 2 ^ 16 % 2 ^ 11 = 0 ∧ r.ctl.toNat / 2 ^ 4 % 64 = 0 ∧ r.ctl.toNat / 2 ^ 10 % 64 ≤ 32 ∧
    r.a.toNat < 2 ^ (r.ctl.toNat / 2 ^ 10 % 64) ∧ r.b = 0) ∧
  (r.ctl.toNat % 16 = 6 → r.ctl.toNat / 2 ^ 4 % 2 ^ 18 = 0 ∧ r.b = 0) ∧
  (r.ctl.toNat % 16 = 7 → r.ctl.toNat = 7)

/-- The character `c` is a digit of value `v`, letters in either case (R128). -/
def DigitOf (c : Char) (v : Nat) : Prop :=
  (v ≤ 9 ∧ c.toNat = 48 + v) ∨ (10 ≤ v ∧ v ≤ 15 ∧ (c.toNat = 87 + v ∨ c.toNat = 55 + v))

/-- The number a list of digit values stands for, most significant first (R10, R129). -/
def positional (radix : Nat) (vs : List Nat) : Nat := vs.foldl (fun n v => radix * n + v) 0

/-! ## Well-formed answers -/

/-- A trace of ADD or SUB from position `k` on, with carry `c` into it: positions ascend, each record is a full
adder, and the carry out of a position is the carry into the next (R101, R103). -/
def addLinked : (k : Nat) → (c : Bool) → Trace → Bool
  | _, _, [] => true
  | k, c, .add pos ai bi cin sum cout :: t =>
    (pos == k) && (cin == c) && (sum == (ai ^^ bi ^^ cin)) &&
      (cout == ((ai && bi) || (ai && cin) || (bi && cin))) && addLinked (k + 1) cout t
  | _, _, _ :: _ => false

/-- A trace of MUL from position `k` on, with accumulator `acc0` before it: positions ascend, a zero multiplier bit
has a zero partial product, and each accumulator is the one before plus the partial product (R112, R114). -/
def mulLinked : (k : Nat) → (acc0 : BitVec 64) → Trace → Bool
  | _, _, [] => true
  | k, acc0, .mul pos mbit pp acc :: t =>
    (pos == k) && (mbit || pp == 0) && (acc == acc0 + pp) && mulLinked (k + 1) acc t
  | _, _, _ :: _ => false

/-- A trace of DIV: positions descend to 0 (R120). -/
def divLinked : Trace → Bool
  | [] => true
  | .div pos _ _ _ :: t => (pos == t.length) && divLinked t
  | _ :: _ => false

/-- A payload the block can produce (R63, R78, R84, R95). -/
def Payload.wf : Payload → Bool
  | .arith w _ _ => decide (1 ≤ w) && decide (w ≤ 32)
  | .binStr s => decide (1 ≤ s.len) && decide (s.len ≤ 32)
  | .numeral v =>
    (v.fmag.extractLsb' 0 4 == 0#4) &&
      (if v.sgn then decide (1 ≤ v.imag.toNat) && decide (v.imag.toNat ≤ 2 ^ 31)
       else decide (v.imag.toNat < 2 ^ 31))
  | .b32 digits fraction =>
    (fraction.length == Config.b32Fd) && decide (1 ≤ digits.length) && decide (digits.length ≤ 7) &&
      decide (packDigits digits < 2 ^ 32) &&
      ((digits == [0#5]) || (digits.getLast? != some 0#5))
  | .f754 .zero f => (f.exponent == 0#8) && (f.mantissa == 0#23)
  | .f754 .normal f => decide (1 ≤ f.exponent.toNat) && decide (f.exponent.toNat ≤ 254)
  | .f754 _ _ => false

/-- A failure the block can produce (R140, R150, R154). -/
def failureWf : Failure → Bool
  | .invalidDigit => false
  | .invalidPrefix => false
  | .unsupportedSpecialValue c => (c != .zero) && (c != .normal)
  | _ => true

/-- The trace that belongs to a response: `w` linked records for an arithmetic result of width `w`, and none for a
conversion or a failure (R66). -/
def traceWf (r : Response) (t : Trace) : Bool :=
  match r with
  | .ok (.arith w _ _) => (t.length == w) && (addLinked 0 false t || mulLinked 0 0 t || divLinked t)
  | _ => t.isEmpty

/-- A response the block can produce. -/
def Response.wf : Response → Bool
  | .ok p => p.wf
  | .fail f => failureWf f

/-- A well-formed answer: it goes to a host, and its response and its trace are ones the block can produce. -/
def Answer.wf (x : Answer) : Bool := x.host.isSome && x.response.wf && traceWf x.response x.trace

/-- The safety invariant: every answer delivered so far is well formed. -/
def State.safe (s : State) : Bool := s.answers.all Answer.wf

/-- A safe run never stops: the step from `s` has a next state (R16). -/
def State.goesOn (s : State) : Prop := ∃ t, step s = .next t

end Sys2Proof.Machine
end

