-- ==== Sys2Proof/Certificates/Slice0/Obligations.lean ====
section
/-! DEFINITION. The statements for the provers. `Delivers i s r t` (Safety.lean) says that executing `i` in `s`
completes, delivers the response `r` with the trace `t` to the host whose request is the oldest, and changes
nothing else; a statement that concludes it is a completion statement with its whole frame. The rules cited are
about the response and the trace; that a request leaves the list `pending` and an answer joins the list `answers`
is the model's way to hold the port, not a rule of the spec (notes/assumptions/1.md). -/

open Sys2Proof Sys2Proof.Machine

/-! ## Encoding -/

/-- Decoding an encoded instruction gives it back, from the record and from its bytes; a well-formed instruction
passes every check of R56 (R46, R50, R51, R56, R33). The first clause speaks of ill-formed instructions too, such as an
ADD of width 0: that `decode` reads their encodings, which R56 as a whole refuses, is the model's choice of two stages
(notes/assumptions/5.md). -/
def Obligations.EveryInstructionDecodesFromItsEncoding : Prop :=
  (∀ i : Instr, decode (encode i) = .ok i ∧ decodeBytes (encodeBytes i) = .ok i) ∧
  ∀ i : Instr, i.wellFormed = true → decodeLegal (encode i) = .ok i

/-- "A request then has exactly one encoding, decoding is injective" (R51): a request that decodes is the encoding
of what it decodes to. -/
def Obligations.DecodingIsInjective : Prop :=
  ∀ (r : Request) (i : Instr), decode r = .ok i → encode i = r

/-- The operation map, row by row, with its masks and match values and the fields each row uses (R50), and the word `B`
that TOBIN, FROMBIN and TOB32 do not use (R51). That a request with the row's fixed bits decodes even where R56 refuses
the value of one of its fields (`CTL` = 0, an ADD of width 0) is the model's choice of two stages
(notes/assumptions/5.md). -/
def Obligations.DecodeFollowsTheOperationMap : Prop :=
  ∀ r : Request,
    (decode r = .ok (.add (r.ctl.extractLsb' 4 6) (r.ctl.extractLsb' 10 6) (r.ctl.extractLsb' 16 6) r.a r.b) ↔
      r.ctl &&& 0xFFC0000F#32 = 0x00000000#32) ∧
    (decode r = .ok (.sub (r.ctl.extractLsb' 4 6) (r.ctl.extractLsb' 10 6) (r.ctl.extractLsb' 16 6) r.a r.b) ↔
      r.ctl &&& 0xFFC0000F#32 = 0x00000001#32) ∧
    (decode r = .ok (.mul (r.ctl.extractLsb' 4 6) (r.ctl.extractLsb' 10 6) (r.ctl.extractLsb' 16 6) r.a r.b) ↔
      r.ctl &&& 0xFFC0000F#32 = 0x00000002#32) ∧
    (decode r = .ok (.div (r.ctl.extractLsb' 4 6) (r.ctl.extractLsb' 10 6) (r.ctl.extractLsb' 16 6) r.a r.b) ↔
      r.ctl &&& 0xFFC0000F#32 = 0x00000003#32) ∧
    (decode r = .ok (.tobin (r.ctl.extractLsb' 4 6) (r.ctl.getLsbD 22) (r.ctl.extractLsb' 23 8) r.a) ↔
      r.ctl &&& 0x803FFC0F#32 = 0x00000004#32 ∧ r.b = 0) ∧
    (decode r = .ok (.frombin (r.ctl.extractLsb' 10 6) (r.ctl.extractLsb' 27 4) r.a) ↔
      r.ctl &&& 0x87FF03FF#32 = 0x00000005#32 ∧ r.b = 0) ∧
    (decode r = .ok (.tob32 (r.ctl.getLsbD 22) (r.ctl.extractLsb' 23 8) r.a) ↔
      r.ctl &&& 0x803FFFFF#32 = 0x00000006#32 ∧ r.b = 0) ∧
    (decode r = .ok (.f32x r.b r.a) ↔ r.ctl &&& 0xFFFFFFFF#32 = 0x00000007#32)

/-- Words written out from R46 and R50 bit by bit decode to the instructions they stand for (R72). -/
def Obligations.WrittenOutRequestsDecode : Prop :=
  decode ⟨0b0000000000#10 ++ 0b000100#6 ++ 0b000100#6 ++ 0b000100#6 ++ 0b0000#4, 1, 7⟩ = .ok (.add 4 4 4 7 1) ∧
  decode ⟨0b0#1 ++ 0b10000000#8 ++ 0b1#1 ++ 0b000000000000#12 ++ 0b000100#6 ++ 0b0100#4, 0, 2⟩ =
    .ok (.tobin 4 true 0x80 2) ∧
  decode ⟨0b0#1 ++ 0b1000#4 ++ 0b00000000000#11 ++ 0b000100#6 ++ 0b000000#6 ++ 0b0101#4, 0, 0xE⟩ =
    .ok (.frombin 4 0b1000 0xE) ∧
  decode ⟨0b0#1 ++ 0b10000000#8 ++ 0b0#1 ++ 0b000000000000000000#18 ++ 0b0110#4, 0, 0x1A⟩ =
    .ok (.tob32 false 0x80 0x1A) ∧
  decode ⟨0b0000000000000000000000000000#28 ++ 0b0111#4, 0x403A8000, 0⟩ = .ok (.f32x 0x403A8000 0)

/-- Every record is stored little-endian, word after word, and nothing is lost (R33). -/
def Obligations.RecordsAreStoredLittleEndian : Prop :=
  (∀ r : Request,
    r.bytes = (List.range 12).map
      (fun k => BitVec.ofNat 8 ((r.ctl.toNat + 2 ^ 32 * r.b.toNat + 2 ^ 64 * r.a.toNat) / 2 ^ (8 * k))) ∧
    Request.ofBytes? r.bytes = some r) ∧
  (∀ r : RspRecord,
    r.bytes = (List.range 12).map
      (fun k => BitVec.ofNat 8 ((r.s.toNat + 2 ^ 32 * r.r1.toNat + 2 ^ 64 * r.r0.toNat) / 2 ^ (8 * k)))) ∧
  (∀ r : TraceWords,
    r.bytes = (List.range 20).map
      (fun k => BitVec.ofNat 8 ((r.t0.toNat + 2 ^ 32 * r.t1.toNat + 2 ^ 64 * r.t2.toNat + 2 ^ 96 * r.t3.toNat +
        2 ^ 128 * r.t4.toNat) / 2 ^ (8 * k)))) ∧
  (∀ x : Answer, x.traceBytes = (x.trace.map fun c => (TraceRec.words c).bytes).flatten)

/-! ## The step -/

/-- Where the oldest request decodes, the step is the execution of what it decodes to (R15). -/
def Obligations.StepRunsTheDecodedInstruction : Prop :=
  ∀ (s : State) (p : Presented) (ps : List Presented) (i : Instr),
    s.pending = p :: ps → decode p.req = .ok i → step s = exec i s

/-- Where no request is presented, a step changes nothing. THE MODEL'S CHOICE (notes/assumptions/2.md). -/
def Obligations.IdleBlockStaysAsItIs : Prop :=
  ∀ s : State, s.pending = [] → step s = .next s

/-- A reserved operation code: the response is `IllegalCommand`, no result, no trace (R57); so is a request with
`CTL[31]` set (R58). -/
def Obligations.ReservedRequestsAreAnsweredIllegal : Prop :=
  ∀ (s : State) (p : Presented) (ps : List Presented),
    s.pending = p :: ps → (8 ≤ p.req.ctl.toNat % 16 ∨ 2 ^ 31 ≤ p.req.ctl.toNat) →
    step s = .next ⟨ps, s.answers ++ [⟨some p.host, .fail .illegalCommand, []⟩]⟩

/-- A request is answered `IllegalCommand` exactly when it is not legal, with the conditions of R56 stated on the
numbers its bits stand for (R149). -/
def Obligations.IllegalCommandExactlyForIllegalRequests : Prop :=
  ∀ (s : State) (p : Presented) (ps : List Presented), s.pending = p :: ps →
    (¬ LegalRequest p.req →
      step s = .next ⟨ps, s.answers ++ [⟨some p.host, .fail .illegalCommand, []⟩]⟩) ∧
    (LegalRequest p.req →
      ∃ i r t, decodeLegal p.req = .ok i ∧ r ≠ .fail .illegalCommand ∧
        step s = .next ⟨ps, s.answers ++ [⟨some p.host, r, t⟩]⟩)

/-! ## The whole machine -/

/-- The response and the trace of a transaction are a function of its request alone: one function gives the answer
to every request, whatever is pending behind it, whatever was answered before, and whichever host it is for; and
the step does nothing else (R13). -/
def Obligations.AnswerIsAFunctionOfTheRequest : Prop :=
  ∃ f : Request → Response × Trace, ∀ (s : State) (p : Presented) (ps : List Presented),
    s.pending = p :: ps →
    step s = .next ⟨ps, s.answers ++ [⟨some p.host, (f p.req).1, (f p.req).2⟩]⟩

/-- Every state goes on: no step stops with a fault or a refusal. R16 says so where a request is presented; that nothing
else stops is the model's reading (notes/assumptions/9.md), and so is that an idle step goes on
(notes/assumptions/2.md). -/
def Obligations.EveryStepGoesOn : Prop := ∀ s : State, s.goesOn

/-- A run answers every pending request, once, in the order they were presented, each to its own host (R40). That one
instance serves all hosts, oldest request first, is the model's choice (notes/assumptions/8.md). -/
def Obligations.RunAnswersEveryRequestInOrder : Prop :=
  ∃ f : Request → Response × Trace, ∀ s : State,
    Host.Core.run Sys2Proof.core s.pending.length s =
      .next (State.mk [] (s.answers ++ s.pending.map fun p => ⟨some p.host, (f p.req).1, (f p.req).2⟩))

/-- No host can disturb another (R40): two states in which host `h` has the same requests pending and the same
answers delivered, whatever the other hosts have, give `h` the same answers once every request is answered. One
instance serving all hosts is the model's choice (notes/assumptions/8.md). -/
def Obligations.NoHostDisturbsAnother : Prop :=
  ∀ (h : HostId) (s s' t t' : State),
    s.pending.filter (fun p => p.host == h) = s'.pending.filter (fun p => p.host == h) →
    s.answersTo h = s'.answersTo h →
    Host.Core.run Sys2Proof.core s.pending.length s = .next t →
    Host.Core.run Sys2Proof.core s'.pending.length s' = .next t' →
    t.answersTo h = t'.answersTo h

/-- The order and the interleaving of a set of transactions do not matter to their outcomes (R39), for the one
instance the model has (notes/assumptions/8.md). -/
def Obligations.InterleavingIsNotVisible : Prop :=
  ∀ s s' t t' : State, s.pending.Perm s'.pending → s.answers.Perm s'.answers →
    Host.Core.run Sys2Proof.core s.pending.length s = .next t →
    Host.Core.run Sys2Proof.core s'.pending.length s' = .next t' →
    t.answers.Perm t'.answers

/-- Every step keeps the answers well formed: only responses and traces the block can produce are delivered (R62,
R63, R66, R84, R103, R112, R120, R140, R147, R154). That an answer names a host is the model's own
(notes/assumptions/1.md). -/
def Obligations.EveryStepKeepsAnswersWellFormed : Prop :=
  ∀ s t : State, s.safe = true → step s = .next t → t.safe = true

/-- The invariant holds right after reset. -/
def Obligations.ResetIsSafe : Prop := State.reset.safe = true

/-- Reset abandons what is pending, with no response and no trace, leaves what was delivered as it is, and cannot
change the outcome of a later transaction (R161). The two lists are the model's (notes/assumptions/1.md, 3.md). -/
def Obligations.ResetAbandonsPendingRequests : Prop :=
  ∀ (s : State) (h : HostId) (r : Request),
    s.applyReset.pending = [] ∧ s.applyReset.answers = s.answers ∧ step s.applyReset = .next s.applyReset ∧
    ∃ x : Answer, step (s.applyReset.present h r) = .next ⟨[], s.answers ++ [x]⟩ ∧
      step (State.reset.present h r) = .next ⟨[], [x]⟩

/-! ## ADD and SUB -/

/-- ADD completes with the wrapped sum, and `OVF` says exactly whether the signed sum does not fit (R105). -/
def Obligations.AddGivesTheWrappedSum : Prop :=
  ∀ (w : BitVec 6) (a b : Word) (s : State), OperandsFit w a b →
    ∃ (r : BitVec w.toNat) (ovf : Bool) (t : Trace),
      Delivers (.add w w w a b) s (.ok (.arith w.toNat r ovf)) t ∧
      r.toNat = (a.toNat + b.toNat) % 2 ^ w.toNat ∧
      r.toInt = (signedLow w.toNat a + signedLow w.toNat b).bmod (2 ^ w.toNat) ∧
      (ovf = true ↔ ¬ FitsSigned w.toNat (signedLow w.toNat a + signedLow w.toNat b))

/-- The trace of ADD and SUB: record `i` holds the bits of position `i` and the carries into and out of it, `c[i]`
being the carry out of the low `i` bits; SUB shows the bits of the negated operand (R103). -/
def Obligations.AddAndSubTraceTheCarryChain : Prop :=
  ∀ (w : BitVec 6) (a b : Word) (s : State), OperandsFit w a b →
    (∃ (r : BitVec w.toNat) (ovf : Bool),
      Delivers (.add w w w a b) s (.ok (.arith w.toNat r ovf))
        ((List.range w.toNat).map fun i =>
          .add i (a.getLsbD i) (b.getLsbD i) (decide (2 ^ i ≤ a.toNat % 2 ^ i + b.toNat % 2 ^ i)) (r.getLsbD i)
            (decide (2 ^ (i + 1) ≤ a.toNat % 2 ^ (i + 1) + b.toNat % 2 ^ (i + 1))))) ∧
    (∃ (r : BitVec w.toNat) (ovf : Bool) (nb : Nat),
      nb = (2 ^ w.toNat - b.toNat) % 2 ^ w.toNat ∧
      Delivers (.sub w w w a b) s (.ok (.arith w.toNat r ovf))
        ((List.range w.toNat).map fun i =>
          .add i (a.getLsbD i) (nb.testBit i) (decide (2 ^ i ≤ a.toNat % 2 ^ i + nb % 2 ^ i)) (r.getLsbD i)
            (decide (2 ^ (i + 1) ≤ a.toNat % 2 ^ (i + 1) + nb % 2 ^ (i + 1)))))

/-- The two forms of the overflow rule agree, at every width (R104). -/
def Obligations.OverflowFormsAgree : Prop :=
  ∀ (w : Nat) (x y : BitVec w), 1 ≤ w →
    ((x.getLsbD (w - 1) = y.getLsbD (w - 1) ∧ (rippleSum x y).getLsbD (w - 1) ≠ x.getLsbD (w - 1)) ↔
      carry x y w ≠ carry x y (w - 1))

/-- SUB completes with the wrapped difference, for every `b`, the most negative pattern and 0 among them (R108). -/
def Obligations.SubGivesTheWrappedDifference : Prop :=
  ∀ (w : BitVec 6) (a b : Word) (s : State), OperandsFit w a b →
    ∃ (r : BitVec w.toNat) (ovf : Bool) (t : Trace),
      Delivers (.sub w w w a b) s (.ok (.arith w.toNat r ovf)) t ∧
      (r.toNat : Int) = ((a.toNat : Int) - (b.toNat : Int)) % 2 ^ w.toNat

/-- The flag of SUB: whether the true difference does not fit, but for the most negative subtrahend, whose negation
is itself, where the flag is the sign of `a` (R107). -/
def Obligations.SubFlagMirrorsAddOnTheNegatedOperand : Prop :=
  ∀ (w : BitVec 6) (a b : Word) (s : State), OperandsFit w a b →
    neg (minPattern w.toNat) = minPattern w.toNat ∧
    ∃ (r : BitVec w.toNat) (ovf : Bool) (t : Trace),
      Delivers (.sub w w w a b) s (.ok (.arith w.toNat r ovf)) t ∧
      (b.toNat ≠ 2 ^ (w.toNat - 1) →
        (ovf = true ↔ ¬ FitsSigned w.toNat (signedLow w.toNat a - signedLow w.toNat b))) ∧
      (b.toNat = 2 ^ (w.toNat - 1) → ovf = a.getLsbD (w.toNat - 1))

/-- SUB is the addition of the negated operand, in result, flag and trace alike (R106). -/
def Obligations.SubIsAdditionOfTheNegatedOperand : Prop :=
  ∀ (w : BitVec 6) (a b : Word) (s : State), OperandsFit w a b →
    exec (.sub w w w a b) s =
      exec (.add w w w a (BitVec.ofNat 32 ((2 ^ w.toNat - b.toNat) % 2 ^ w.toNat))) s

/-- Two's-complement negation at every width (R109). -/
def Obligations.NegationInvertsAndAddsOne : Prop :=
  ∀ (w : Nat) (x : BitVec w), 1 ≤ w →
    (neg x).toNat = (2 ^ w - x.toNat) % 2 ^ w ∧ neg (0#w) = 0#w ∧ neg (minPattern w) = minPattern w ∧
    (x ≠ minPattern w → (neg x).toInt = -x.toInt)

/-! ## Failures of the arithmetic operations -/

/-- One request reports one failure, in the order `IllegalCommand`, `WidthMismatch`, `DivideByZero`; where none
applies, the operation succeeds (R151). -/
def Obligations.ArithmeticFailsInPriorityOrder : Prop :=
  ∀ (w alen blen : BitVec 6) (a b : Word) (s : State),
    if (wfWidth w && wfString alen a && wfString blen b) = false then
      Delivers (.add w alen blen a b) s (.fail .illegalCommand) [] ∧
      Delivers (.sub w alen blen a b) s (.fail .illegalCommand) [] ∧
      Delivers (.mul w alen blen a b) s (.fail .illegalCommand) [] ∧
      Delivers (.div w alen blen a b) s (.fail .illegalCommand) []
    else if alen ≠ w ∨ blen ≠ w then
      Delivers (.add w alen blen a b) s (.fail .widthMismatch) [] ∧
      Delivers (.sub w alen blen a b) s (.fail .widthMismatch) [] ∧
      Delivers (.mul w alen blen a b) s (.fail .widthMismatch) [] ∧
      Delivers (.div w alen blen a b) s (.fail .widthMismatch) []
    else
      (∃ r o t, Delivers (.add w alen blen a b) s (.ok (.arith w.toNat r o)) t) ∧
      (∃ r o t, Delivers (.sub w alen blen a b) s (.ok (.arith w.toNat r o)) t) ∧
      (∃ r o t, Delivers (.mul w alen blen a b) s (.ok (.arith w.toNat r o)) t) ∧
      if b = 0 then Delivers (.div w alen blen a b) s (.fail .divideByZero) []
      else ∃ r o t, Delivers (.div w alen blen a b) s (.ok (.arith w.toNat r o)) t

/-- An operation ends only in the failures of its row of the failure matrix (R156). `IllegalCommand` of TOB32 and
F32X arises in decoding, before anything is executed. -/
def Obligations.OperationsFailOnlyAsTheMatrixSays : Prop :=
  ∀ (i : Instr) (s : State) (f : Failure) (t : Trace), Delivers i s (.fail f) t →
    t = [] ∧
    match i.op with
    | .add | .sub | .mul => f = .illegalCommand ∨ f = .widthMismatch
    | .div => f = .illegalCommand ∨ f = .widthMismatch ∨ f = .divideByZero
    | .tobin => f = .illegalCommand ∨ f = .rangeError
    | .frombin => f = .illegalCommand ∨ f = .emptyInput
    | .tob32 => f = .domainError
    | .f32x => f = .unsupportedSpecialValue .subnormal ∨ f = .unsupportedSpecialValue .infinite ∨
        f = .unsupportedSpecialValue .nan

/-! ## MUL and DIV -/

/-- MUL completes with the wrapped product, the same pattern under both readings, and `OVF` says exactly whether the
signed product does not fit (R115). -/
def Obligations.MulGivesTheWrappedProduct : Prop :=
  ∀ (w : BitVec 6) (a b : Word) (s : State), OperandsFit w a b →
    ∃ (r : BitVec w.toNat) (ovf : Bool) (t : Trace),
      Delivers (.mul w w w a b) s (.ok (.arith w.toNat r ovf)) t ∧
      (r.toNat : Int) = (signedLow w.toNat a * signedLow w.toNat b) % 2 ^ w.toNat ∧
      r.toNat = (a.toNat * b.toNat) % 2 ^ w.toNat ∧
      (ovf = true ↔ ¬ FitsSigned w.toNat (signedLow w.toNat a * signedLow w.toNat b)) ∧
      (ovf = false → r.toInt = signedLow w.toNat a * signedLow w.toNat b)

/-- The trace of MUL: the partial product of each multiplier bit and the accumulator after it, of the magnitudes
(R114). -/
def Obligations.MulTracesPartialProducts : Prop :=
  ∀ (w : BitVec 6) (a b : Word) (s : State), OperandsFit w a b →
    ∃ (r : BitVec w.toNat) (ovf : Bool),
      Delivers (.mul w w w a b) s (.ok (.arith w.toNat r ovf))
        ((List.range w.toNat).map fun i =>
          .mul i ((magnitudeLow w.toNat b).testBit i)
            (BitVec.ofNat 64 (if (magnitudeLow w.toNat b).testBit i then magnitudeLow w.toNat a * 2 ^ i else 0))
            (BitVec.ofNat 64 (magnitudeLow w.toNat a * (magnitudeLow w.toNat b % 2 ^ (i + 1)))))

/-- DIV by a divisor that is not zero completes with the quotient truncated toward zero, wrapped; `OVF` says exactly
whether the quotient does not fit, which happens for `MIN / -1` alone, with the result `MIN` (R121). -/
def Obligations.DivTruncatesTowardZero : Prop :=
  ∀ (w : BitVec 6) (a b : Word) (s : State), OperandsFit w a b → b ≠ 0 →
    ∃ (r : BitVec w.toNat) (ovf : Bool) (t : Trace) (q : Int),
      Delivers (.div w w w a b) s (.ok (.arith w.toNat r ovf)) t ∧
      q = (signedLow w.toNat a).sign * (signedLow w.toNat b).sign *
        ((magnitudeLow w.toNat a / magnitudeLow w.toNat b : Nat) : Int) ∧
      (r.toNat : Int) = q % 2 ^ w.toNat ∧
      (ovf = true ↔ ¬ FitsSigned w.toNat q) ∧
      (ovf = true ↔ signedLow w.toNat a = -2 ^ (w.toNat - 1) ∧ signedLow w.toNat b = -1) ∧
      (ovf = true → r = minPattern w.toNat) ∧
      (ovf = false → r.toInt = q) ∧
      ∃ m : Nat, magnitudeLow w.toNat a = q.natAbs * magnitudeLow w.toNat b + m ∧ m < magnitudeLow w.toNat b

/-- The trace of DIV: quotient positions `w-1` down to 0, with the dividend bit brought down, the quotient bit and
the partial remainder, of the magnitudes; the last remainder is that of the magnitudes (R120). -/
def Obligations.DivTracesTheRestoringSteps : Prop :=
  ∀ (w : BitVec 6) (a b : Word) (s : State), OperandsFit w a b → b ≠ 0 →
    ∃ (r : BitVec w.toNat) (ovf : Bool),
      Delivers (.div w w w a b) s (.ok (.arith w.toNat r ovf))
        ((List.range w.toNat).map fun k =>
          .div (w.toNat - 1 - k) ((magnitudeLow w.toNat a).testBit (w.toNat - 1 - k))
            ((magnitudeLow w.toNat a / magnitudeLow w.toNat b).testBit (w.toNat - 1 - k))
            (BitVec.ofNat 32 (magnitudeLow w.toNat a / 2 ^ (w.toNat - 1 - k) % magnitudeLow w.toNat b)))

/-- Unsigned numbers of `w` bits divide as unsigned numbers when they are presented at width `w + 1` (R123). -/
def Obligations.LeadingZeroDividesUnsigned : Prop :=
  ∀ (w w' : BitVec 6) (a b : Word) (s : State),
    w'.toNat = w.toNat + 1 → w.toNat < 32 → a.toNat < 2 ^ w.toNat → b.toNat < 2 ^ w.toNat → b ≠ 0 →
    ∃ (r : BitVec w'.toNat) (t : Trace),
      Delivers (.div w' w' w' a b) s (.ok (.arith w'.toNat r false)) t ∧ r.toNat = a.toNat / b.toNat

/-- ADD and MUL are commutative in result and flag (R105, R115). -/
def Obligations.AddAndMulCommute : Prop :=
  ∀ (w : BitVec 6) (a b : Word) (s : State), OperandsFit w a b →
    (∃ r t t', Delivers (.add w w w a b) s r t ∧ Delivers (.add w w w b a) s r t') ∧
    (∃ r t t', Delivers (.mul w w w a b) s r t ∧ Delivers (.mul w w w b a) s r t')

/-! ## TOBIN and FROMBIN -/

/-- TOBIN, every outcome (R75): the width is 32 where `W` is 0; out of range it fails with `RangeError`; in range it
gives the two's-complement pattern of the integer part and the top four bits of the fraction. -/
def Obligations.TobinEncodesOrFailsOutOfRange : Prop :=
  ∀ (w : BitVec 6) (sgn : Bool) (fr : BitVec 8) (a : Word) (s : State),
    (32 < w.toNat → Delivers (.tobin w sgn fr a) s (.fail .illegalCommand) []) ∧
    ∀ n : Nat, w.toNat ≤ 32 → n = (if w.toNat = 0 then 32 else w.toNat) →
      if (sgn = false ∧ 2 ^ (n - 1) - 1 < a.toNat) ∨ (sgn = true ∧ 2 ^ (n - 1) < a.toNat) then
        Delivers (.tobin w sgn fr a) s (.fail .rangeError) []
      else
        Delivers (.tobin w sgn fr a) s
          (.ok (.binStr ⟨n, BitVec.ofInt n (if sgn then -(a.toNat : Int) else (a.toNat : Int)),
            BitVec.ofNat 4 (fr.toNat / 2 ^ 4)⟩)) []

/-- A TOBIN request with `W` = 0 is one of width 32 (R77). -/
def Obligations.TobinWidthDefaultsTo32 : Prop :=
  ∀ (sgn : Bool) (fr : BitVec 8) (a : Word) (s : State), exec (.tobin 0 sgn fr a) s = exec (.tobin 32 sgn fr a) s

/-- FROMBIN, every outcome (R78, R79): an empty integer portion fails; otherwise the top bit is the sign, the
magnitude is that of the two's-complement value, and the fraction is taken as a magnitude. -/
def Obligations.FrombinReadsTwosComplement : Prop :=
  ∀ (alen : BitVec 6) (frac : BitVec 4) (a : Word) (s : State),
    if wfString alen a = false then Delivers (.frombin alen frac a) s (.fail .illegalCommand) []
    else if alen = 0 then Delivers (.frombin alen frac a) s (.fail .emptyInput) []
    else
      Delivers (.frombin alen frac a) s
        (.ok (.numeral ⟨a.getLsbD (alen.toNat - 1), BitVec.ofNat 32 (magnitudeLow alen.toNat a),
          BitVec.ofNat 8 (2 ^ 4 * frac.toNat)⟩)) []

/-- Round trip from a string: for every BinaryString of 1 to 32 integer characters, TOBIN at its length of what
FROMBIN gives is the string again (R80). -/
def Obligations.StringRoundTrip : Prop :=
  ∀ (alen : BitVec 6) (frac : BitVec 4) (a : Word) (s s' : State),
    1 ≤ alen.toNat → alen.toNat ≤ 32 → a.toNat < 2 ^ alen.toNat →
    ∃ v : Numeral,
      Delivers (.frombin alen frac a) s (.ok (.numeral v)) [] ∧
      Delivers (.tobin alen v.sgn v.fmag v.imag) s'
        (.ok (.binStr ⟨alen.toNat, a.setWidth alen.toNat, frac⟩)) []

/-- Round trip from a Numeral: FROMBIN of what TOBIN at width `w` gives is the Numeral again, component by component,
exactly when its integer part fits `w`, its fraction has no bits beyond the budget, and it is not negative with a
zero integer part; a Numeral that does not fit gives `RangeError`, and one that fits comes back with the fraction
bits beyond the budget cleared and without the sign of a zero integer part (R81). -/
def Obligations.NumeralRoundTripExactlyWhenRepresentable : Prop :=
  ∀ (w : BitVec 6) (v : Numeral) (s s' : State) (fits : Prop), 1 ≤ w.toNat → w.toNat ≤ 32 →
    (fits ↔ if v.sgn then v.imag.toNat ≤ 2 ^ (w.toNat - 1) else v.imag.toNat ≤ 2 ^ (w.toNat - 1) - 1) →
    ((∃ x : BinStr, x.len = w.toNat ∧
        Delivers (.tobin w v.sgn v.fmag v.imag) s (.ok (.binStr x)) [] ∧
        Delivers (.frombin w x.frac (x.bits.setWidth 32)) s' (.ok (.numeral v)) []) ↔
      fits ∧ v.fmag.toNat % 2 ^ 4 = 0 ∧ ¬ (v.sgn = true ∧ v.imag = 0)) ∧
    (¬ fits → Delivers (.tobin w v.sgn v.fmag v.imag) s (.fail .rangeError) []) ∧
    (fits → ∃ x : BinStr, x.len = w.toNat ∧
        Delivers (.tobin w v.sgn v.fmag v.imag) s (.ok (.binStr x)) [] ∧
        Delivers (.frombin w x.frac (x.bits.setWidth 32)) s'
          (.ok (.numeral ⟨v.sgn && v.imag != 0, v.imag, BitVec.ofNat 8 (v.fmag.toNat / 2 ^ 4 * 2 ^ 4)⟩)) [])

/-! ## TOB32 -/

/-- TOB32, every outcome (R94, R95, R96): a negative Numeral fails; otherwise the integer symbols are the base-32
digits of the magnitude, with no leading zero symbol but for the value 0, and one fractional symbol. -/
def Obligations.Tob32GivesTheBase32Digits : Prop :=
  ∀ (sgn : Bool) (fr : BitVec 8) (a : Word) (s : State),
    if sgn = true ∧ (a ≠ 0 ∨ fr ≠ 0) then Delivers (.tob32 sgn fr a) s (.fail .domainError) []
    else
      ∃ nd : Nat, 1 ≤ nd ∧ nd ≤ 7 ∧ a.toNat < 32 ^ nd ∧ (nd = 1 ∨ 32 ^ (nd - 1) ≤ a.toNat) ∧
        Delivers (.tob32 sgn fr a) s
          (.ok (.b32 ((List.range nd).map fun k => BitVec.ofNat 5 (a.toNat / 32 ^ k))
            [BitVec.ofNat 5 (fr.toNat / 2 ^ 3)])) []

/-- The symbols stand for the value (R99): the integer symbols exactly, the fractional symbol by truncation. -/
def Obligations.Base32SymbolsStandForTheValue : Prop :=
  ∀ (sgn : Bool) (fr : BitVec 8) (a : Word) (s : State) (digits fraction : List (BitVec 5)) (t : Trace),
    Delivers (.tob32 sgn fr a) s (.ok (.b32 digits fraction)) t →
    (digits.zipIdx.map fun x => x.1.toNat * 32 ^ x.2).sum = a.toNat ∧
    ∃ fd : BitVec 5, fraction = [fd] ∧ 256 * fd.toNat ≤ 32 * fr.toNat ∧ 32 * fr.toNat < 256 * (fd.toNat + 1)

/-- In the record of a TOB32 success `R0` is the magnitude, `R1` is 0, `RLEN` is the number of symbols and `RFR[4:0]` is
the fractional symbol (R64). -/
def Obligations.Base32RecordHoldsTheMagnitude : Prop :=
  ∀ (sgn : Bool) (fr : BitVec 8) (a : Word) (s : State) (digits fraction : List (BitVec 5)) (t : Trace)
    (h : Option HostId) (r : RspRecord),
    Delivers (.tob32 sgn fr a) s (.ok (.b32 digits fraction)) t →
    r = Answer.record ⟨h, .ok (.b32 digits fraction), t⟩ →
    r.r0 = a ∧ r.r1 = 0 ∧ (r.s.extractLsb' 6 6).toNat = digits.length ∧ [r.s.extractLsb' 12 5] = fraction

/-! ## F32X -/

/-- F32X, every outcome, by the exponent field `e` and the fraction `f` of the operand (R86, R87, R88, R89). -/
def Obligations.F32xExtractsOrClassifies : Prop :=
  ∀ (b a : Word) (s : State) (e f : Nat),
    e = b.toNat / 2 ^ 20 % 2 ^ 11 → f = b.toNat % 2 ^ 20 * 2 ^ 32 + a.toNat →
    if e = 2047 then
      Delivers (.f32x b a) s (.fail (.unsupportedSpecialValue (if f = 0 then .infinite else .nan))) []
    else if e = 0 then
      (if f = 0 then Delivers (.f32x b a) s (.ok (.f754 .zero ⟨b.getLsbD 31, 0, 0⟩)) []
       else Delivers (.f32x b a) s (.fail (.unsupportedSpecialValue .subnormal)) [])
    else if 1151 ≤ e then Delivers (.f32x b a) s (.fail (.unsupportedSpecialValue .infinite)) []
    else if e ≤ 896 then Delivers (.f32x b a) s (.fail (.unsupportedSpecialValue .subnormal)) []
    else
      Delivers (.f32x b a) s
        (.ok (.f754 .normal ⟨b.getLsbD 31, BitVec.ofNat 8 (e - 896), BitVec.ofNat 23 (f / 2 ^ 29)⟩)) []

/-- The value of the fields of a normal result is at most that of the operand in magnitude and less than one unit in
the last place below it, with the operand's sign; it is the operand's where no dropped bit is set (R90). -/
def Obligations.F32xTruncatesByLessThanOneUnit : Prop :=
  ∀ (b a : Word) (s : State) (g : Fields754) (t : Trace) (v v' : ℚ),
    Delivers (.f32x b a) s (.ok (.f754 .normal g)) t →
    v = (1 + ((b.toNat % 2 ^ 20 * 2 ^ 32 + a.toNat : Nat) : ℚ) / 2 ^ 52) *
      2 ^ (((b.toNat / 2 ^ 20 % 2 ^ 11 : Nat) : ℤ) - 1023) →
    v' = (1 + (g.mantissa.toNat : ℚ) / 2 ^ 23) * 2 ^ ((g.exponent.toNat : ℤ) - 127) →
    g.sign = b.getLsbD 31 ∧ v' ≤ v ∧ v - v' < 2 ^ ((((b.toNat / 2 ^ 20 % 2 ^ 11 : Nat) : ℤ) - 1023) - 23) ∧
    (a.toNat % 2 ^ 29 = 0 → v' = v)

/-- The binary64 word the host makes of a Numeral that is not zero is exact and of class `NORMAL` (R91). The
conversion is the model's reading of the host's duty (notes/assumptions/12.md). -/
def Obligations.NumeralsConvertExactlyAndAreNormal : Prop :=
  ∀ (v : Numeral) (s : State) (x : BitVec 64), x = binary64OfNumeral v → (v.imag ≠ 0 ∨ v.fmag ≠ 0) →
    (1 + ((x.toNat % 2 ^ 52 : Nat) : ℚ) / 2 ^ 52) * 2 ^ (((x.toNat / 2 ^ 52 % 2 ^ 11 : Nat) : ℤ) - 1023) =
      (v.imag.toNat : ℚ) + (v.fmag.toNat : ℚ) / 256 ∧
    ∃ g : Fields754,
      Delivers (.f32x (x.extractLsb' 32 32) (x.setWidth 32)) s (.ok (.f754 .normal g)) [] ∧ g.sign = v.sgn

/-! ## Records -/

/-- The records of the failures, every code of R140's table, with the class field of `UnsupportedSpecialValue` (R84,
R147). Codes 2 and 3 are the host's and never the block's (R154). -/
def Obligations.FailureCodesAreTheTables : Prop :=
  ∀ h : Option HostId,
    Answer.record ⟨h, .fail .emptyInput, []⟩ = ⟨1, 0, 0⟩ ∧
    Answer.record ⟨h, .fail .invalidDigit, []⟩ = ⟨2, 0, 0⟩ ∧
    Answer.record ⟨h, .fail .invalidPrefix, []⟩ = ⟨3, 0, 0⟩ ∧
    Answer.record ⟨h, .fail .rangeError, []⟩ = ⟨4, 0, 0⟩ ∧
    Answer.record ⟨h, .fail .widthMismatch, []⟩ = ⟨5, 0, 0⟩ ∧
    Answer.record ⟨h, .fail .domainError, []⟩ = ⟨6, 0, 0⟩ ∧
    Answer.record ⟨h, .fail .divideByZero, []⟩ = ⟨7, 0, 0⟩ ∧
    Answer.record ⟨h, .fail (.unsupportedSpecialValue .subnormal), []⟩ = ⟨0x00200008, 0, 0⟩ ∧
    Answer.record ⟨h, .fail (.unsupportedSpecialValue .infinite), []⟩ = ⟨0x00300008, 0, 0⟩ ∧
    Answer.record ⟨h, .fail (.unsupportedSpecialValue .nan), []⟩ = ⟨0x00400008, 0, 0⟩ ∧
    Answer.record ⟨h, .fail .illegalCommand, []⟩ = ⟨15, 0, 0⟩

/-- The number of trace records is in `NREC`, the bits above it are 0, and it is the width for a successful ADD, SUB,
MUL or DIV and 0 for everything else (R66). -/
def Obligations.RecordCountsTheTrace : Prop :=
  ∀ (i : Instr) (s : State) (r : Response) (t : Trace) (h : Option HostId), Delivers i s r t →
    (Answer.record ⟨h, r, t⟩).s.toNat / 2 ^ 23 = t.length ∧
    match r with
    | .ok (.arith w _ _) => t.length = w ∧ ((Answer.record ⟨h, r, t⟩).s.extractLsb' 6 6).toNat = w
    | _ => t = []

/-- Overflow is not a failure: a response with `OVF` set has `STATUS` 0, a full result and a full trace (R152). -/
def Obligations.OverflowIsNotAFailure : Prop :=
  ∀ (i : Instr) (s : State) (r : Response) (t : Trace) (h : Option HostId), Delivers i s r t →
    (Answer.record ⟨h, r, t⟩).s.getLsbD 4 = true →
    (Answer.record ⟨h, r, t⟩).s.extractLsb' 0 4 = 0 ∧
    ∃ (w : Nat) (x : BitVec w), r = .ok (.arith w x true) ∧ t.length = w ∧
      (Answer.record ⟨h, r, t⟩).r0.toNat = x.toNat

/-- A response record holds the fields of each success where R61, R63 and R64 put them (flag, sign, length, fraction,
class, count, `R1` and `R0`), and a failure has none of them (R62); the record gives back the abstract response, once
the operation that was asked for is known (R65; that the operation must be known is the model's reading,
notes/assumptions/7.md). -/
def Obligations.ResponseRecordLosesNothing : Prop :=
  ∀ (i : Instr) (s : State) (r : Response) (t : Trace) (h : Option HostId) (c : RspRecord), Delivers i s r t →
    c = Answer.record ⟨h, r, t⟩ →
    c.response? i.op = some r ∧
    match r with
    | .ok (.arith w x ovf) =>
      c = ⟨BitVec.ofNat 32 (2 ^ 4 * ovf.toNat + 2 ^ 6 * w + 2 ^ 23 * w), 0, BitVec.ofNat 32 x.toNat⟩
    | .ok (.binStr x) =>
      c = ⟨BitVec.ofNat 32 (2 ^ 6 * x.len + 2 ^ 12 * (2 ^ 4 * x.frac.toNat)), 0, BitVec.ofNat 32 x.bits.toNat⟩
    | .ok (.numeral v) => c = ⟨BitVec.ofNat 32 (2 ^ 5 * v.sgn.toNat + 2 ^ 12 * v.fmag.toNat), 0, v.imag⟩
    | .ok (.b32 digits fraction) =>
      ∃ (fd : BitVec 5) (p : Nat), fraction = [fd] ∧ p = (digits.zipIdx.map fun x => x.1.toNat * 32 ^ x.2).sum ∧
        c = ⟨BitVec.ofNat 32 (2 ^ 6 * digits.length + 2 ^ 12 * fd.toNat), BitVec.ofNat 32 (p / 2 ^ 32),
          BitVec.ofNat 32 p⟩
    | .ok (.f754 cls g) =>
      (cls = .zero ∨ cls = .normal) ∧
      c = ⟨BitVec.ofNat 32 (2 ^ 5 * g.sign.toNat + 2 ^ 20 * (if cls = .zero then 0 else 1)), 0,
        BitVec.ofNat 32 (g.mantissa.toNat + 2 ^ 23 * g.exponent.toNat + 2 ^ 31 * g.sign.toNat)⟩
    | .fail _ => c.s.toNat % 16 ≠ 0 ∧ c.s.toNat / 16 % 2 ^ 16 = 0 ∧ c.s.toNat / 2 ^ 23 = 0 ∧ c.r1 = 0 ∧ c.r0 = 0

/-- The words of each kind of trace record, field by field (R67, R68): ADD and SUB produce `KIND` 0, MUL 1 and DIV 2,
and no other operation any; the words give back the record. -/
def Obligations.TraceRecordsLoseNothing : Prop :=
  ∀ (i : Instr) (s : State) (r : Response) (t : Trace), Delivers i s r t →
    ∀ x ∈ t, x.words.record? = some x ∧
      match i.op, x with
      | .add, .add pos ai bi cin sum cout | .sub, .add pos ai bi cin sum cout =>
        pos < t.length ∧
        x.words = ⟨BitVec.ofNat 32 (0 + 2 ^ 2 * pos + 2 ^ 8 * ai.toNat + 2 ^ 9 * bi.toNat + 2 ^ 10 * cin.toNat +
          2 ^ 11 * sum.toNat + 2 ^ 12 * cout.toNat), 0, 0, 0, 0⟩
      | .mul, .mul pos mbit pp acc =>
        pos < t.length ∧ pp.toNat < 2 ^ (2 * t.length) ∧ acc.toNat < 2 ^ (2 * t.length) ∧
        x.words = ⟨BitVec.ofNat 32 (1 + 2 ^ 2 * pos + 2 ^ 8 * mbit.toNat), BitVec.ofNat 32 pp.toNat,
          BitVec.ofNat 32 (pp.toNat / 2 ^ 32), BitVec.ofNat 32 acc.toNat, BitVec.ofNat 32 (acc.toNat / 2 ^ 32)⟩
      | .div, .div pos dbit qbit rem =>
        pos < t.length ∧ rem.toNat < 2 ^ t.length ∧
        x.words = ⟨BitVec.ofNat 32 (2 + 2 ^ 2 * pos + 2 ^ 8 * dbit.toNat + 2 ^ 9 * qbit.toNat), rem, 0, 0, 0⟩
      | _, _ => False

/-! ## The host's text layer -/

/-- A BinaryString written as text and read back is the same BinaryString, however many trailing zeros of its fraction
the host writes (R131, R132; that no `1` is left out is the model's reading, notes/assumptions/17.md). -/
def Obligations.BinaryStringTextRoundTrip : Prop :=
  ∀ (x : BinStr) (atLeast : Nat), x.len ≤ 32 →
    ∃ y : BinStr, binStrOfText (textOfBinStr atLeast x) = .ok y ∧
      y.len = x.len ∧ y.bits.toNat = x.bits.toNat ∧ y.frac = x.frac

/-- A text of decimal digits, with a `.` and fractional digits after it or without, parses at radix 10 to the number its
digits stand for: the integer digits, and the fractional digits over the power of ten they count (R126, R128, R129).
That a `.` with no digits after it is accepted, and counts 0, is the model's choice (notes/assumptions/11.md); no other
open point of the Parser bears on such a text. -/
def Obligations.DecimalTextParsesToItsValue : Prop :=
  ∀ (ipart fpart : List (Char × Nat)) (tail : List Char),
    (∀ d ∈ ipart ++ fpart, DigitOf d.1 d.2 ∧ d.2 < 10) → ipart ≠ [] →
    (tail = '.' :: fpart.map Prod.fst ∨ tail = [] ∧ fpart = []) →
    parse (ipart.map Prod.fst ++ tail) 10 =
      .ok ⟨false, positional 10 (ipart.map Prod.snd), positional 10 (fpart.map Prod.snd), 10 ^ fpart.length⟩

/-- Grouping puts one space between groups of `n` characters, counted from the right end of the integer portion, where
only the first group may be shorter, and from the left end of the fractional portion, where only the last may be;
nothing else is added, removed or moved (R133). Grouping again what is left without the spaces changes nothing (R134). -/
def Obligations.GroupingIsIdempotent : Prop :=
  (∀ (text : List Char) (n : Nat), ' ' ∉ text →
    digitsOnly (group text n) = text ∧ group (digitsOnly (group text n)) n = group text n) ∧
  ∀ (ipart fpart : List Char) (n : Nat), '.' ∉ ipart → 1 ≤ n →
    ∃ gs hs : List (List Char), gs.flatten = ipart ∧ hs.flatten = fpart ∧
      (∀ g ∈ gs ++ hs, 1 ≤ g.length ∧ g.length ≤ n) ∧ (∀ g ∈ gs.tail ++ hs.dropLast, g.length = n) ∧
      group ipart n = List.intercalate [' '] gs ∧
      group (ipart ++ '.' :: fpart) n = List.intercalate [' '] gs ++ '.' :: List.intercalate [' '] hs

/-- Widening by copies of the sign bit keeps the value; widening by zeros gives the unsigned value, which is the same
only where the sign bit is 0 (R168). -/
def Obligations.ZeroPaddingChangesNegativePatterns : Prop :=
  ∀ (w n : Nat) (x : BitVec w), 1 ≤ w → w < n →
    (signPad n x).toInt = x.toInt ∧ (zeroPad n x).toInt = (x.toNat : Int) ∧
    ((zeroPad n x).toInt = x.toInt ↔ x.msb = false)

/-- A text of digits of radix 2, 8 or 16, with the radix's own lower-case prefix or none, and with a `.` and fractional
digits or without, parses to the number its digits stand for, letters in either case (R126, R127, R128, R129). Not for
a text at radix 16 that has no prefix and begins with `0b` or `0B`: how that is read is open (N14,
notes/assumptions/11.md). That a `.` with no digits after it is accepted, and counts 0, is the model's choice (the same
log entry). -/
def Obligations.DigitTextParsesToItsValue : Prop :=
  ∀ (radix : Nat) (start : List Char) (ipart fpart : List (Char × Nat)) (tail : List Char),
    (∀ d ∈ ipart ++ fpart, DigitOf d.1 d.2 ∧ d.2 < radix) → ipart ≠ [] →
    (tail = '.' :: fpart.map Prod.fst ∨ tail = [] ∧ fpart = []) →
    ((radix = 2 ∧ start = ['0', 'b']) ∨ (radix = 8 ∧ start = ['0', 'o']) ∨ (radix = 16 ∧ start = ['0', 'x']) ∨
      ((radix = 2 ∨ radix = 8) ∧ start = []) ∨
      (radix = 16 ∧ start = [] ∧ ¬ (ipart.map Prod.snd).take 2 = [0, 11])) →
    parse (start ++ ipart.map Prod.fst ++ tail) radix =
      .ok ⟨false, positional radix (ipart.map Prod.snd), positional radix (fpart.map Prod.snd), radix ^ fpart.length⟩

/-- The failures of the Parser, each where it alone applies: a blank text (R129), a prefix of another radix before
digits of the declared one (R127), and a character outside the radix's alphabet (R128). That a blank is a space is the
model's choice (notes/assumptions/11.md); at radix 16 the prefix `0b` is left out, since its reading is open (N14). -/
def Obligations.ParserFailsAsItsRulesSay : Prop :=
  ∀ radix : Nat, radix = 2 ∨ radix = 8 ∨ radix = 10 ∨ radix = 16 →
    (∀ k : Nat, parse (List.replicate k ' ') radix = .error .emptyInput) ∧
    (∀ (letter : Char) (other : Nat) (ds : List (Char × Nat)),
      (letter = 'b' ∧ other = 2 ∧ radix ≠ 16) ∨ (letter = 'o' ∧ other = 8) ∨ (letter = 'x' ∧ other = 16) →
      other ≠ radix → ds ≠ [] → (∀ d ∈ ds, DigitOf d.1 d.2 ∧ d.2 < radix) →
      parse ('0' :: letter :: ds.map Prod.fst) radix = .error .invalidPrefix) ∧
    (∀ (c : Char) (v : Nat) (body : List Char), DigitOf c v → 1 ≤ v → v < radix → ' ' ∉ body → '.' ∉ body →
      (∃ x ∈ body, ∀ u : Nat, DigitOf x u → radix ≤ u) →
      parse (c :: body) radix = .error .invalidDigit ∧
      (radix = 2 → parse ('0' :: 'b' :: c :: body) radix = .error .invalidDigit) ∧
      (radix = 8 → parse ('0' :: 'o' :: c :: body) radix = .error .invalidDigit) ∧
      (radix = 16 → parse ('0' :: 'x' :: c :: body) radix = .error .invalidDigit))
end

