-- ==== Sys2Proof/Laws/Bits.lean ====
section
/-! SUPPORT. What the pattern operations of Machine/Operands.lean compute. -/

namespace Sys2Proof.Machine

open Sys2Proof

/-- Bit `i` of a built pattern. -/
theorem getLsbD_ofBits (f : Nat → Bool) (n i : Nat) : (ofBits f n).getLsbD i = (decide (i < n) && f i) := by
  induction n with
  | zero => simp [ofBits]
  | succ n ih =>
    rw [ofBits, BitVec.getLsbD_cons, ih]
    by_cases h : i = n
    · subst h; simp
    · by_cases h' : i < n
      · simp [h, h', Nat.lt_succ_of_lt h']
      · have : ¬ i < n + 1 := by omega
        simp [h, h', this]

/-- `neg_w` is negation modulo `2^w` (R109). -/
theorem neg_eq {w : Nat} (x : BitVec w) : neg x = -x := by
  rw [neg, BitVec.neg_eq_not_add]

/-- `mag_w` is the absolute value of the two's-complement value (R111). -/
theorem toNat_mag {w : Nat} (x : BitVec w) : (mag x).toNat = x.toInt.natAbs := by
  rw [mag, BitVec.toNat_ofNat, BitVec.toInt_eq_msb_cond]
  have hx := x.isLt
  by_cases h : x.msb
  · have h2 : 2 ^ w ≤ 2 * x.toNat := by
      have := BitVec.msb_eq_true_iff_two_mul_ge (x := x) |>.1 h
      exact this
    simp only [h, if_true]
    have hpos : 0 < x.toNat := by
      have : 0 < 2 ^ w := Nat.two_pow_pos w
      omega
    rw [Nat.mod_eq_of_lt (by omega)]
    omega
  · simp only [h]
    simp

/-- The most negative pattern. -/
theorem toNat_minPattern (w : Nat) (hw : 0 < w) : (minPattern w).toNat = 2 ^ (w - 1) := by
  apply Nat.eq_of_testBit_eq
  intro i
  have : (minPattern w).toNat.testBit i = (minPattern w).getLsbD i := rfl
  rw [this, minPattern, getLsbD_ofBits, Nat.testBit_two_pow]
  by_cases h : w - 1 = i
  · subst h
    have : w - 1 < w := by omega
    have h2 : w - 1 + 1 = w := by omega
    simp [this, h2]
  · have : ¬ (i + 1 = w) := by omega
    simp [h, this]

/-- The pattern of ones is the pattern of all ones of the library. -/
theorem onesPattern_eq (w : Nat) : onesPattern w = BitVec.allOnes w := by
  apply BitVec.eq_of_getLsbD_eq
  intro i hi
  rw [onesPattern, getLsbD_ofBits]
  simp [hi]

/-- A magnitude fits `w` bits with room for its double (R111). -/
theorem toNat_mag_le {w : Nat} (x : BitVec w) (hw : 0 < w) : 2 * (mag x).toNat ≤ 2 ^ w := by
  have h := toNat_mag x
  have h1 := BitVec.toInt_lt (x := x)
  have h2 := BitVec.le_toInt (x := x)
  obtain ⟨n, rfl⟩ : ∃ n, w = n + 1 := ⟨w - 1, by omega⟩
  rw [Nat.add_sub_cancel] at h1 h2
  have h3 : ((2 ^ n : Nat) : Int) = 2 ^ n := by push_cast; rfl
  rw [← h3] at h1 h2
  rw [Nat.pow_succ]
  omega

end Sys2Proof.Machine
end

