-- ==== Sys2Proof/Laws/AddSub.lean ====
section
/-! SUPPORT. What ripple-carry addition computes (spec/44_addsub.md). -/

namespace Sys2Proof.Machine

open Sys2Proof

/-- The carry of R101 is the library's carry bit. -/
theorem carry_eq {w : Nat} (x y : BitVec w) (i : Nat) : carry x y i = BitVec.carry i x y false := by
  induction i with
  | zero => simp [carry, BitVec.carry_zero]
  | succ i ih =>
    rw [BitVec.carry_succ, carry, ih]

/-- Ripple-carry addition adds (R101, R105). -/
theorem rippleSum_eq_add {w : Nat} (x y : BitVec w) : rippleSum x y = x + y := by
  apply BitVec.eq_of_getLsbD_eq
  intro i hi
  rw [rippleSum, getLsbD_ofBits, BitVec.getLsbD_add hi, sumBit, carry_eq]
  simp [hi]

end Sys2Proof.Machine
end

