-- ==== Sys2Proof/Laws/Config.lean ====
section
/-! SUPPORT. The parameters at their values (spec/00_scope.md R5), as numerals, for arithmetic. -/

namespace Sys2Proof

@[simp] theorem wMax_eq : Config.wMax = 32 := rfl
@[simp] theorem defaultW_eq : Config.defaultW = 32 := rfl
@[simp] theorem fb_eq : Config.fb = 4 := rfl
@[simp] theorem fracW_eq : Config.fracW = 8 := rfl
@[simp] theorem b32Fd_eq : Config.b32Fd = 1 := rfl
@[simp] theorem b32Nd_eq : Config.b32Nd = 7 := rfl

end Sys2Proof
end

