-- ==== Sys2Proof/Laws/Decode.lean ====
section
/-! SUPPORT. The fields of an encoded request, and the agreement of the two statements of well-formedness. -/

namespace Sys2Proof

/-- Bit `i` of a placed field. -/
theorem getLsbD_place {n : Nat} (x : BitVec n) (lo i : Nat) (hi : i < 32) :
    (place x lo).getLsbD i = (decide (lo ≤ i) && x.getLsbD (i - lo)) := by
  by_cases h : i < lo
  · have : ¬ lo ≤ i := by omega
    simp [place, h, hi, this]
  · have h1 : lo ≤ i := by omega
    simp [place, h, hi, h1]

/-- Bit `i` of `CTL` (R46). -/
theorem getLsbD_ctlWord (op : BitVec 4) (w alen blen : BitVec 6) (sgn : Bool) (fr : BitVec 8) (i : Nat)
    (hi : i < 32) :
    (ctlWord op w alen blen sgn fr).getLsbD i =
      if i < 4 then op.getLsbD i else if i < 10 then w.getLsbD (i - 4) else if i < 16 then alen.getLsbD (i - 10)
      else if i < 22 then blen.getLsbD (i - 16) else if i < 23 then sgn else fr.getLsbD (i - 23) := by
  simp only [ctlWord, BitVec.getLsbD_or, getLsbD_place _ _ _ hi]
  interval_cases i <;> simp

section Fields

variable (op : BitVec 4) (w alen blen : BitVec 6) (sgn : Bool) (fr : BitVec 8) (b a : Word)

@[simp] theorem ctlWord_op : (Request.mk (ctlWord op w alen blen sgn fr) b a).op = op := by
  apply BitVec.eq_of_getLsbD_eq
  intro i hi
  simp only [Request.op, BitVec.getLsbD_extractLsb', hi, decide_true, Bool.true_and]
  rw [getLsbD_ctlWord _ _ _ _ _ _ _ (by omega)]
  interval_cases i <;> rfl

@[simp] theorem ctlWord_w : (Request.mk (ctlWord op w alen blen sgn fr) b a).w = w := by
  apply BitVec.eq_of_getLsbD_eq
  intro i hi
  simp only [Request.w, BitVec.getLsbD_extractLsb', hi, decide_true, Bool.true_and]
  rw [getLsbD_ctlWord _ _ _ _ _ _ _ (by omega)]
  interval_cases i <;> rfl

@[simp] theorem ctlWord_alen : (Request.mk (ctlWord op w alen blen sgn fr) b a).alen = alen := by
  apply BitVec.eq_of_getLsbD_eq
  intro i hi
  simp only [Request.alen, BitVec.getLsbD_extractLsb', hi, decide_true, Bool.true_and]
  rw [getLsbD_ctlWord _ _ _ _ _ _ _ (by omega)]
  interval_cases i <;> rfl

@[simp] theorem ctlWord_blen : (Request.mk (ctlWord op w alen blen sgn fr) b a).blen = blen := by
  apply BitVec.eq_of_getLsbD_eq
  intro i hi
  simp only [Request.blen, BitVec.getLsbD_extractLsb', hi, decide_true, Bool.true_and]
  rw [getLsbD_ctlWord _ _ _ _ _ _ _ (by omega)]
  interval_cases i <;> rfl

@[simp] theorem ctlWord_sgn : (Request.mk (ctlWord op w alen blen sgn fr) b a).sgn = sgn := by
  simp only [Request.sgn]
  rw [getLsbD_ctlWord _ _ _ _ _ _ _ (by omega)]
  rfl

@[simp] theorem ctlWord_fr : (Request.mk (ctlWord op w alen blen sgn fr) b a).fr = fr := by
  apply BitVec.eq_of_getLsbD_eq
  intro i hi
  simp only [Request.fr, BitVec.getLsbD_extractLsb', hi, decide_true, Bool.true_and]
  rw [getLsbD_ctlWord _ _ _ _ _ _ _ (by omega)]
  interval_cases i <;> rfl

@[simp] theorem ctlWord_reserved : (Request.mk (ctlWord op w alen blen sgn fr) b a).reserved = false := by
  simp only [Request.reserved]
  rw [getLsbD_ctlWord _ _ _ _ _ _ _ (by omega)]
  simp

end Fields

/-- The shift of R49 is zero exactly when no bit lies at or above the length. -/
theorem ushiftRight_eq_zero_iff (a : Word) (n : Nat) : a >>> n = 0 ↔ a.toNat < 2 ^ n := by
  rw [← BitVec.toNat_inj, BitVec.toNat_ushiftRight, Nat.shiftRight_eq_div_pow]
  show a.toNat / 2 ^ n = 0 ↔ _
  rw [Nat.div_eq_zero_iff]
  have := Nat.two_pow_pos n
  omega

/-- The checks on an arithmetic request pass exactly when its fields are well formed (R48, R49). -/
theorem arithIllegal?_eq_none (w alen blen : BitVec 6) (a b : Word) :
    arithIllegal? w alen blen a b = none ↔ (wfWidth w && wfString alen a && wfString blen b) = true := by
  simp only [arithIllegal?, wfWidth, wfString, wMax_eq, Bool.and_eq_true, decide_eq_true_eq]
  rw [← ushiftRight_eq_zero_iff, ← ushiftRight_eq_zero_iff]
  by_cases h1 : w.toNat = 0 ∨ 32 < w.toNat
  · rw [if_pos h1]
    simp only [reduceCtorEq, false_iff]
    omega
  rw [if_neg h1]
  by_cases h2 : 32 < alen.toNat ∨ 32 < blen.toNat
  · rw [if_pos h2]
    simp only [reduceCtorEq, false_iff]
    omega
  rw [if_neg h2]
  by_cases h3 : a >>> alen.toNat ≠ 0 ∨ b >>> blen.toNat ≠ 0
  · rw [if_pos h3]
    simp only [reduceCtorEq, false_iff]
    tauto
  · rw [if_neg h3]
    simp only [true_iff]
    refine ⟨⟨⟨?_, ?_⟩, ?_, ?_⟩, ?_, ?_⟩ <;> first | omega | tauto

/-- The checks on a FROMBIN request pass exactly when its fields are well formed (R49). -/
theorem frombinIllegal?_eq_none (alen : BitVec 6) (a : Word) :
    frombinIllegal? alen a = none ↔ wfString alen a = true := by
  simp only [frombinIllegal?, wfString, wMax_eq, Bool.and_eq_true, decide_eq_true_eq]
  rw [← ushiftRight_eq_zero_iff]
  by_cases h2 : 32 < alen.toNat
  · rw [if_pos h2]
    simp only [reduceCtorEq, false_iff]
    omega
  rw [if_neg h2]
  by_cases h3 : a >>> alen.toNat ≠ 0
  · rw [if_pos h3]
    simp only [reduceCtorEq, false_iff]
    tauto
  · rw [if_neg h3]
    simp only [true_iff]
    exact ⟨by omega, by tauto⟩

/-- The check on a TOBIN request passes exactly when its width is well formed (R48). -/
theorem tobinIllegal?_eq_none (w : BitVec 6) : tobinIllegal? w = none ↔ w.toNat ≤ 32 := by
  rw [tobinIllegal?, wMax_eq]
  split
  · simp only [reduceCtorEq, false_iff]
    omega
  · simp only [true_iff]
    omega

/-- Decode.lean's checks and WellFormed.lean's bounds say the same (R48, R49). -/
theorem illegal?_eq_none_iff_wellFormed (i : Instr) : i.illegal? = none ↔ i.wellFormed = true := by
  cases i with
  | add w alen blen a b => exact arithIllegal?_eq_none w alen blen a b
  | sub w alen blen a b => exact arithIllegal?_eq_none w alen blen a b
  | mul w alen blen a b => exact arithIllegal?_eq_none w alen blen a b
  | div w alen blen a b => exact arithIllegal?_eq_none w alen blen a b
  | tobin w sgn fr a =>
    show tobinIllegal? w = none ↔ decide (w.toNat ≤ 32) = true
    rw [tobinIllegal?_eq_none, decide_eq_true_eq]
  | frombin alen frac a => exact frombinIllegal?_eq_none alen a
  | tob32 sgn fr a => simp [Instr.illegal?, Instr.wellFormed]
  | f32x b a => simp [Instr.illegal?, Instr.wellFormed]

end Sys2Proof
end

