-- ==== Sys2Proof/Laws/Convert.lean ====
section
/-! SUPPORT. What the shared operations of the conversions and of the records compute (spec/41, 42, 43,
spec/30_encoding.md R61). -/

namespace Sys2Proof.Machine

open Sys2Proof

/-- Repeated doubling of a binary fraction selects its top bits (R76). -/
theorem fractionBits_eq : ∀ fmag : BitVec 8, fractionBits fmag = fmag.extractLsb' 4 4 := by
  decide +kernel

/-- One multiplication by 32 of a binary fraction selects its top five bits (R96). -/
theorem base32Fraction_eq : ∀ fmag : BitVec 8, base32Fraction fmag = [fmag.extractLsb' 3 5] := by
  decide +kernel

/-- The digits repeated division produces stand for the number divided (R99). -/
theorem packDigits_base32Digits (fuel n : Nat) (h : n < 32 ^ fuel) : packDigits (base32Digits fuel n) = n := by
  induction fuel generalizing n with
  | zero =>
    have : n = 0 := by simpa using h
    simp [base32Digits, packDigits, this]
  | succ fuel ih =>
    rw [base32Digits]
    split
    · simp [packDigits, *]
    · have hd : n / 32 < 32 ^ fuel := by rw [Nat.div_lt_iff_lt_mul (by omega), ← Nat.pow_succ]; exact h
      rw [packDigits, ih _ hd, BitVec.toNat_ofNat]
      omega

/-- Repeated division produces no more digits than it makes divisions. -/
theorem length_base32Digits_le (fuel n : Nat) : (base32Digits fuel n).length ≤ fuel := by
  induction fuel generalizing n with
  | zero => simp [base32Digits]
  | succ fuel ih =>
    rw [base32Digits]
    split
    · simp
    · simpa using ih (n / 32)

/-- Repeated division of a number that is not zero produces no leading zero symbol (R95). -/
theorem getLast?_base32Digits (fuel n : Nat) (h0 : n ≠ 0) (h : n < 32 ^ fuel) :
    ∃ d, (base32Digits fuel n).getLast? = some d ∧ d ≠ 0#5 := by
  induction fuel generalizing n with
  | zero => simp at h; omega
  | succ fuel ih =>
    rw [base32Digits, if_neg h0]
    by_cases hz : n / 32 = 0
    · have hnil : base32Digits fuel (n / 32) = [] := by rw [hz]; cases fuel <;> simp [base32Digits]
      refine ⟨BitVec.ofNat 5 (n % 32), by simp [hnil], fun hc => ?_⟩
      have := congrArg BitVec.toNat hc
      rw [BitVec.toNat_ofNat] at this
      simp at this
      omega
    · have hd : n / 32 < 32 ^ fuel := by rw [Nat.div_lt_iff_lt_mul (by omega), ← Nat.pow_succ]; exact h
      obtain ⟨d, h1, h2⟩ := ih (n / 32) hz hd
      exact ⟨d, by rw [List.getLast?_cons, h1]; rfl, h2⟩

/-- The class of an operand by its exponent field (R92). -/
theorem classify_eq (e11 : BitVec 11) (f52 : BitVec 52) :
    classify e11 f52 =
      if e11.toNat = 0 then (if f52 = 0 then .zero else .subnormal)
      else if e11.toNat ≤ 896 then .subnormal
      else if e11.toNat ≤ 1150 then .normal
      else if e11.toNat ≤ 2046 then .infinite
      else if f52 = 0 then .infinite else .nan := by
  have hlt := e11.isLt
  have hr : rebiased e11 = (e11.toNat : Int) - 896 := by rw [rebiased]; omega
  rw [classify]
  split_ifs <;> first | rfl | omega

/-- Bit `i` of the word `S` (R61). -/
theorem getLsbD_words_s (f : RspFields) (i : Nat) (hi : i < 32) :
    f.words.s.getLsbD i =
      if i < 4 then f.status.getLsbD i else if i < 5 then f.ovf else if i < 6 then f.rsgn
      else if i < 12 then f.rlen.getLsbD (i - 6) else if i < 20 then f.rfr.getLsbD (i - 12)
      else if i < 23 then f.cls.getLsbD (i - 20) else f.nrec.getLsbD (i - 23) := by
  simp only [RspFields.words, BitVec.getLsbD_or, getLsbD_place _ _ _ hi]
  interval_cases i <;> simp

/-- Reading the fields of a record gives the fields it was written from (R61). -/
theorem fields_words (f : RspFields) : f.words.fields = f := by
  have hs : ∀ i, i < 32 → _ := getLsbD_words_s f
  show RspFields.mk _ _ _ _ _ _ _ f.r1 f.r0 = f
  obtain ⟨status, ovf, rsgn, rlen, rfr, cls, nrec, r1, r0⟩ := f
  simp only [RspFields.mk.injEq, and_true]
  refine ⟨?_, ?_, ?_, ?_, ?_, ?_, ?_⟩
  · apply BitVec.eq_of_getLsbD_eq
    intro i hi
    rw [BitVec.getLsbD_extractLsb', hs _ (by omega)]
    interval_cases i <;> rfl
  · rw [hs _ (by omega)]; rfl
  · rw [hs _ (by omega)]; rfl
  · apply BitVec.eq_of_getLsbD_eq
    intro i hi
    rw [BitVec.getLsbD_extractLsb', hs _ (by omega)]
    interval_cases i <;> rfl
  · apply BitVec.eq_of_getLsbD_eq
    intro i hi
    rw [BitVec.getLsbD_extractLsb', hs _ (by omega)]
    interval_cases i <;> rfl
  · apply BitVec.eq_of_getLsbD_eq
    intro i hi
    rw [BitVec.getLsbD_extractLsb', hs _ (by omega)]
    interval_cases i <;> rfl
  · apply BitVec.eq_of_getLsbD_eq
    intro i hi
    rw [BitVec.getLsbD_extractLsb', hs _ (by omega)]
    interval_cases i <;> rfl

end Sys2Proof.Machine
end

