-- ==== Sys2Proof/Laws/HostText.lean ====
section
/-! SUPPORT. What the operations of the host's Parser can do, each said once. -/

namespace Sys2Proof.Laws

open Sys2Proof Sys2Proof.Machine

/-- The digit value of a character is the one `DigitOf` names. -/
theorem digitValue_eq_some_iff (c : Char) (v : Nat) : digitValue c = some v ↔ DigitOf c v := by
  unfold digitValue DigitOf
  constructor
  · intro h
    repeat' split at h
    all_goals simp at h
    all_goals omega
  · intro h
    repeat' split
    all_goals first
      | exact congrArg some (by omega)
      | omega

/-- A character is in the alphabet of a radix exactly when it is a digit below the radix. -/
theorem isDigitOf_iff (radix : Nat) (c : Char) : isDigitOf radix c = true ↔ ∃ v, DigitOf c v ∧ v < radix := by
  simp only [← digitValue_eq_some_iff, isDigitOf]
  cases digitValue c <;> simp

/-- No digit is a `.`, a space, a sign, or a prefix letter other than `b`. -/
theorem digitOf_ne {c : Char} {v : Nat} (h : DigitOf c v) :
    c ≠ '.' ∧ c ≠ ' ' ∧ c ≠ '-' ∧ c ≠ '+' ∧ c ≠ 'o' ∧ c ≠ 'O' ∧ c ≠ 'x' ∧ c ≠ 'X' := by
  unfold DigitOf at h
  refine ⟨?_, ?_, ?_, ?_, ?_, ?_, ?_, ?_⟩ <;> rintro rfl <;> simp at h <;> omega

/-- A text is split at its first `.`. -/
theorem splitDot_append (I F : List Char) (h : '.' ∉ I) : splitDot (I ++ '.' :: F) = (I, some F) := by
  induction I with
  | nil => simp [splitDot]
  | cons c I ih =>
    rw [List.mem_cons, not_or] at h
    simp [splitDot, Ne.symm h.1, ih h.2]

/-- A text with no `.` has no fractional portion. -/
theorem splitDot_of_not_mem (I : List Char) (h : '.' ∉ I) : splitDot I = (I, none) := by
  induction I with
  | nil => rfl
  | cons c I ih =>
    rw [List.mem_cons, not_or] at h
    simp [splitDot, Ne.symm h.1, ih h.2]

/-- A string of digits stands for the number of its digit values. -/
theorem digitsValue_eq_positional (radix : Nat) (ds : List (Char × Nat)) (h : ∀ d ∈ ds, DigitOf d.1 d.2) :
    digitsValue radix (ds.map Prod.fst) = positional radix (ds.map Prod.snd) := by
  suffices hs : ∀ n, (ds.map Prod.fst).foldl (fun acc c => radix * acc + (digitValue c).getD 0) n =
      (ds.map Prod.snd).foldl (fun n v => radix * n + v) n from hs 0
  induction ds with
  | nil => exact fun _ => rfl
  | cons d ds ih =>
    intro n
    rw [List.map_cons, List.map_cons, List.foldl_cons, List.foldl_cons,
      (digitValue_eq_some_iff _ _).2 (h d List.mem_cons_self)]
    exact ih (fun e he => h e (List.mem_cons_of_mem _ he)) _

/-- Dropping the blanks around a text that holds no space changes nothing, whatever the host does with blanks. -/
theorem trimBlanks_of_not_mem (text : List Char) (h : ' ' ∉ text) : trimBlanks text = text := by
  have drop : ∀ l : List Char, ' ' ∉ l → l.dropWhile (· == ' ') = l := by
    intro l hl
    cases l with
    | nil => rfl
    | cons c l => rw [List.mem_cons, not_or] at hl; simp [Ne.symm hl.1]
  rw [trimBlanks]
  split
  · rw [drop _ h, drop _ (by simpa using h), List.reverse_reverse]
  · rfl

/-- The one failure that applies is the one reported. -/
theorem reported_nil (f : Failure) : reported f [] = f := by simp [reported, Nat.mod_one]

/-- Parsing a text with no space and no sign, at a radix of the contract: the prefix, then the digits; none of the
open points on blanks and signs bears on it. -/
theorem parse_of_plain (c : Char) (text : List Char) (radix : Nat)
    (hr : radix = 2 ∨ radix = 8 ∨ radix = 10 ∨ radix = 16) (h : ' ' ∉ c :: text) (hs : c ≠ '-' ∧ c ≠ '+') :
    parse (c :: text) radix = parseBody radix (false, c :: text) := by
  have hb : isBlank (c :: text) = false := by
    rw [List.mem_cons, not_or] at h
    simp [isBlank, Ne.symm h.1]
  rw [parse, if_neg (by rcases hr with rfl | rfl | rfl | rfl <;> simp), hb, trimBlanks_of_not_mem _ h]
  simp [takeSign, hs]

end Sys2Proof.Laws
end

