-- ==== Sys2Proof/Laws/MulDiv.lean ====
section
/-! SUPPORT. What shift-and-add and restoring division compute (spec/45_muldiv.md). -/

namespace Sys2Proof.Machine

open Sys2Proof

/-- The accumulator before position `i`: the product with the low `i` multiplier bits; it never wraps (R112). -/
theorem toNat_accumulator {w : Nat} (ma mb : BitVec w) (i : Nat) (hi : i ≤ w) :
    (accumulator ma mb i).toNat = ma.toNat * (mb.toNat % 2 ^ i) := by
  induction i with
  | zero => simp [accumulator, Nat.mod_one]
  | succ i ih =>
    have hma := ma.isLt
    have hb : mb.toNat % 2 ^ (i + 1) = mb.toNat % 2 ^ i + 2 ^ i * (mb.getLsbD i).toNat := by
      rw [Nat.mod_pow_succ]
      congr 2
      rw [BitVec.getLsbD, Nat.testBit_eq_decide_div_mod_eq]
      rcases Nat.mod_two_eq_zero_or_one (mb.toNat / 2 ^ i) with h | h <;> simp [h]
    have hlt : ma.toNat * (mb.toNat % 2 ^ (i + 1)) < 2 ^ (2 * w) := by
      have h1 : mb.toNat % 2 ^ (i + 1) < 2 ^ (i + 1) := Nat.mod_lt _ (Nat.two_pow_pos _)
      have h2 : 2 ^ (i + 1) ≤ 2 ^ w := Nat.pow_le_pow_right (by omega) hi
      calc ma.toNat * (mb.toNat % 2 ^ (i + 1)) < 2 ^ w * 2 ^ w :=
            Nat.mul_lt_mul_of_lt_of_le hma (by omega) (Nat.two_pow_pos _)
        _ = 2 ^ (2 * w) := by rw [← Nat.pow_add]; congr 1; omega
    rw [accumulator, BitVec.toNat_add, ih (by omega)]
    have hpp : (partialProduct ma mb i).toNat = ma.toNat * (2 ^ i * (mb.getLsbD i).toNat) := by
      rw [partialProduct]
      cases hbit : mb.getLsbD i
      · simp
      · have : ma.toNat * 2 ^ i < 2 ^ (2 * w) := by
          calc ma.toNat * 2 ^ i < 2 ^ w * 2 ^ i := Nat.mul_lt_mul_of_pos_right hma (Nat.two_pow_pos _)
            _ = 2 ^ (w + i) := by rw [Nat.pow_add]
            _ ≤ 2 ^ (2 * w) := Nat.pow_le_pow_right (by omega) (by omega)
        have hw : ma.toNat % 2 ^ (2 * w) = ma.toNat :=
          Nat.mod_eq_of_lt (Nat.lt_of_lt_of_le hma (Nat.pow_le_pow_right (by omega) (by omega)))
        simp [BitVec.toNat_shiftLeft, Nat.shiftLeft_eq, hw, Nat.mod_eq_of_lt this]
    rw [hpp, ← Nat.mul_add, ← hb, Nat.mod_eq_of_lt hlt]

/-- Shift-and-add multiplies exactly (R112). -/
theorem toNat_shiftAdd {w : Nat} (ma mb : BitVec w) : (shiftAdd ma mb).toNat = ma.toNat * mb.toNat := by
  rw [shiftAdd, toNat_accumulator ma mb w (Nat.le_refl _), Nat.mod_eq_of_lt mb.isLt]


/-- Bringing a bit down doubles the remainder and adds the bit; `w` bits hold it (R118). -/
theorem toNat_bringDown {w : Nat} (ma rem : BitVec w) (i : Nat) (hw : 0 < w) (h : 2 * rem.toNat + 1 < 2 ^ w) :
    (bringDown ma rem i).toNat = 2 * rem.toNat + ma.toNat / 2 ^ i % 2 := by
  have hbit : ((BitVec.ofBool (ma.getLsbD i)).setWidth w).toNat = ma.toNat / 2 ^ i % 2 := by
    have h2 : 1 < 2 ^ w := Nat.one_lt_two_pow (by omega)
    rw [BitVec.toNat_setWidth, BitVec.toNat_ofBool, BitVec.getLsbD, Nat.testBit_eq_decide_div_mod_eq]
    rcases Nat.mod_two_eq_zero_or_one (ma.toNat / 2 ^ i) with h | h
    · simp [h]
    · simp [h, Nat.mod_eq_of_lt h2]
  rw [bringDown, BitVec.toNat_or, hbit, BitVec.toNat_shiftLeft, Nat.shiftLeft_eq, Nat.pow_one,
    Nat.mod_eq_of_lt (by omega), Nat.mul_comm rem.toNat 2]
  have := Nat.two_pow_add_eq_or_of_lt (i := 1) (b := ma.toNat / 2 ^ i % 2) (by omega) rem.toNat
  simpa using this.symm

/-- The partial remainder after `k` steps (R118). -/
theorem toNat_remainderAfter {w : Nat} (ma mb : BitVec w) (h0 : 0 < mb.toNat) (hm : 2 * mb.toNat ≤ 2 ^ w) (k : Nat)
    (hk : k ≤ w) : (remainderAfter ma mb k).toNat = ma.toNat / 2 ^ (w - k) % mb.toNat := by
  induction k with
  | zero => simp [remainderAfter, Nat.div_eq_of_lt ma.isLt]
  | succ k ih =>
    have ih := ih (by omega)
    have hlt : (remainderAfter ma mb k).toNat < mb.toNat := by rw [ih]; exact Nat.mod_lt _ h0
    have hb := toNat_bringDown ma (remainderAfter ma mb k) (w - 1 - k) (by omega) (by omega)
    have hdiv : ma.toNat / 2 ^ (w - (k + 1)) = 2 * (ma.toNat / 2 ^ (w - k)) + ma.toNat / 2 ^ (w - 1 - k) % 2 := by
      have e1 : w - (k + 1) = w - 1 - k := by omega
      have e2 : w - k = w - 1 - k + 1 := by omega
      rw [e1, e2, Nat.pow_succ, ← Nat.div_div_eq_div_mul]
      omega
    have hr : (ma.toNat / 2 ^ (w - (k + 1))) % mb.toNat =
        (2 * (remainderAfter ma mb k).toNat + ma.toNat / 2 ^ (w - 1 - k) % 2) % mb.toNat := by
      rw [hdiv, ih, Nat.add_mod, Nat.mul_mod, Nat.add_mod (2 * _), Nat.mul_mod 2 (_ % _), Nat.mod_mod]
    have hd : ma.toNat / 2 ^ (w - 1 - k) % 2 < 2 := Nat.mod_lt _ (by omega)
    rw [remainderAfter, trialSubtract, hr]
    clear hr hdiv
    generalize ma.toNat / 2 ^ (w - 1 - k) % 2 = d at *
    by_cases hle : mb ≤ bringDown ma (remainderAfter ma mb k) (w - 1 - k)
    · rw [if_pos hle, BitVec.toNat_sub_of_le hle, hb]
      rw [BitVec.le_def, hb] at hle
      rw [Nat.mod_eq_sub_mod hle]
      exact (Nat.mod_eq_of_lt (by omega)).symm
    · rw [if_neg hle, hb]
      rw [BitVec.le_def, hb] at hle
      exact (Nat.mod_eq_of_lt (by omega)).symm

/-- The quotient bit of step `k` (R118). -/
theorem quotientBit_eq {w : Nat} (ma mb : BitVec w) (h0 : 0 < mb.toNat) (hm : 2 * mb.toNat ≤ 2 ^ w) (k : Nat)
    (hk : k < w) : quotientBit ma mb k = (ma.toNat / mb.toNat).testBit (w - 1 - k) := by
  have ih := toNat_remainderAfter ma mb h0 hm k (by omega)
  have hlt : (remainderAfter ma mb k).toNat < mb.toNat := by rw [ih]; exact Nat.mod_lt _ h0
  have hb := toNat_bringDown ma (remainderAfter ma mb k) (w - 1 - k) (by omega) (by omega)
  have hdiv : ma.toNat / 2 ^ (w - 1 - k) = 2 * (ma.toNat / 2 ^ (w - k)) + ma.toNat / 2 ^ (w - 1 - k) % 2 := by
    have e2 : w - k = w - 1 - k + 1 := by omega
    rw [e2, Nat.pow_succ, ← Nat.div_div_eq_div_mul]
    omega
  have hq : ma.toNat / mb.toNat / 2 ^ (w - 1 - k) = (ma.toNat / 2 ^ (w - 1 - k)) / mb.toNat := by
    rw [Nat.div_div_eq_div_mul, Nat.div_div_eq_div_mul, Nat.mul_comm]
  have hsplit : ma.toNat / 2 ^ (w - 1 - k) = mb.toNat * (2 * (ma.toNat / 2 ^ (w - k) / mb.toNat)) +
      (2 * (remainderAfter ma mb k).toNat + ma.toNat / 2 ^ (w - 1 - k) % 2) := by
    have := Nat.div_add_mod (ma.toNat / 2 ^ (w - k)) mb.toNat
    rw [← ih] at this
    conv_lhs => rw [hdiv]
    calc _ = 2 * (mb.toNat * (ma.toNat / 2 ^ (w - k) / mb.toNat) + (remainderAfter ma mb k).toNat)
            + ma.toNat / 2 ^ (w - 1 - k) % 2 := by rw [this]
      _ = _ := by ring
  rw [quotientBit, Nat.testBit_eq_decide_div_mod_eq, hq, hsplit, Nat.mul_add_div h0]
  apply decide_eq_decide.2
  rw [BitVec.le_def, hb]
  have hd : ma.toNat / 2 ^ (w - 1 - k) % 2 < 2 := Nat.mod_lt _ (by omega)
  clear hsplit hq hdiv hb ih
  generalize ma.toNat / 2 ^ (w - 1 - k) % 2 = d at *
  constructor
  · intro h
    have : (2 * (remainderAfter ma mb k).toNat + d) / mb.toNat = 1 := by
      apply Nat.div_eq_of_lt_le <;> omega
    omega
  · intro h
    by_contra hc
    have hz : (2 * (remainderAfter ma mb k).toNat + d) / mb.toNat = 0 := Nat.div_eq_of_lt (by omega)
    omega

/-- Restoring division divides (R118). -/
theorem toNat_quotient {w : Nat} (ma mb : BitVec w) (h0 : 0 < mb.toNat) (hm : 2 * mb.toNat ≤ 2 ^ w) :
    (quotient ma mb).toNat = ma.toNat / mb.toNat := by
  apply Nat.eq_of_testBit_eq
  intro i
  have : (quotient ma mb).toNat.testBit i = (quotient ma mb).getLsbD i := rfl
  rw [this, quotient, getLsbD_ofBits]
  by_cases hi : i < w
  · rw [quotientBit_eq ma mb h0 hm _ (by omega)]
    have : w - 1 - (w - 1 - i) = i := by omega
    simp [hi, this]
  · have : ma.toNat / mb.toNat < 2 ^ i := by
      have h1 := Nat.div_le_self ma.toNat mb.toNat
      have h2 := ma.isLt
      have h3 : 2 ^ w ≤ 2 ^ i := Nat.pow_le_pow_right (by omega) (by omega)
      omega
    simp [hi, Nat.testBit_lt_two_pow this]

/-- The partial product of multiplier bit `i`, as a number (R112). -/
theorem toNat_partialProduct {w : Nat} (ma mb : BitVec w) (i : Nat) (hi : i ≤ w) :
    (partialProduct ma mb i).toNat = if mb.getLsbD i then ma.toNat * 2 ^ i else 0 := by
  have hma := ma.isLt
  rw [partialProduct]
  cases hbit : mb.getLsbD i
  · simp
  · have : ma.toNat * 2 ^ i < 2 ^ (2 * w) := by
      calc ma.toNat * 2 ^ i < 2 ^ w * 2 ^ i := Nat.mul_lt_mul_of_pos_right hma (Nat.two_pow_pos _)
        _ = 2 ^ (w + i) := by rw [Nat.pow_add]
        _ ≤ 2 ^ (2 * w) := Nat.pow_le_pow_right (by omega) (by omega)
    have hw : ma.toNat % 2 ^ (2 * w) = ma.toNat :=
      Nat.mod_eq_of_lt (Nat.lt_of_lt_of_le hma (Nat.pow_le_pow_right (by omega) (by omega)))
    simp [BitVec.toNat_shiftLeft, Nat.shiftLeft_eq, hw, Nat.mod_eq_of_lt this]

end Sys2Proof.Machine
end

