-- ==== Sys2Proof/Laws/PerInstr.lean ====
section
/-! SUPPORT. Statements about every instruction as syntax, one lemma per constructor. -/

namespace Sys2Proof

/-- The encoding of an instruction is a request of its own row of the operation map: the row's fixed bits hold the
row's values, and the word `B` is zero where the row does not use it (R50, R51). -/
def Laws.EncodesItsRow.Statement (i : Instr) : Prop :=
  (encode i).ctl &&& i.op.mask = i.op.matchWord ∧ (i.op.usesB = false → (encode i).b = 0)

/-- The bits a mask keeps of `CTL`, one at a time. -/
theorem ctlWord_and_eq (op : BitVec 4) (w alen blen : BitVec 6) (sgn : Bool) (fr : BitVec 8) (mask value : Word)
    (h : ∀ i < 32, ((if i < 4 then op.getLsbD i else if i < 10 then w.getLsbD (i - 4)
      else if i < 16 then alen.getLsbD (i - 10) else if i < 22 then blen.getLsbD (i - 16)
      else if i < 23 then sgn else fr.getLsbD (i - 23)) && mask.getLsbD i) = value.getLsbD i) :
    ctlWord op w alen blen sgn fr &&& mask = value := by
  apply BitVec.eq_of_getLsbD_eq
  intro i hi
  rw [BitVec.getLsbD_and, getLsbD_ctlWord _ _ _ _ _ _ _ hi]
  exact h i hi

theorem Laws.EncodesItsRow.add (w alen blen : BitVec 6) (a b : Word) :
    Laws.EncodesItsRow.Statement (.add w alen blen a b) := by
  refine ⟨ctlWord_and_eq _ _ _ _ _ _ _ _ ?_, fun h => Bool.noConfusion h⟩
  intro i hi
  interval_cases i <;> simp [Op.mask, Op.matchWord, Op.code, Instr.op]

theorem Laws.EncodesItsRow.sub (w alen blen : BitVec 6) (a b : Word) :
    Laws.EncodesItsRow.Statement (.sub w alen blen a b) := by
  refine ⟨ctlWord_and_eq _ _ _ _ _ _ _ _ ?_, fun h => Bool.noConfusion h⟩
  intro i hi
  interval_cases i <;> simp [Op.mask, Op.matchWord, Op.code, Instr.op]

theorem Laws.EncodesItsRow.mul (w alen blen : BitVec 6) (a b : Word) :
    Laws.EncodesItsRow.Statement (.mul w alen blen a b) := by
  refine ⟨ctlWord_and_eq _ _ _ _ _ _ _ _ ?_, fun h => Bool.noConfusion h⟩
  intro i hi
  interval_cases i <;> simp [Op.mask, Op.matchWord, Op.code, Instr.op]

theorem Laws.EncodesItsRow.div (w alen blen : BitVec 6) (a b : Word) :
    Laws.EncodesItsRow.Statement (.div w alen blen a b) := by
  refine ⟨ctlWord_and_eq _ _ _ _ _ _ _ _ ?_, fun h => Bool.noConfusion h⟩
  intro i hi
  interval_cases i <;> simp [Op.mask, Op.matchWord, Op.code, Instr.op]

theorem Laws.EncodesItsRow.tobin (w : BitVec 6) (sgn : Bool) (fr : BitVec 8) (a : Word) :
    Laws.EncodesItsRow.Statement (.tobin w sgn fr a) := by
  refine ⟨ctlWord_and_eq _ _ _ _ _ _ _ _ ?_, fun _ => rfl⟩
  intro i hi
  interval_cases i <;> simp [Op.mask, Op.matchWord, Op.code, Instr.op]

theorem Laws.EncodesItsRow.frombin (alen : BitVec 6) (frac : BitVec 4) (a : Word) :
    Laws.EncodesItsRow.Statement (.frombin alen frac a) := by
  refine ⟨ctlWord_and_eq _ _ _ _ _ _ _ _ ?_, fun _ => rfl⟩
  intro i hi
  interval_cases i <;> simp [Op.mask, Op.matchWord, Op.code, Instr.op]

theorem Laws.EncodesItsRow.tob32 (sgn : Bool) (fr : BitVec 8) (a : Word) :
    Laws.EncodesItsRow.Statement (.tob32 sgn fr a) := by
  refine ⟨ctlWord_and_eq _ _ _ _ _ _ _ _ ?_, fun _ => rfl⟩
  intro i hi
  interval_cases i <;> simp [Op.mask, Op.matchWord, Op.code, Instr.op]

theorem Laws.EncodesItsRow.f32x (b a : Word) : Laws.EncodesItsRow.Statement (.f32x b a) := by
  refine ⟨ctlWord_and_eq _ _ _ _ _ _ _ _ ?_, fun h => Bool.noConfusion h⟩
  intro i hi
  interval_cases i <;> simp [Op.mask, Op.matchWord, Op.code, Instr.op]

end Sys2Proof
end

