-- ==== Sys2Proof/Laws/State.lean ====
section
/-! SUPPORT. The small lemmas of the state's operations: one per field per update, and what a step can do. -/

namespace Sys2Proof.Machine

open Sys2Proof

@[simp] theorem reset_pending : State.reset.pending = [] := rfl
@[simp] theorem reset_answers : State.reset.answers = [] := rfl
@[simp] theorem answer_pending (s : State) (r : Response) (t : Trace) :
    (s.answer r t).pending = s.pending.tail := rfl
@[simp] theorem answer_answers (s : State) (r : Response) (t : Trace) :
    (s.answer r t).answers = s.answers ++ [⟨s.requester, r, t⟩] := rfl
@[simp] theorem present_pending (s : State) (h : HostId) (r : Request) :
    (s.present h r).pending = s.pending ++ [⟨h, r⟩] := rfl
@[simp] theorem present_answers (s : State) (h : HostId) (r : Request) : (s.present h r).answers = s.answers := rfl
@[simp] theorem discard_pending (s : State) (h : HostId) : (s.discard h).pending = s.pending := rfl
@[simp] theorem discard_answers (s : State) (h : HostId) :
    (s.discard h).answers = s.answers.filter fun x => x.host != some h := rfl
@[simp] theorem applyReset_pending (s : State) : s.applyReset.pending = [] := rfl
@[simp] theorem applyReset_answers (s : State) : s.applyReset.answers = s.answers := rfl
@[simp] theorem withFetchWord_answers (s : State) (nbits w : Nat) :
    (s.withFetchWord nbits w).answers = s.answers := rfl
@[simp] theorem withFetchWord_fetch (s : State) (nbits w : Nat) :
    (s.withFetchWord nbits w).fetch = some (tableRequest nbits w) := rfl
@[simp] theorem raise_eq (s : State) (f : Failure) : s.raise f = .next (s.answer (.fail f) []) := rfl
@[simp] theorem conclude_ok (s : State) (p : Payload) (t : Trace) :
    s.conclude (.ok (p, t)) = .next (s.answer (.ok p) t) := rfl
@[simp] theorem conclude_error (s : State) (f : Failure) : s.conclude (.error f) = s.raise f := rfl

/-- The response and the trace that end a transaction. -/
def outcomeOf (r : OpResult) : Response × Trace :=
  match r with
  | .ok (p, t) => (.ok p, t)
  | .error f => (.fail f, [])

/-- Ending a transaction always gives a next state: the oldest request answered, nothing else changed. -/
theorem conclude_eq (s : State) (r : OpResult) :
    s.conclude r = .next (s.answer (outcomeOf r).1 (outcomeOf r).2) := by
  rcases r with f | ⟨p, t⟩ <;> rfl

/-- The result an operation computes: a function of the instruction alone (R13). -/
def resultOf : Instr → OpResult
  | .add w alen blen a b => withOperands w alen blen a b addOp
  | .sub w alen blen a b => withOperands w alen blen a b subOp
  | .mul w alen blen a b => withOperands w alen blen a b mulOp
  | .div w alen blen a b => withOperands w alen blen a b divOp
  | .tobin w sgn fr a =>
    if (tobinIllegal? w).isSome then .error .illegalCommand else tobinOp (tobinWidth w) (numeralOperand sgn fr a)
  | .frombin alen frac a =>
    if (frombinIllegal? alen a).isSome then .error .illegalCommand else frombinOp (stringOperand alen frac a)
  | .tob32 sgn fr a => tob32Op (numeralOperand sgn fr a)
  | .f32x b a => f32xOp (doubleOperand b a)

/-- What `exec` does, said once: it ends the transaction with the instruction's result. -/
theorem exec_eq (i : Instr) (s : State) : exec i s = s.conclude (resultOf i) := by
  cases i <;> rfl

/-- Every `exec` completes, and all it does is to answer the oldest request. -/
theorem exec_next (i : Instr) (s : State) :
    exec i s = .next (s.answer (outcomeOf (resultOf i)).1 (outcomeOf (resultOf i)).2) := by
  rw [exec_eq, conclude_eq]

/-- The result of a request, decoded or not (R15, R56). -/
def resultOfRequest (r : Request) : OpResult :=
  match decode r with
  | .error _ => .error .illegalCommand
  | .ok i => resultOf i

/-- What a step does, said once, where a request is pending. -/
theorem step_cons (p : Presented) (ps : List Presented) (xs : List Answer) :
    step ⟨p :: ps, xs⟩ =
      .next ⟨ps, xs ++ [⟨some p.host, (outcomeOf (resultOfRequest p.req)).1, (outcomeOf (resultOfRequest p.req)).2⟩]⟩ := by
  show (match decode p.req with
    | .error _ => State.raise ⟨p :: ps, xs⟩ .illegalCommand
    | .ok i => exec i ⟨p :: ps, xs⟩) = _
  rw [resultOfRequest]
  cases h : decode p.req with
  | error e => rfl
  | ok i => simp only [exec_next]; rfl

/-- What a step does where no request is pending: nothing. -/
theorem step_nil (xs : List Answer) : step ⟨[], xs⟩ = .next ⟨[], xs⟩ := rfl

/-- A run of no steps. -/
theorem run_zero (s : State) : Host.Core.run Sys2Proof.core 0 s = .next s := rfl

/-- A run whose first step goes on, on any core. -/
theorem core_run_succ (M : Host.Core) (k : Nat) (s t : M.State) (h : M.step s = .next t) :
    M.run (k + 1) s = M.run k t := by
  rw [Host.Core.run, h]

/-- A run whose first step goes on. -/
theorem run_succ (k : Nat) (s t : State) (h : step s = .next t) :
    Host.Core.run Sys2Proof.core (k + 1) s = Host.Core.run Sys2Proof.core k t :=
  core_run_succ Sys2Proof.core k s t h

end Sys2Proof.Machine
end

