-- ==== Sys2Proof/Laws/Safety.lean ====
section
/-! SUPPORT. What it takes that an operation delivers a response, said once (Safety.lean). -/

namespace Sys2Proof.Machine

open Sys2Proof

/-- An instruction delivers exactly the response and the trace of its result, in every state. -/
theorem delivers_iff (i : Instr) (s : State) (r : Response) (t : Trace) :
    Delivers i s r t ↔ outcomeOf (resultOf i) = (r, t) := by
  constructor
  · intro h
    rw [Delivers, exec_next] at h
    simp only [Host.Outcome.next.injEq, State.answer, State.mk.injEq, true_and, List.append_cancel_left_eq,
      List.cons.injEq, and_true, Answer.mk.injEq] at h
    exact Prod.ext h.1 h.2
  · intro h
    rw [Delivers, exec_next, h]
    rfl

/-- An arithmetic operation whose operands fit runs on the patterns of `w` bits (R100). -/
theorem withOperands_of_fit (w : BitVec 6) (a b : Word) (op : (n : Nat) → BitVec n → BitVec n → OpResult)
    (h : OperandsFit w a b) :
    withOperands w w w a b op = op w.toNat (a.setWidth w.toNat) (b.setWidth w.toNat) := by
  obtain ⟨h1, h2, h3, h4⟩ := h
  have hn : arithIllegal? w w w a b = none := by
    rw [arithIllegal?_eq_none]
    simp [wfWidth, wfString, h1, h2, h3, h4]
  simp [withOperands, hn]

/-- A word below `2^n` keeps its value when it is cut to `n` bits (R53). -/
theorem toNat_setWidth_of_lt (n : Nat) (a : Word) (h : a.toNat < 2 ^ n) : (a.setWidth n).toNat = a.toNat := by
  rw [BitVec.toNat_setWidth, Nat.mod_eq_of_lt h]

end Sys2Proof.Machine
end

