-- ==== Sys2Proof/Tests/Slice0.lean ====
section
/-! SUPPORT. Tests. The expected words are those of spec/95_test_vectors.md and spec/30_encoding.md R72, or written out
by hand from the encoding tables; none was read off the model. Every test is one step, or one operation. The second
half shows, for every statement with hypotheses, states and operands that meet them. -/

namespace Sys2Proof.Tests

open Sys2Proof Sys2Proof.Machine

/-! ## Helpers -/

/-- The answer of one step on one request, presented to the block right after reset. -/
def answerTo (r : Request) : Option Answer :=
  match step (State.reset.present 0 r) with
  | .next s => s.answers.getLast?
  | _ => none

/-- The response record of one step. -/
def recordOf (r : Request) : Option RspRecord := (answerTo r).map Answer.record

/-- The trace words of one step. -/
def traceOf (r : Request) : Option (List TraceWords) := (answerTo r).map Answer.traceWords

/-- Does the request decode to the instruction. -/
def decodesTo (r : Request) (i : Instr) : Bool :=
  match decode r with
  | .ok j => decide (j = i)
  | .error _ => false

/-- Is the request refused for this reason, by all the checks of R56. -/
def refusedAs (r : Request) (e : Illegal) : Bool :=
  match decodeLegal r with
  | .ok _ => false
  | .error x => decide (x = e)

/-! ## WellFormed: one ill-formed term for each check (R48, R49) -/

theorem test_wf_accepts : (Instr.add 4 4 4 7 1).wellFormed = true := by decide
theorem test_wf_accepts_32 : (Instr.div 32 32 32 0xFFFFFFFF 0xFFFFFFFF).wellFormed = true := by decide
theorem test_wf_refuses_width_0 : (Instr.add 0 0 0 0 0).wellFormed = false := by decide
theorem test_wf_refuses_width_33 : (Instr.sub 33 4 4 0 0).wellFormed = false := by decide
theorem test_wf_refuses_alen_33 : (Instr.mul 4 33 4 0 0).wellFormed = false := by decide
theorem test_wf_refuses_blen_33 : (Instr.div 4 4 33 0 1).wellFormed = false := by decide
theorem test_wf_refuses_stray_bit_of_a : (Instr.add 4 4 4 16 0).wellFormed = false := by decide
theorem test_wf_refuses_stray_bit_of_b : (Instr.sub 4 4 4 0 16).wellFormed = false := by decide
theorem test_wf_refuses_tobin_width_33 : (Instr.tobin 33 false 0 0).wellFormed = false := by decide
theorem test_wf_accepts_tobin_width_0 : (Instr.tobin 0 false 0 0).wellFormed = true := by decide
theorem test_wf_refuses_frombin_length_33 : (Instr.frombin 33 0 0).wellFormed = false := by decide
theorem test_wf_refuses_frombin_stray_bit : (Instr.frombin 3 0 8).wellFormed = false := by decide

/-! ## Decoding: one word of each operation, written out from R46 and R50, bit 31 first -/

theorem test_decode_add :
    decodesTo ⟨0b0000000000_000100_000100_000100_0000#32, 1, 7⟩ (.add 4 4 4 7 1) = true := by decide
theorem test_decode_sub :
    decodesTo ⟨0b0000000000_000101_000110_000111_0001#32, 9, 8⟩ (.sub 7 6 5 8 9) = true := by decide
theorem test_decode_mul :
    decodesTo ⟨0b0000000000_100000_100000_100000_0010#32, 9, 8⟩ (.mul 32 32 32 8 9) = true := by decide
theorem test_decode_div :
    decodesTo ⟨0b0000000000_000001_000010_000100_0011#32, 9, 8⟩ (.div 4 2 1 8 9) = true := by decide
theorem test_decode_tobin :
    decodesTo ⟨0b0_10000001_1_000000_000000_000100_0100#32, 0, 2⟩ (.tobin 4 true 0x81 2) = true := by decide
theorem test_decode_frombin :
    decodesTo ⟨0b0_1010_0000_0_000000_000100_000000_0101#32, 0, 14⟩ (.frombin 4 0b1010 14) = true := by decide
theorem test_decode_tob32 :
    decodesTo ⟨0b0_10000001_1_000000_000000_000000_0110#32, 0, 26⟩ (.tob32 true 0x81 26) = true := by decide
theorem test_decode_f32x :
    decodesTo ⟨0b0_00000000_0_000000_000000_000000_0111#32, 0x403A8000, 5⟩ (.f32x 0x403A8000 5) = true := by decide

theorem test_refuses_reserved_bit : refusedAs ⟨0x80041040, 1, 7⟩ .reservedBit = true := by decide
theorem test_refuses_reserved_op : refusedAs ⟨8, 0, 0⟩ .reservedOp = true := by decide
theorem test_refuses_unused_field : refusedAs ⟨0x00441040, 1, 7⟩ .unusedField = true := by decide
theorem test_refuses_unused_word : refusedAs ⟨0x00000044, 1, 5⟩ .unusedWord = true := by decide
theorem test_refuses_bad_width : refusedAs ⟨0x00041000, 1, 7⟩ .badWidth = true := by decide
theorem test_refuses_bad_length : refusedAs ⟨0x00048440, 1, 7⟩ .badLength = true := by decide
theorem test_refuses_stray_bits : refusedAs ⟨0x00041040, 1, 0x17⟩ .strayBits = true := by decide

/-- The low fraction bits of a FROMBIN request must be zero (R51, R53). -/
theorem test_refuses_low_fraction_bits : refusedAs ⟨0x04001005, 0, 8⟩ .unusedField = true := by decide

/-- The numbering of a request's bits that the opcode table uses: `CTL` is bits 31 to 0, `B` bits 63 to 32. -/
theorem test_table_word : decodeTableWord 96 0x000000070000000100041040 = some (.add 4 4 4 7 1) := by decide

/-- A request of another length than 96 bits is none (R45, R60). -/
theorem test_no_other_length :
    (match decodeBytes [0x07, 0, 0, 0] with | .error .wrongLength => true | _ => false) = true := by decide

/-- The request placed for the next step is the one the next step answers: `TOBIN.4 -8` of E1. -/
theorem test_withFetchWord :
    (match step (State.reset.withFetchWord 96 0x000000080000000000400044) with
      | .next s => s.answers.map Answer.record
      | _ => []) = [⟨0x00000100, 0, 8⟩] := by decide

/-! ## One step on one request (spec/95_test_vectors.md) -/

theorem test_add_overflows : recordOf ⟨0x00041040, 1, 7⟩ = some ⟨0x02000110, 0, 8⟩ := by decide +kernel

/-- The carry chain of `ADD.4 "0111", "0001"` (section 2.9). -/
theorem test_add_trace :
    traceOf ⟨0x00041040, 1, 7⟩ =
      some [⟨0x00001300, 0, 0, 0, 0⟩, ⟨0x00001504, 0, 0, 0, 0⟩, ⟨0x00001508, 0, 0, 0, 0⟩, ⟨0x00000C0C, 0, 0, 0, 0⟩] := by
  decide +kernel

/-- `SUB.4 "1111", "1000"`: the flag at the most negative subtrahend (R107). -/
theorem test_sub_of_min : recordOf ⟨0x00041041, 8, 0xF⟩ = some ⟨0x02000110, 0, 7⟩ := by decide +kernel
theorem test_sub_32 : recordOf ⟨0x00208201, 1, 0x80000000⟩ = some ⟨0x10000810, 0, 0x7FFFFFFF⟩ := by decide +kernel

/-- `MUL.8 "11110100", "00001010"`, -12 times 10. -/
theorem test_mul_negative : recordOf ⟨0x00082082, 0x0A, 0xF4⟩ = some ⟨0x04000200, 0, 0x88⟩ := by decide +kernel

/-- Record 31 of `MUL.32` of the most negative number by itself: the high halves of `pp` and `acc` (section 2.9). -/
theorem test_mul_trace :
    (traceOf ⟨0x00208202, 0x80000000, 0x80000000⟩).bind (·[31]?) =
      some ⟨0x0000017D, 0, 0x40000000, 0, 0x40000000⟩ := by decide +kernel

/-- `DIV.4 "0111", "1110"`: truncation toward zero, 7 / -2 = -3. -/
theorem test_div_truncates : recordOf ⟨0x00041043, 0xE, 7⟩ = some ⟨0x02000100, 0, 0xD⟩ := by decide +kernel

/-- The restoring steps of `DIV.4 "1001", "0010"` (section 2.9). -/
theorem test_div_trace :
    traceOf ⟨0x00041043, 2, 9⟩ =
      some [⟨0x0000000E, 0, 0, 0, 0⟩, ⟨0x0000010A, 1, 0, 0, 0⟩, ⟨0x00000306, 1, 0, 0, 0⟩,
        ⟨0x00000302, 1, 0, 0, 0⟩] := by decide +kernel

theorem test_tobin_negative : recordOf ⟨0x40400044, 0, 2⟩ = some ⟨0x00080100, 0, 0xE⟩ := by decide +kernel

/-- `TOBIN +2147483648`: the width left unspecified is 32, and the value is one too large (R77). -/
theorem test_tobin_default_width : recordOf ⟨0x00000004, 0, 0x80000000⟩ = some ⟨4, 0, 0⟩ := by decide +kernel

theorem test_frombin_negative : recordOf ⟨0x40001005, 0, 0xE⟩ = some ⟨0x00080020, 0, 2⟩ := by decide +kernel
theorem test_frombin_empty : recordOf ⟨0x40000005, 0, 0⟩ = some ⟨1, 0, 0⟩ := by decide +kernel

theorem test_tob32_largest : recordOf ⟨0x7F800006, 0, 0xFFFFFFFF⟩ = some ⟨0x0001F1C0, 0, 0xFFFFFFFF⟩ := by
  decide +kernel
theorem test_tob32_negative : recordOf ⟨0x00C00006, 0, 0⟩ = some ⟨6, 0, 0⟩ := by decide +kernel

/-- 0.1: the dropped bits are not rounded up (R88). -/
theorem test_f32x_truncates :
    recordOf ⟨7, 0x3FB99999, 0x9999999A⟩ = some ⟨0x00100000, 0, 0x3DCCCCCC⟩ := by decide +kernel
theorem test_f32x_just_subnormal : recordOf ⟨7, 0x380FFFFF, 0xFFFFFFFF⟩ = some ⟨0x00200008, 0, 0⟩ := by
  decide +kernel

theorem test_illegal_is_answered : recordOf ⟨0x0000000F, 0, 0⟩ = some ⟨15, 0, 0⟩ := by decide +kernel

/-! ## The host's text layer -/

/-- E14. The open points of the Parser do not bear on it. -/
theorem test_parse_hex : parse ['0', 'x', '1', 'A'] 16 = .ok ⟨false, 26, 0, 1⟩ := by
  cases h : Config.parserTrim <;>
    simp [parse, parseBody, isBlank, trimBlanks, h, takeSign, takePrefix, prefixRadix, parseFailures, parsedValue,
      isDigitOf, digitValue, splitDot, digitsValue]

/-- `F32X 26.5` and `TOB32 +26.5` of R72: the numbers of the mnemonic notation (R69). -/
theorem test_numbers :
    (match realOfText ['2', '6', '.', '5'] with | .ok x => x == 0x403A800000000000 | .error _ => false) = true ∧
    (match numeralOfText ['+', '2', '6', '.', '5'] with
      | .ok v => decide (v = ⟨false, 26, 0x80⟩)
      | .error _ => false) = true := by decide +kernel

/-- The examples of R133. -/
theorem test_group :
    group ['1', '0', '1', '1', '0', '1', '0', '.', '1', '0', '1', '1', '0'] 4 =
      ['1', '0', '1', ' ', '1', '0', '1', '0', '.', '1', '0', '1', '1', ' ', '0'] := by decide

/-- `0101.1000` with its trailing zeros and without them (R76), and no fraction where it is zero. -/
theorem test_fraction_text :
    textOfBinStr 4 ⟨4, 5, 8⟩ = ['0', '1', '0', '1', '.', '1', '0', '0', '0'] ∧
    textOfBinStr 0 ⟨4, 5, 8⟩ = ['0', '1', '0', '1', '.', '1'] ∧ textOfBinStr 0 ⟨4, 5, 0⟩ = ['0', '1', '0', '1'] := by
  decide

/-- `FROMBIN "1110.1000"` in the assembler's notation (R69, R72). -/
theorem test_assemble_frombin :
    (match assemble (.frombin ['1', '1', '1', '0', '.', '1', '0', '0', '0']) with
      | .ok r => decide (r = ⟨0x40001005, 0, 0xE⟩)
      | .error _ => false) = true := by decide +kernel

/-! ## Witnesses: states and operands that meet the hypotheses of the statements in
Certificates/Slice0/Obligations.lean, for each clause, at the ends of its range -/

/-- Two hosts with a request each: `ADD.4 "0111", "0001"` of host 3 and `F32X 1.0` of host 5. -/
def two : State := ⟨[⟨3, ⟨0x00041040, 1, 7⟩⟩, ⟨5, ⟨7, 0x3FF00000, 0⟩⟩], []⟩

/-- One request, of host 3. -/
def one : State := ⟨[⟨3, ⟨0x00041040, 1, 7⟩⟩], []⟩

theorem test_witness_EveryInstructionDecodesFromItsEncoding :
    (Instr.frombin 32 0xF 0xFFFFFFFF).wellFormed = true ∧ (Instr.add 1 0 1 0 1).wellFormed = true := by decide

theorem test_witness_DecodingIsInjective : decode ⟨0x7F800006, 0, 0xFFFFFFFF⟩ = .ok (.tob32 false 0xFF 0xFFFFFFFF) := by
  rfl

theorem test_witness_StepRunsTheDecodedInstruction :
    two.pending = ⟨3, ⟨0x00041040, 1, 7⟩⟩ :: [⟨5, ⟨7, 0x3FF00000, 0⟩⟩] ∧
      decode ⟨0x00041040, 1, 7⟩ = .ok (.add 4 4 4 7 1) := ⟨rfl, rfl⟩

theorem test_witness_IdleBlockStaysAsItIs : State.pending ⟨[], [⟨some 3, .fail .rangeError, []⟩]⟩ = [] := rfl

/-- The first and the last reserved operation code, and bit 31 alone. -/
theorem test_witness_ReservedRequestsAreAnsweredIllegal :
    State.pending ⟨[⟨3, ⟨8, 0, 0⟩⟩], []⟩ = ⟨3, ⟨8, 0, 0⟩⟩ :: [] ∧ 8 ≤ (8#32).toNat % 16 ∧ 8 ≤ (15#32).toNat % 16 ∧
      2 ^ 31 ≤ (0x80000000#32).toNat := by decide

/-- Legal requests at the ends of the ranges: each operation. -/
theorem test_witness_LegalRequest :
    LegalRequest ⟨0x00208200, 0xFFFFFFFF, 0xFFFFFFFF⟩ ∧ LegalRequest ⟨0x00000011, 0, 0⟩ ∧
    LegalRequest ⟨0x7FC00204, 0, 0xFFFFFFFF⟩ ∧ LegalRequest ⟨0x78008005, 0, 0xFFFFFFFF⟩ ∧
    LegalRequest ⟨0x7FC00006, 0, 0xFFFFFFFF⟩ ∧ LegalRequest ⟨7, 0xFFFFFFFF, 0xFFFFFFFF⟩ := by
  refine ⟨?_, ?_, ?_, ?_, ?_, ?_⟩ <;> (unfold LegalRequest; decide)

/-- Illegal requests: a width of 0 and of 33, a stray bit, a fraction bit and a word `B` out of place. -/
theorem test_witness_not_LegalRequest :
    ¬ LegalRequest ⟨0x00000000, 0, 0⟩ ∧ ¬ LegalRequest ⟨0x00000210, 0, 0⟩ ∧ ¬ LegalRequest ⟨0x00000410, 0, 2⟩ ∧
    ¬ LegalRequest ⟨0x04001005, 0, 8⟩ ∧ ¬ LegalRequest ⟨0x00000006, 1, 0⟩ ∧ ¬ LegalRequest ⟨0x00000017, 0, 0⟩ := by
  refine ⟨?_, ?_, ?_, ?_, ?_, ?_⟩ <;> (unfold LegalRequest; decide)

/-- Host 3 has the same request in both states, host 5 only in the first. -/
theorem test_witness_NoHostDisturbsAnother :
    two.pending.filter (fun p => p.host == 3) = one.pending.filter (fun p => p.host == 3) ∧
    two.answersTo 3 = one.answersTo 3 ∧
    ∃ t t' : State, Host.Core.run Sys2Proof.core two.pending.length two = .next t ∧
      Host.Core.run Sys2Proof.core one.pending.length one = .next t' := ⟨rfl, rfl, _, _, rfl, rfl⟩

theorem test_witness_InterleavingIsNotVisible :
    two.pending.Perm two.pending.reverse ∧ two.answers.Perm [] ∧
    ∃ t t' : State, Host.Core.run Sys2Proof.core two.pending.length two = .next t ∧
      Host.Core.run Sys2Proof.core two.pending.reverse.length (State.mk two.pending.reverse []) = .next t' :=
  ⟨(List.reverse_perm _).symm, List.Perm.refl _, _, _, rfl, rfl⟩

/-- A state with answers of every kind. -/
theorem test_witness_EveryStepKeepsAnswersWellFormed :
    State.safe ⟨two.pending, [⟨some 3, .ok (.arith 1 0 true), [.add 0 true true false false true]⟩,
      ⟨some 3, .ok (.numeral ⟨true, 0x80000000, 0xF0⟩), []⟩, ⟨some 4, .ok (.b32 [0] [31]), []⟩,
      ⟨some 5, .fail (.unsupportedSpecialValue .nan), []⟩]⟩ = true ∧ ∃ t, step two = .next t := ⟨by decide, _, rfl⟩

/-- The narrowest and the widest operands, and the most negative second operand. -/
theorem test_witness_OperandsFit :
    OperandsFit 1 1 0 ∧ OperandsFit 1 0 1 ∧ OperandsFit 32 0xFFFFFFFF 0 ∧ OperandsFit 32 0x80000000 0xFFFFFFFF ∧
    OperandsFit 4 7 8 := by unfold OperandsFit; decide

/-- Overflow and no overflow of ADD, for the two sides of R105. -/
theorem test_witness_FitsSigned :
    ¬ FitsSigned 4 (signedLow 4 7 + signedLow 4 1) ∧ FitsSigned 4 (signedLow 4 0xA + signedLow 4 5) := by
  unfold FitsSigned; decide

/-- SUB: a second operand other than the most negative pattern, and that pattern (R107). -/
theorem test_witness_SubFlagMirrorsAddOnTheNegatedOperand :
    (OperandsFit 4 5 3 ∧ (3#32).toNat ≠ 2 ^ ((4#6).toNat - 1)) ∧ OperandsFit 4 0xF 8 ∧
    (8#32).toNat = 2 ^ ((4#6).toNat - 1) := by unfold OperandsFit; decide

theorem test_witness_OverflowFormsAgree :
    1 ≤ 1 ∧ carry 1#1 1#1 1 ≠ carry 1#1 1#1 0 ∧ (rippleSum 1#1 1#1).getLsbD 0 ≠ (1#1).getLsbD 0 := by decide

theorem test_witness_NegationInvertsAndAddsOne : 1 ≤ 4 ∧ (3#4) ≠ minPattern 4 := by decide

/-- Each case of the priority order: illegal, mismatched, a zero divisor, none. -/
theorem test_witness_ArithmeticFailsInPriorityOrder :
    (wfWidth 0 && wfString 4 0 && wfString 4 0) = false ∧
    ((wfWidth 4 && wfString 3 7 && wfString 4 0) = true ∧ (3#6) ≠ 4) ∧
    ((wfWidth 4 && wfString 4 7 && wfString 4 0) = true ∧ (0#32) = 0) ∧
    ((wfWidth 32 && wfString 32 7 && wfString 32 1) = true ∧ (1#32) ≠ 0) := by decide

/-- Each failure of the matrix is delivered. -/
theorem test_witness_OperationsFailOnlyAsTheMatrixSays :
    Delivers (.add 0 0 0 0 0) two (.fail .illegalCommand) [] ∧ Delivers (.sub 4 3 4 0 0) two (.fail .widthMismatch) [] ∧
    Delivers (.mul 4 4 5 0 0) two (.fail .widthMismatch) [] ∧ Delivers (.div 4 4 4 1 0) two (.fail .divideByZero) [] ∧
    Delivers (.tobin 1 false 0 1) two (.fail .rangeError) [] ∧ Delivers (.frombin 0 0 0) two (.fail .emptyInput) [] ∧
    Delivers (.tob32 true 1 0) two (.fail .domainError) [] ∧
    Delivers (.f32x 0x7FF00000 0) two (.fail (.unsupportedSpecialValue .infinite)) [] :=
  ⟨rfl, rfl, rfl, rfl, rfl, rfl, rfl, rfl⟩

/-- DIV: the one overflow, and a division that does not overflow. -/
theorem test_witness_DivTruncatesTowardZero :
    (OperandsFit 4 8 0xF ∧ (0xF#32) ≠ 0 ∧ signedLow 4 8 = -2 ^ 3 ∧ signedLow 4 0xF = -1) ∧
    OperandsFit 32 0xFFFFFFFF 0x80000000 ∧ (0x80000000#32) ≠ 0 := by unfold OperandsFit; decide

/-- The narrowest and the widest unsigned division. -/
theorem test_witness_LeadingZeroDividesUnsigned :
    ((2#6).toNat = (1#6).toNat + 1 ∧ (1#6).toNat < 32 ∧ (1#32).toNat < 2 ^ (1#6).toNat ∧ (1#32) ≠ 0) ∧
    ((32#6).toNat = (31#6).toNat + 1 ∧ (31#6).toNat < 32 ∧ (0x7FFFFFFF#32).toNat < 2 ^ (31#6).toNat ∧
      (0x7FFFFFFF#32) ≠ 0) := by decide

/-- TOBIN: a width above 32; the last number that fits and the first that does not, of either sign. -/
theorem test_witness_TobinEncodesOrFailsOutOfRange :
    32 < (33#6).toNat ∧ ((32#6).toNat ≤ 32 ∧ 32 = if (0#6).toNat = 0 then 32 else (0#6).toNat) ∧
    Delivers (.tobin 4 false 0xFF 7) two (.ok (.binStr ⟨4, 7, 0xF⟩)) [] ∧
    Delivers (.tobin 4 false 0xFF 8) two (.fail .rangeError) [] ∧
    Delivers (.tobin 4 true 0 8) two (.ok (.binStr ⟨4, 8, 0⟩)) [] ∧
    Delivers (.tobin 4 true 0 9) two (.fail .rangeError) [] :=
  ⟨by decide, by decide, rfl, rfl, rfl, rfl⟩

theorem test_witness_FrombinReadsTwosComplement :
    wfString 33 0 = false ∧ (wfString 0 0 = true ∧ (0#6) = 0) ∧ wfString 1 1 = true ∧ wfString 32 0x80000000 = true := by
  decide

theorem test_witness_StringRoundTrip :
    (1 ≤ (1#6).toNat ∧ (1#6).toNat ≤ 32 ∧ (1#32).toNat < 2 ^ (1#6).toNat) ∧
    (1 ≤ (32#6).toNat ∧ (32#6).toNat ≤ 32 ∧ (0x80000000#32).toNat < 2 ^ (32#6).toNat) := by decide

/-- A Numeral that fits, at either end, and one that does not; one that comes back and two that do not. -/
theorem test_witness_NumeralRoundTripExactlyWhenRepresentable :
    (1 ≤ (4#6).toNat ∧ (4#6).toNat ≤ 32) ∧ (8#32).toNat ≤ 2 ^ ((4#6).toNat - 1) ∧
    ¬ (8#32).toNat ≤ 2 ^ ((4#6).toNat - 1) - 1 ∧ (0x80#8).toNat % 2 ^ 4 = 0 ∧ (0x18#8).toNat % 2 ^ 4 ≠ 0 ∧
    (Numeral.mk true 0 0x80).imag = 0 := by decide

theorem test_witness_Tob32GivesTheBase32Digits :
    (true = true ∧ ((0#32) ≠ 0 ∨ (1#8) ≠ 0)) ∧ ¬ (true = true ∧ ((0#32) ≠ 0 ∨ (0#8) ≠ 0)) := by decide

/-- The fewest symbols and the most (R64, R99). -/
theorem test_witness_Base32SymbolsStandForTheValue :
    Delivers (.tob32 true 0 0) two (.ok (.b32 [0] [0])) [] ∧
    Delivers (.tob32 false 0xFF 0xFFFFFFFF) two (.ok (.b32 [31, 31, 31, 31, 31, 31, 3] [31])) [] := ⟨rfl, rfl⟩

/-- The operands at the ends of the classes (R92): the exponent fields 0, 896, 897, 1150, 1151, 2046 and 2047. -/
theorem test_witness_F32xExtractsOrClassifies :
    (0x7FF00000#32).toNat / 2 ^ 20 % 2 ^ 11 = 2047 ∧ (0x7FE00000#32).toNat / 2 ^ 20 % 2 ^ 11 = 2046 ∧
    (0x47F00000#32).toNat / 2 ^ 20 % 2 ^ 11 = 1151 ∧ (0x47EFFFFF#32).toNat / 2 ^ 20 % 2 ^ 11 = 1150 ∧
    (0x38100000#32).toNat / 2 ^ 20 % 2 ^ 11 = 897 ∧ (0x380FFFFF#32).toNat / 2 ^ 20 % 2 ^ 11 = 896 ∧
    (0x80000000#32).toNat / 2 ^ 20 % 2 ^ 11 = 0 := by decide

/-- The smallest and the largest normal result. -/
theorem test_witness_F32xTruncatesByLessThanOneUnit :
    Delivers (.f32x 0x38100000 0) two (.ok (.f754 .normal ⟨false, 1, 0⟩)) [] ∧ (0#32).toNat % 2 ^ 29 = 0 ∧
    Delivers (.f32x 0xC7EFFFFF 0xFFFFFFFF) two (.ok (.f754 .normal ⟨true, 254, 0x7FFFFF⟩)) [] :=
  ⟨rfl, rfl, rfl⟩

/-- The smallest Numeral above zero, and the largest (R91). -/
theorem test_witness_NumeralsConvertExactlyAndAreNormal :
    (binary64OfNumeral ⟨false, 0, 1⟩ = 0x3F70000000000000 ∧ ((0#32) ≠ 0 ∨ (1#8) ≠ 0)) ∧
    (binary64OfNumeral ⟨true, 26, 0x80⟩ = 0xC03A800000000000 ∧ ((26#32) ≠ 0 ∨ (0x80#8) ≠ 0)) := by decide +kernel

/-- An overflow, a result with a trace, and a failure without one, delivered. -/
theorem test_witness_RecordCountsTheTrace :
    Delivers (.add 1 1 1 1 1) two (.ok (.arith 1 0 true)) [.add 0 true true false false true] ∧
    (Answer.record ⟨none, .ok (.arith 1 0 true), [.add 0 true true false false true]⟩).s.getLsbD 4 = true ∧
    Delivers (.mul 1 1 1 1 1) two (.ok (.arith 1 1 true)) [.mul 0 true 1 1] ∧
    Delivers (.div 1 1 1 0 1) two (.ok (.arith 1 0 false)) [.div 0 false false 0] ∧
    Delivers (.frombin 4 8 0xE) two (.ok (.numeral ⟨true, 2, 0x80⟩)) [] ∧
    Delivers (.f32x 0x80000000 0) two (.ok (.f754 .zero ⟨true, 0, 0⟩)) [] :=
  ⟨rfl, by decide, rfl, rfl, rfl, rfl⟩

/-- A record of each `KIND`, and of SUB, at the first position and the last of its operation. -/
theorem test_witness_TraceRecordsLoseNothing :
    Delivers (.sub 1 1 1 0 1) two (.ok (.arith 1 1 false)) [.add 0 false true false true false] ∧
    Delivers (.add 1 1 1 1 1) two (.ok (.arith 1 0 true)) [.add 0 true true false false true] ∧
    Delivers (.mul 2 2 2 2 1) two (.ok (.arith 2 2 false)) [.mul 0 true 2 2, .mul 1 false 0 2] ∧
    Delivers (.div 2 2 2 1 1) two (.ok (.arith 2 1 false)) [.div 1 false false 0, .div 0 true true 0] :=
  ⟨rfl, rfl, rfl, rfl⟩

/-- A success of each kind that `test_witness_RecordCountsTheTrace` does not show, and a failure. -/
theorem test_witness_ResponseRecordLosesNothing :
    Delivers (.tobin 4 true 0x80 2) two (.ok (.binStr ⟨4, 0xE, 8⟩)) [] ∧
    Delivers (.tob32 false 0x80 26) two (.ok (.b32 [26] [16])) [] ∧
    Delivers (.f32x 0x403A8000 0) two (.ok (.f754 .normal ⟨false, 131, 0x540000⟩)) [] ∧
    Delivers (.f32x 0x7FF80000 0) two (.fail (.unsupportedSpecialValue .nan)) [] := ⟨rfl, rfl, rfl, rfl⟩

/-- No fraction characters at all, and more than there are. -/
theorem test_witness_BinaryStringTextRoundTrip :
    (BinStr.mk 0 0 0xF).len ≤ 32 ∧ (BinStr.mk 32 0x80000000 1).len ≤ 32 := by decide

/-- `0.9`, and `9` with no `.`. -/
theorem test_witness_DecimalTextParsesToItsValue :
    (∀ d ∈ [('0', 0)] ++ [('9', 9)], DigitOf d.1 d.2 ∧ d.2 < 10) ∧ [('0', 0)] ≠ [] ∧
    ['.', '9'] = '.' :: [('9', 9)].map Prod.fst ∧
    (∀ d ∈ [('9', 9)] ++ [], DigitOf d.1 d.2 ∧ d.2 < 10) ∧ [('9', 9)] ≠ [] := by simp [DigitOf]

/-- A text with groups on both sides of its `.`, cut by 1 and by 4. -/
theorem test_witness_GroupingIsIdempotent :
    ' ' ∉ ['1', '0', '.', '1'] ∧ '.' ∉ ['1', '0', '1', '1', '0'] ∧ '.' ∉ ([] : List Char) ∧ 1 ≤ 1 ∧ 1 ≤ 4 := by decide

/-- The digits at the ends of each radix, letters in either case; a text with a `.` and no digits after it; a text at
radix 16 that begins with `0` and not with `0b`. -/
theorem test_witness_DigitTextParsesToItsValue :
    (∀ d ∈ [('1', 1), ('0', 0)] ++ [], DigitOf d.1 d.2 ∧ d.2 < 2) ∧
    (∀ d ∈ [('7', 7)] ++ [('0', 0)], DigitOf d.1 d.2 ∧ d.2 < 8) ∧
    (∀ d ∈ [('0', 0), ('f', 15), ('F', 15)] ++ [('a', 10), ('A', 10)], DigitOf d.1 d.2 ∧ d.2 < 16) ∧
    ['.'] = '.' :: ([] : List (Char × Nat)).map Prod.fst ∧
    ¬ ([('0', 0), ('f', 15), ('F', 15)].map Prod.snd).take 2 = [0, 11] := by simp [DigitOf]

/-- `0b` before octal digits, `0o` before hexadecimal ones, `0x` before decimal ones; `1G` at radix 16, `18` at
radix 8. -/
theorem test_witness_ParserFailsAsItsRulesSay :
    (2 ≠ 8 ∧ ∀ d ∈ [('7', 7)], DigitOf d.1 d.2 ∧ d.2 < 8) ∧
    (8 ≠ 16 ∧ ∀ d ∈ [('f', 15)], DigitOf d.1 d.2 ∧ d.2 < 16) ∧
    (16 ≠ 10 ∧ ∀ d ∈ [('9', 9)], DigitOf d.1 d.2 ∧ d.2 < 10) ∧
    DigitOf '1' 1 ∧ DigitOf 'F' 15 ∧ (∃ x ∈ ['G'], ∀ u : Nat, DigitOf x u → 16 ≤ u) ∧
    (∃ x ∈ ['8'], ∀ u : Nat, DigitOf x u → 8 ≤ u) ∧ ' ' ∉ ['G', '8'] ∧ '.' ∉ ['G', '8'] := by
  refine ⟨?_, ?_, ?_, ?_, ?_, ⟨'G', by simp, fun u h => ?_⟩, ⟨'8', by simp, fun u h => ?_⟩, by decide, by decide⟩ <;>
    simp [DigitOf] at * <;> omega

theorem test_witness_ZeroPaddingChangesNegativePatterns :
    (1 ≤ 4 ∧ 4 < 8) ∧ (8#4).msb = true ∧ (7#4).msb = false := by decide

end Sys2Proof.Tests
end

section
/-! The step of a state that is not written out as a pair of lists, and the statements about the machine as a whole
(spec/10_state.md): what one step does depends on the oldest request and on nothing else. -/

namespace Sys2Proof.Proofs

open Sys2Proof Sys2Proof.Machine

/-- The block takes the oldest request presented (R15). -/
theorem fetch_of_pending_cons {s : State} {p : Presented} {ps : List Presented} (h : s.pending = p :: ps) :
    s.fetch = some p.req := by
  rw [State.fetch, h]
  rfl

/-- A step on a request that decodes, not yet evaluated: `step_cons` gives its next state. -/
theorem step_of_fetch_of_decode {s : State} {r : Request} {i : Instr} (hf : s.fetch = some r)
    (hd : decode r = .ok i) : step s = exec i s := by
  rw [step, hf]
  simp only [hd]

/-- `step_cons` for a state of which only the pending requests are known. -/
theorem step_of_pending_cons {s : State} {p : Presented} {ps : List Presented} (h : s.pending = p :: ps) :
    step s = .next ⟨ps, s.answers ++
      [⟨some p.host, (outcomeOf (resultOfRequest p.req)).1, (outcomeOf (resultOfRequest p.req)).2⟩]⟩ := by
  obtain ⟨pending, answers⟩ := s
  subst h
  exact step_cons p ps answers

/-- Settles O10: the function is the outcome of the request's result, in which neither the state nor the host
occurs. -/
theorem answerIsAFunctionOfTheRequest : Obligations.AnswerIsAFunctionOfTheRequest :=
  ⟨fun r => outcomeOf (resultOfRequest r), fun _ _ _ hpending => step_of_pending_cons hpending⟩

/-- Settles O6. -/
theorem stepRunsTheDecodedInstruction : Obligations.StepRunsTheDecodedInstruction :=
  fun _ _ _ _ hpending hdecode => step_of_fetch_of_decode (fetch_of_pending_cons hpending) hdecode

/-- Settles O11: an idle step stays where it is, any other answers the oldest request. -/
theorem everyStepGoesOn : Obligations.EveryStepGoesOn := by
  rintro ⟨pending, answers⟩
  cases pending with
  | nil => exact ⟨_, step_nil answers⟩
  | cons p ps => exact ⟨_, step_cons p ps answers⟩

end Sys2Proof.Proofs
end

section
/-! Encoding and decoding (spec/30_encoding.md R46, R50, R51, R56) and the byte order of stored records
(spec/20_memory.md R33). A record's bytes are compared with `storedBytes`, the bytes of one number, a word at a time. -/

namespace Sys2Proof.Proofs

open Sys2Proof Sys2Proof.Machine

/-! ## Bytes of a word -/

/-- The `count` lowest bytes of `n`, least significant first (R33). -/
def storedBytes (count n : Nat) : List Byte := (List.range count).map fun k => BitVec.ofNat 8 (n / 2 ^ (8 * k))

/-- Byte `k` of a word is byte `k` of any number whose low 32 bits are the word. -/
theorem extractLsb'_eq_ofNat_div (x : Word) (n k : Nat) (hk : k < 4) :
    x.extractLsb' (8 * k) 8 = BitVec.ofNat 8 ((x.toNat + 2 ^ 32 * n) / 2 ^ (8 * k)) := by
  apply BitVec.eq_of_toNat_eq
  rw [BitVec.extractLsb'_toNat, BitVec.toNat_ofNat, Nat.shiftRight_eq_div_pow]
  interval_cases k <;> omega

/-- Byte `4 + k` of a number is byte `k` of what stands above its low 32 bits. -/
theorem div_pow_byte_add_four (x : Word) (n k : Nat) :
    (x.toNat + 2 ^ 32 * n) / 2 ^ (8 * (4 + k)) = n / 2 ^ (8 * k) := by
  rw [Nat.mul_add, Nat.pow_add, ← Nat.div_div_eq_div_mul, Nat.add_mul_div_left _ _ (by decide),
    Nat.div_eq_of_lt x.isLt, Nat.zero_add]

/-- A word stored in front of a number's bytes is the low word of the whole (R33). -/
theorem wordBytes_append_storedBytes (x : Word) (m n : Nat) :
    wordBytes x ++ storedBytes m n = storedBytes (4 + m) (x.toNat + 2 ^ 32 * n) := by
  have low : wordBytes x =
      (List.range 4).map fun k => BitVec.ofNat 8 ((x.toNat + 2 ^ 32 * n) / 2 ^ (8 * k)) := by
    rw [← List.map_congr_left fun k hk => extractLsb'_eq_ofNat_div x n k (List.mem_range.mp hk)]
    rfl
  have high : storedBytes m n =
      (List.range m).map fun k => BitVec.ofNat 8 ((x.toNat + 2 ^ 32 * n) / 2 ^ (8 * (4 + k))) := by
    simp only [storedBytes, div_pow_byte_add_four]
  rw [low, high, storedBytes, List.range_add, List.map_append, List.map_map]
  rfl

/-- The bytes of a word alone. -/
theorem wordBytes_eq_storedBytes (x : Word) : wordBytes x = storedBytes 4 x.toNat := by
  simpa [storedBytes] using wordBytes_append_storedBytes x 0 0

/-- A stored word reads back (R33). -/
theorem wordOfBytes_wordBytes (x : Word) :
    wordOfBytes (x.extractLsb' 0 8) (x.extractLsb' 8 8) (x.extractLsb' 16 8) (x.extractLsb' 24 8) = x := by
  apply BitVec.eq_of_getLsbD_eq
  intro i hi
  simp only [wordOfBytes, BitVec.getLsbD_or, getLsbD_place _ _ _ hi, BitVec.getLsbD_extractLsb']
  interval_cases i <;> simp

/-! ## Bytes of a record -/

/-- Three words stored one after the other are the bytes of one number, the first word lowest (R33). -/
theorem threeWords_bytes_eq (x y z : Word) :
    wordBytes x ++ wordBytes y ++ wordBytes z =
      storedBytes 12 (x.toNat + 2 ^ 32 * y.toNat + 2 ^ 64 * z.toNat) := by
  rw [List.append_assoc, wordBytes_eq_storedBytes z, wordBytes_append_storedBytes, wordBytes_append_storedBytes]
  exact congrArg (storedBytes 12) (by ring)

/-- A stored trace record is the bytes of one number, `T0` lowest (R33). -/
theorem traceWords_bytes_eq (r : TraceWords) :
    r.bytes = storedBytes 20 (r.t0.toNat + 2 ^ 32 * r.t1.toNat + 2 ^ 64 * r.t2.toNat + 2 ^ 96 * r.t3.toNat +
      2 ^ 128 * r.t4.toNat) := by
  simp only [TraceWords.bytes, List.append_assoc]
  rw [wordBytes_eq_storedBytes r.t4, wordBytes_append_storedBytes, wordBytes_append_storedBytes,
    wordBytes_append_storedBytes, wordBytes_append_storedBytes]
  exact congrArg (storedBytes 20) (by ring)

/-- A stored request reads back (R33). -/
theorem ofBytes?_bytes (r : Request) : Request.ofBytes? r.bytes = some r := by
  obtain ⟨ctl, b, a⟩ := r
  show some (Request.mk (wordOfBytes _ _ _ _) (wordOfBytes _ _ _ _) (wordOfBytes _ _ _ _)) = _
  rw [wordOfBytes_wordBytes, wordOfBytes_wordBytes, wordOfBytes_wordBytes]

/-- Settles O5: each record is the bytes of one number, built a word at a time. -/
theorem recordsAreStoredLittleEndian : Obligations.RecordsAreStoredLittleEndian := by
  refine ⟨fun r => ⟨?request, ofBytes?_bytes r⟩, fun r => ?response, traceWords_bytes_eq, fun x => ?trace⟩
  case request => exact threeWords_bytes_eq r.ctl r.b r.a
  case response => exact threeWords_bytes_eq r.s r.r1 r.r0
  case trace =>
    rw [Answer.traceBytes, Answer.traceWords, List.map_map]
    rfl

/-! ## Decoding -/

/-- The operation map read backwards (R50). -/
theorem ofCode?_code (o : Op) : Op.ofCode? o.code = some o := by cases o <;> rfl

/-- Every row's mask covers `CTL[31]`, where every row's match value is zero (R50, R58). -/
theorem reserved_of_row {r : Request} {o : Op} (h : r.ctl &&& o.mask = o.matchWord) : r.reserved = false := by
  have bit31 : o.mask.getLsbD 31 = true ∧ o.matchWord.getLsbD 31 = false := by cases o <;> decide
  obtain ⟨hmask, hmatch⟩ := bit31
  rw [← h, BitVec.getLsbD_and, hmask, Bool.and_true] at hmatch
  exact hmatch

/-- Every row's mask covers the field `OP`, where the row's match value is the operation's code (R50). -/
theorem op_of_row {r : Request} {o : Op} (h : r.ctl &&& o.mask = o.matchWord) : r.op = o.code := by
  have field : o.mask.extractLsb' 0 4 = BitVec.allOnes 4 ∧ o.matchWord.extractLsb' 0 4 = o.code := by
    cases o <;> decide
  obtain ⟨hmask, hmatch⟩ := field
  rw [← hmatch, ← h, BitVec.extractLsb'_and, hmask, BitVec.and_allOnes]
  rfl

/-- A row's match value has no bit outside the field `OP`, so the unused fields are zero (R50, R51). -/
theorem mbz_of_row {r : Request} {o : Op} (h : r.ctl &&& o.mask = o.matchWord) : r.ctl &&& o.mbzMask = 0 := by
  rw [Op.mbzMask, ← BitVec.and_assoc, h]
  cases o <;> decide

/-- A request that holds the fixed bits of a row of the operation map decodes to the row's fields (R50, R51, R56). -/
theorem decode_of_row {r : Request} {o : Op} (h : r.ctl &&& o.mask = o.matchWord)
    (hb : o.usesB = false → r.b = 0) : decode r = .ok (o.read r) := by
  have hword : ¬ (o.usesB = false ∧ r.b ≠ 0) := fun ⟨huses, hne⟩ => hne (hb huses)
  simp only [decode, reserved_of_row h, op_of_row h, ofCode?_code, mbz_of_row h, if_neg hword, Bool.false_eq_true,
    if_false, ne_eq, not_true]

/-- Every encoding is a request of its own row (R50, R51). -/
theorem encodesItsRow (i : Instr) : Laws.EncodesItsRow.Statement i := by
  cases i with
  | add w alen blen a b => exact Laws.EncodesItsRow.add w alen blen a b
  | sub w alen blen a b => exact Laws.EncodesItsRow.sub w alen blen a b
  | mul w alen blen a b => exact Laws.EncodesItsRow.mul w alen blen a b
  | div w alen blen a b => exact Laws.EncodesItsRow.div w alen blen a b
  | tobin w sgn fr a => exact Laws.EncodesItsRow.tobin w sgn fr a
  | frombin alen frac a => exact Laws.EncodesItsRow.frombin alen frac a
  | tob32 sgn fr a => exact Laws.EncodesItsRow.tob32 sgn fr a
  | f32x b a => exact Laws.EncodesItsRow.f32x b a

/-- The fraction of FROMBIN, put in `FR[7:4]`, is read from there (R53). -/
theorem extractLsb'_setWidth_shiftLeft (frac : BitVec 4) : (frac.setWidth 8 <<< 4).extractLsb' 4 4 = frac := by
  revert frac
  decide

/-- The fields of an encoding, read back at the row of its operation (R50). -/
theorem read_encode (i : Instr) : i.op.read (encode i) = i := by
  cases i with
  | frombin alen frac a =>
    simp only [encode, Instr.op, Op.read, ctlWord_alen, ctlWord_fr, extractLsb'_setWidth_shiftLeft]
  | _ => simp only [encode, Instr.op, Op.read, ctlWord_w, ctlWord_alen, ctlWord_blen, ctlWord_sgn, ctlWord_fr]

/-- Decoding an encoded instruction gives it back, well formed or not (R50, R51). -/
theorem decode_encode (i : Instr) : decode (encode i) = .ok i := by
  obtain ⟨hrow, hb⟩ := encodesItsRow i
  rw [decode_of_row hrow hb, read_encode]

/-- Decoding the bytes of a request decodes the request (R33). -/
theorem decodeBytes_bytes (r : Request) : decodeBytes r.bytes = decode r := by
  rw [decodeBytes, ofBytes?_bytes]

/-- A request that decodes to a well-formed instruction passes every check (R56). -/
theorem decodeLegal_of_wellFormed {r : Request} {i : Instr} (hd : decode r = .ok i) (hwf : i.wellFormed = true) :
    decodeLegal r = .ok i := by
  simp only [decodeLegal, hd, (illegal?_eq_none_iff_wellFormed i).mpr hwf]

/-- Settles O1: an encoding holds the fixed bits of its operation's row, and the row's fields are those encoded. -/
theorem everyInstructionDecodesFromItsEncoding : Obligations.EveryInstructionDecodesFromItsEncoding :=
  ⟨fun i => ⟨decode_encode i, (decodeBytes_bytes _).trans (decode_encode i)⟩,
    fun i hwf => decodeLegal_of_wellFormed (decode_encode i) hwf⟩

end Sys2Proof.Proofs
end

section
/-! Runs that answer every pending request, and what hosts see of one another (spec/20_memory.md R39, R40): the
final state in closed form, from which the statements on several hosts follow as facts about lists. -/

namespace Sys2Proof.Proofs

open Sys2Proof Sys2Proof.Machine

/-- The answer to a presented request: a function of the request, delivered to its host (R13, R40). -/
def answerOf (p : Presented) : Answer :=
  ⟨some p.host, (outcomeOf (resultOfRequest p.req)).1, (outcomeOf (resultOfRequest p.req)).2⟩

/-- As many steps as requests are pending answer them all, oldest first. -/
theorem run_pending (ps : List Presented) (xs : List Answer) :
    Host.Core.run Sys2Proof.core ps.length (State.mk ps xs) = .next (State.mk [] (xs ++ ps.map answerOf)) := by
  induction ps generalizing xs with
  | nil => rw [List.map_nil, List.append_nil]; exact run_zero _
  | cons p ps ih =>
    calc Host.Core.run Sys2Proof.core (ps.length + 1) (State.mk (p :: ps) xs)
        = Host.Core.run Sys2Proof.core ps.length (State.mk ps (xs ++ [answerOf p])) :=
          run_succ _ _ _ (step_cons p ps xs)
      _ = .next (State.mk [] (xs ++ [answerOf p] ++ ps.map answerOf)) := ih _
      _ = .next (State.mk [] (xs ++ (p :: ps).map answerOf)) := by
          rw [List.append_assoc, List.map_cons, List.singleton_append]

/-- The answers after such a run. -/
theorem answers_of_run_pending {s t : State} (h : Host.Core.run Sys2Proof.core s.pending.length s = .next t) :
    t.answers = s.answers ++ s.pending.map answerOf := by
  obtain ⟨pending, answers⟩ := s
  have hnext := (run_pending pending answers).symm.trans h
  injection hnext with ht
  rw [← ht]

/-- Settles O12. -/
theorem runAnswersEveryRequestInOrder : Obligations.RunAnswersEveryRequestInOrder :=
  ⟨fun r => outcomeOf (resultOfRequest r), fun s => run_pending s.pending s.answers⟩

/-- The answers to one host are the answers to its requests. -/
theorem filter_map_answerOf (ps : List Presented) (h : HostId) :
    (ps.map answerOf).filter (fun x => x.host == some h) = (ps.filter fun p => p.host == h).map answerOf := by
  rw [List.filter_map]
  rfl

/-- What a host holds after such a run: what it held, and the answers to its own requests (R40). -/
theorem answersTo_of_run_pending {s t : State} (h : HostId)
    (hrun : Host.Core.run Sys2Proof.core s.pending.length s = .next t) :
    t.answersTo h = s.answersTo h ++ (s.pending.filter fun p => p.host == h).map answerOf := by
  rw [State.answersTo, answers_of_run_pending hrun, List.filter_append, filter_map_answerOf, State.answersTo]

/-- Settles O13: what a host holds at the end mentions no other host. -/
theorem noHostDisturbsAnother : Obligations.NoHostDisturbsAnother := by
  intro h s s' t t' hpending hanswers hrun hrun'
  rw [answersTo_of_run_pending h hrun, answersTo_of_run_pending h hrun', hanswers, hpending]

/-- Settles O14: each request's answer is its own, so a permutation of the requests permutes the answers. -/
theorem interleavingIsNotVisible : Obligations.InterleavingIsNotVisible := by
  intro s s' t t' hpending hanswers hrun hrun'
  rw [answers_of_run_pending hrun, answers_of_run_pending hrun']
  exact hanswers.append (hpending.map answerOf)

end Sys2Proof.Proofs
end

section
/-! Decoding read backwards (spec/30_encoding.md R50, R51, R56): what a request that decodes holds. The bits a row's
mask fixes are read off the row; the encoder puts every other bit back where the decoder read it. -/

namespace Sys2Proof.Proofs

open Sys2Proof Sys2Proof.Machine

/-! ## Rows of the operation map -/

/-- A code selects the operation whose code it is, and no other (R50, R57). -/
theorem ofCode?_eq_some_iff (c : BitVec 4) (o : Op) : Op.ofCode? c = some o ↔ c = o.code := by
  revert c
  cases o <;> decide

/-- The operation of the fields read at a row is the row's (R50). -/
theorem op_read (o : Op) (r : Request) : (o.read r).op = o := by cases o <;> rfl

/-- A row's mask is the field `OP` and the bits that must be zero (R50, R56). -/
theorem and_mask (o : Op) (x : Word) : x &&& o.mask = x &&& o.mbzMask ||| x &&& 0xF#32 := by
  have hmask : o.mask = o.mbzMask ||| 0xF#32 := by cases o <;> decide
  rw [hmask, BitVec.and_or_distrib_left]

/-- The field `OP`, in place (R46). -/
theorem and_opField (r : Request) : r.ctl &&& 0xF#32 = r.op.setWidth 32 := by
  apply BitVec.eq_of_getLsbD_eq
  intro i hi
  rw [Request.op, BitVec.getLsbD_and, BitVec.getLsbD_setWidth, BitVec.getLsbD_extractLsb']
  interval_cases i <;> simp

/-- A request decodes to `i` exactly when it holds the fixed bits of the row of `i` and the row's fields are those of
`i` (R50, R51). -/
theorem decode_eq_ok_iff (r : Request) (i : Instr) :
    decode r = .ok i ↔
      i = i.op.read r ∧ r.ctl &&& i.op.mask = i.op.matchWord ∧ (i.op.usesB = false → r.b = 0) := by
  constructor
  · intro h
    rw [decode] at h
    split at h
    next => cases h
    next =>
      split at h
      next => cases h
      next o hcode =>
        split_ifs at h with hmbz hword
        cases h
        rw [op_read]
        refine ⟨rfl, ?row, fun huses => by_contra fun hne => hword ⟨huses, hne⟩⟩
        case row =>
          calc r.ctl &&& o.mask = r.ctl &&& o.mbzMask ||| r.ctl &&& 0xF#32 := and_mask o r.ctl
            _ = 0#32 ||| r.op.setWidth 32 := by rw [not_not.mp hmbz, and_opField]; rfl
            _ = o.matchWord := by rw [BitVec.zero_or, (ofCode?_eq_some_iff _ _).mp hcode, Op.matchWord]
  · rintro ⟨hread, hrow, hb⟩
    rw [decode_of_row hrow hb, ← hread]

/-- A row of the operation map as one equivalence (R50, R51). -/
theorem decode_eq_read_iff (o : Op) (r : Request) :
    decode r = .ok (o.read r) ↔ r.ctl &&& o.mask = o.matchWord ∧ (o.usesB = false → r.b = 0) := by
  rw [decode_eq_ok_iff, op_read]
  exact and_iff_right rfl

/-- The row of an operation that uses the word `B`. -/
theorem decode_eq_read_iff_of_usesB {o : Op} (huses : o.usesB = true) (r : Request) :
    decode r = .ok (o.read r) ↔ r.ctl &&& o.mask = o.matchWord := by
  rw [decode_eq_read_iff, huses]
  exact and_iff_left fun h => Bool.noConfusion h

/-- The row of an operation that does not use the word `B` (R51). -/
theorem decode_eq_read_iff_of_not_usesB {o : Op} (huses : o.usesB = false) (r : Request) :
    decode r = .ok (o.read r) ↔ r.ctl &&& o.mask = o.matchWord ∧ r.b = 0 := by
  rw [decode_eq_read_iff, huses]
  exact and_congr_right fun _ => forall_prop_of_true rfl

/-- A part of a field is a field. -/
theorem extractLsb'_extractLsb'_add (x : Word) {lo n lo' n' : Nat} (h : lo' + n' ≤ n) :
    (x.extractLsb' lo n).extractLsb' lo' n' = x.extractLsb' (lo + lo') n' := by
  apply BitVec.eq_of_getLsbD_eq
  intro i hi
  have hi' : lo' + i < n := by omega
  simp only [BitVec.getLsbD_extractLsb', hi, hi', decide_true, Bool.true_and, Nat.add_assoc]

/-- `FR[7:4]` is `CTL[30:27]` (R46, R53). -/
theorem fr_high (r : Request) : r.fr.extractLsb' 4 4 = r.ctl.extractLsb' 27 4 := by
  rw [Request.fr, extractLsb'_extractLsb'_add _ (by decide)]

/-- Settles O3: each conjunct is a row, its mask, match value and fields written out. -/
theorem decodeFollowsTheOperationMap : Obligations.DecodeFollowsTheOperationMap := fun r =>
  ⟨decode_eq_read_iff_of_usesB (o := .add) rfl r, decode_eq_read_iff_of_usesB (o := .sub) rfl r,
    decode_eq_read_iff_of_usesB (o := .mul) rfl r, decode_eq_read_iff_of_usesB (o := .div) rfl r,
    decode_eq_read_iff_of_not_usesB (o := .tobin) rfl r,
    fr_high r ▸ decode_eq_read_iff_of_not_usesB (o := .frombin) rfl r,
    decode_eq_read_iff_of_not_usesB (o := .tob32) rfl r, decode_eq_read_iff_of_usesB (o := .f32x) rfl r⟩

/-! ## A request is put back from the fields read -/

/-- `CTL` is its fields, where bit 31 is zero (R46). -/
theorem ctlWord_fields {r : Request} (h : r.reserved = false) :
    ctlWord r.op r.w r.alen r.blen r.sgn r.fr = r.ctl := by
  apply BitVec.eq_of_getLsbD_eq
  intro i hi
  have h31 : r.ctl[31] = false := h
  rw [getLsbD_ctlWord _ _ _ _ _ _ _ hi, Request.op, Request.w, Request.alen, Request.blen, Request.sgn, Request.fr]
  simp only [BitVec.getLsbD_extractLsb']
  interval_cases i <;> simp [h31]

/-- A field that a mask covers holds what the match value holds there. -/
theorem extractLsb'_of_and_eq {x mask value : Word} (h : x &&& mask = value) (lo n : Nat)
    (hmask : mask.extractLsb' lo n = BitVec.allOnes n) : x.extractLsb' lo n = value.extractLsb' lo n := by
  rw [← h, BitVec.extractLsb'_and, hmask, BitVec.and_allOnes]

/-- The match value of a row is zero above the field `OP` (R50). -/
theorem matchWord_extractLsb' (o : Op) {lo : Nat} (n : Nat) (hlo : 4 ≤ lo) : o.matchWord.extractLsb' lo n = 0#n := by
  apply BitVec.eq_of_getLsbD_eq
  intro i hi
  rw [Op.matchWord, BitVec.getLsbD_extractLsb', BitVec.getLsbD_setWidth, BitVec.getLsbD_of_ge _ _ (by omega)]
  simp

section Row

variable {r : Request} {o : Op} (h : r.ctl &&& o.mask = o.matchWord)

include h

/-- The bits above `OP` that a row's mask covers are zero (R51). -/
theorem extractLsb'_of_row {lo n : Nat} (hlo : 4 ≤ lo) (hmask : o.mask.extractLsb' lo n = BitVec.allOnes n) :
    r.ctl.extractLsb' lo n = 0#n := by
  rw [extractLsb'_of_and_eq h lo n hmask, matchWord_extractLsb' o n hlo]

/-- `W` is zero where the row does not use it (R51). -/
theorem w_of_row (hmask : o.mask.extractLsb' 4 6 = BitVec.allOnes 6) : r.w = 0 :=
  extractLsb'_of_row h (by decide) hmask

/-- `ALEN` is zero where the row does not use it (R51). -/
theorem alen_of_row (hmask : o.mask.extractLsb' 10 6 = BitVec.allOnes 6) : r.alen = 0 :=
  extractLsb'_of_row h (by decide) hmask

/-- `BLEN` is zero where the row does not use it (R51). -/
theorem blen_of_row (hmask : o.mask.extractLsb' 16 6 = BitVec.allOnes 6) : r.blen = 0 :=
  extractLsb'_of_row h (by decide) hmask

/-- `SGN` is zero where the row does not use it (R51). -/
theorem sgn_of_row (hmask : o.mask.extractLsb' 22 1 = BitVec.allOnes 1) : r.sgn = false := by
  have hbit := congrArg (·.getLsbD 0) (extractLsb'_of_row h (by decide) hmask)
  simpa [Request.sgn] using hbit

/-- `FR` is zero where the row does not use it (R51). -/
theorem fr_of_row (hmask : o.mask.extractLsb' 23 8 = BitVec.allOnes 8) : r.fr = 0 :=
  extractLsb'_of_row h (by decide) hmask

/-- `FR[3:0]` is zero where the row does not use it (R51, R53). -/
theorem fr_low_of_row (hmask : o.mask.extractLsb' 23 4 = BitVec.allOnes 4) : r.fr.extractLsb' 0 4 = 0 := by
  rw [Request.fr, extractLsb'_extractLsb'_add _ (by decide)]
  exact extractLsb'_of_row h (by decide) hmask

end Row

/-- A byte whose low half is zero is its high half, in place (R53). -/
theorem setWidth_extractLsb'_shiftLeft :
    ∀ fr : BitVec 8, fr.extractLsb' 0 4 = 0 → (fr.extractLsb' 4 4).setWidth 8 <<< 4 = fr := by decide

/-- The encoder puts back the `CTL` of a request of a row: the fields the row uses were read from it, the others are
zero in both (R50, R51). -/
theorem encode_read_ctl {r : Request} {o : Op} (h : r.ctl &&& o.mask = o.matchWord) :
    (encode (o.read r)).ctl = r.ctl := by
  rw [← ctlWord_fields (reserved_of_row h), op_of_row h]
  cases o with
  | add | sub | mul | div => rw [sgn_of_row h (by decide), fr_of_row h (by decide)]; rfl
  | tobin => rw [alen_of_row h (by decide), blen_of_row h (by decide)]; rfl
  | frombin =>
    rw [w_of_row h (by decide), blen_of_row h (by decide), sgn_of_row h (by decide),
      ← setWidth_extractLsb'_shiftLeft r.fr (fr_low_of_row h (by decide))]
    rfl
  | tob32 => rw [w_of_row h (by decide), alen_of_row h (by decide), blen_of_row h (by decide)]; rfl
  | f32x =>
    rw [w_of_row h (by decide), alen_of_row h (by decide), blen_of_row h (by decide), sgn_of_row h (by decide),
      fr_of_row h (by decide)]
    rfl

/-- The encoder puts back the word `B`, which is zero where the row does not use it (R51). -/
theorem encode_read_b {r : Request} {o : Op} (hb : o.usesB = false → r.b = 0) : (encode (o.read r)).b = r.b := by
  cases o with
  | add | sub | mul | div | f32x => rfl
  | tobin | frombin | tob32 => exact (hb rfl).symm

/-- Every row uses the word `A` (R50). -/
theorem encode_read_a (o : Op) (r : Request) : (encode (o.read r)).a = r.a := by cases o <;> rfl

/-- Settles O2: the encoder puts back every word of a request that holds the fixed bits of a row. -/
theorem decodingIsInjective : Obligations.DecodingIsInjective := by
  intro r i h
  obtain ⟨hread, hrow, hb⟩ := (decode_eq_ok_iff r i).mp h
  rw [hread]
  calc encode (i.op.read r)
      = ⟨(encode (i.op.read r)).ctl, (encode (i.op.read r)).b, (encode (i.op.read r)).a⟩ := rfl
    _ = ⟨r.ctl, r.b, r.a⟩ := by rw [encode_read_ctl hrow, encode_read_b hb, encode_read_a]

/-- Settles O4. -/
theorem writtenOutRequestsDecode : Obligations.WrittenOutRequestsDecode := ⟨rfl, rfl, rfl, rfl, rfl⟩

/-! ## Requests that select no operation -/

/-- The codes 8 to 15 are reserved (R57). -/
theorem ofCode?_reserved : ∀ c : BitVec 4, 8 ≤ c.toNat → Op.ofCode? c = none := by decide

/-- `OP` as a number (R46). -/
theorem toNat_op (r : Request) : r.op.toNat = r.ctl.toNat % 16 := by
  rw [Request.op, BitVec.extractLsb'_toNat, Nat.shiftRight_zero]

/-- `CTL[31]` as a bound on the number (R46). -/
theorem reserved_iff (r : Request) : r.reserved = true ↔ 2 ^ 31 ≤ r.ctl.toNat := by
  have hmsb : r.reserved = r.ctl.msb := (BitVec.msb_eq_getLsbD_last r.ctl).symm
  rw [hmsb, BitVec.msb_eq_decide, decide_eq_true_iff]

/-- A request with `CTL[31]` set or a reserved code in `OP` selects no operation (R57, R58). -/
theorem decode_eq_error_of_reserved {r : Request} (h : 8 ≤ r.ctl.toNat % 16 ∨ 2 ^ 31 ≤ r.ctl.toNat) :
    ∃ e, decode r = .error e := by
  rw [decode]
  by_cases hbit : r.reserved = true
  · exact ⟨.reservedBit, if_pos hbit⟩
  · have hop : 8 ≤ r.op.toNat := by
      rw [toNat_op]
      exact h.resolve_right fun hge => hbit ((reserved_iff r).mpr hge)
    exact ⟨.reservedOp, by rw [if_neg hbit, ofCode?_reserved _ hop]⟩

/-- A request that does not decode is answered `IllegalCommand` (R56, R149). -/
theorem resultOfRequest_of_error {r : Request} {e : Illegal} (h : decode r = .error e) :
    resultOfRequest r = .error .illegalCommand := by
  rw [resultOfRequest, h]

/-- Settles O8: such a request does not decode. -/
theorem reservedRequestsAreAnsweredIllegal : Obligations.ReservedRequestsAreAnsweredIllegal := by
  intro s p ps hpending hreserved
  obtain ⟨e, he⟩ := decode_eq_error_of_reserved hreserved
  rw [step_of_pending_cons hpending, resultOfRequest_of_error he]
  rfl

end Sys2Proof.Proofs
end

section
/-! What an operation can deliver, said once: the successes of each operation with their traces, and the empty trace
of a failure (spec/30_encoding.md R63, R66). -/

namespace Sys2Proof.Proofs

open Sys2Proof Sys2Proof.Machine

/-! ## Successes of an operation -/

/-- The payload and the trace a success of an operation can have (R48, R63, R66): result values are left
open, the width of a pattern and the trace that belongs to it are not. -/
inductive Success : Op → Payload → Trace → Prop
  | add {w : Nat} (x y z : BitVec w) (ovf : Bool) (hpos : 1 ≤ w) (hle : w ≤ 32) :
    Success .add (.arith w z ovf) (addTrace x y)
  | sub {w : Nat} (x y z : BitVec w) (ovf : Bool) (hpos : 1 ≤ w) (hle : w ≤ 32) :
    Success .sub (.arith w z ovf) (addTrace x y)
  | mul {w : Nat} (x y z : BitVec w) (ovf : Bool) (hpos : 1 ≤ w) (hle : w ≤ 32) :
    Success .mul (.arith w z ovf) (mulTrace x y)
  | div {w : Nat} (x y z : BitVec w) (ovf : Bool) (hpos : 1 ≤ w) (hle : w ≤ 32) :
    Success .div (.arith w z ovf) (divTrace x y)
  | tobin (x : BinStr) (hle : x.len ≤ 32) : Success .tobin (.binStr x) []
  | frombin (v : Numeral) : Success .frombin (.numeral v) []
  | tob32 (a : Word) (fd : BitVec 5) : Success .tob32 (.b32 (base32Symbols a.toNat) [fd]) []
  | f32x (cls : Class754) (f : Fields754) (hcls : cls = .zero ∨ cls = .normal) : Success .f32x (.f754 cls f) []

/-- An arithmetic operation that succeeds runs on patterns of a legal width (R48, R100). -/
theorem withOperands_eq_ok {w alen blen : BitVec 6} {a b : Word} {op : (n : Nat) → BitVec n → BitVec n → OpResult}
    {q : Payload × Trace} (h : withOperands w alen blen a b op = .ok q) :
    1 ≤ w.toNat ∧ w.toNat ≤ 32 ∧ op w.toNat (a.setWidth w.toNat) (b.setWidth w.toNat) = .ok q := by
  rw [withOperands] at h
  split_ifs at h with hillegal _
  have hwf := (arithIllegal?_eq_none w alen blen a b).mp (Option.not_isSome_iff_eq_none.mp hillegal)
  simp only [wfWidth, wMax_eq, Bool.and_eq_true, decide_eq_true_eq] at hwf
  obtain ⟨⟨⟨hpos, hle⟩, -⟩, -⟩ := hwf
  exact ⟨hpos, hle, h⟩

/-- DIV succeeds with the trace of its magnitudes (R119, R120). -/
theorem divOp_eq_ok {w : Nat} {x y : BitVec w} {p : Payload} {t : Trace} (h : divOp w x y = .ok (p, t)) :
    ∃ (z : BitVec w) (ovf : Bool), p = .arith w z ovf ∧ t = divTrace (mag x) (mag y) := by
  rw [divOp] at h
  split at h
  next => cases h
  next => cases h; exact ⟨_, _, rfl, rfl⟩

/-- TOBIN succeeds with a string of the width asked for (R75). -/
theorem tobinOp_eq_ok {w : Nat} {v : Numeral} {p : Payload} {t : Trace} (h : tobinOp w v = .ok (p, t)) :
    ∃ x : BinStr, x.len = w ∧ p = .binStr x ∧ t = [] := by
  rw [tobinOp] at h
  split_ifs at h
  cases h
  exact ⟨_, rfl, rfl, rfl⟩

/-- FROMBIN succeeds with a Numeral (R78). -/
theorem frombinOp_eq_ok {x : BinStr} {p : Payload} {t : Trace} (h : frombinOp x = .ok (p, t)) :
    ∃ v : Numeral, p = .numeral v ∧ t = [] := by
  rw [frombinOp] at h
  split_ifs at h <;> cases h <;> exact ⟨_, rfl, rfl⟩

/-- TOB32 succeeds with the symbols of the magnitude and one fractional symbol (R95, R96). -/
theorem tob32Op_eq_ok {v : Numeral} {p : Payload} {t : Trace} (h : tob32Op v = .ok (p, t)) :
    p = .b32 (base32Symbols v.imag.toNat) [v.fmag.extractLsb' 3 5] ∧ t = [] := by
  rw [tob32Op] at h
  split_ifs at h
  cases h
  rw [base32Fraction_eq]
  exact ⟨rfl, rfl⟩

/-- F32X succeeds only with the classes zero and normal (R87, R88, R89). -/
theorem f32xOp_eq_ok {v : BitVec 64} {p : Payload} {t : Trace} (h : f32xOp v = .ok (p, t)) :
    ∃ (cls : Class754) (f : Fields754), (cls = .zero ∨ cls = .normal) ∧ p = .f754 cls f ∧ t = [] := by
  rw [f32xOp] at h
  split at h
  next => cases h; exact ⟨_, _, .inl rfl, rfl, rfl⟩
  next => cases h; exact ⟨_, _, .inr rfl, rfl, rfl⟩
  all_goals cases h

/-- The width of a TOBIN request that passes its check (R48, R77). -/
theorem tobinWidth_le {w : BitVec 6} (h : tobinIllegal? w = none) : tobinWidth w ≤ 32 := by
  have hle := (tobinIllegal?_eq_none w).mp h
  rw [tobinWidth, defaultW_eq]
  split_ifs
  · exact le_rfl
  · exact hle

/-- The successes of every operation. -/
theorem success_of_resultOf {i : Instr} {p : Payload} {t : Trace} (h : resultOf i = .ok (p, t)) :
    Success i.op p t := by
  cases i with
  | add w alen blen a b =>
    obtain ⟨hpos, hle, hop⟩ := withOperands_eq_ok h
    cases hop
    exact .add _ _ _ _ hpos hle
  | sub w alen blen a b =>
    obtain ⟨hpos, hle, hop⟩ := withOperands_eq_ok h
    cases hop
    exact .sub _ _ _ _ hpos hle
  | mul w alen blen a b =>
    obtain ⟨hpos, hle, hop⟩ := withOperands_eq_ok h
    cases hop
    exact .mul _ _ _ _ hpos hle
  | div w alen blen a b =>
    obtain ⟨hpos, hle, hop⟩ := withOperands_eq_ok h
    obtain ⟨z, ovf, rfl, rfl⟩ := divOp_eq_ok hop
    exact .div _ _ _ _ hpos hle
  | tobin w sgn fr a =>
    rw [resultOf] at h
    split_ifs at h with hillegal
    obtain ⟨x, hlen, rfl, rfl⟩ := tobinOp_eq_ok h
    exact .tobin x (hlen ▸ tobinWidth_le (Option.not_isSome_iff_eq_none.mp hillegal))
  | frombin alen frac a =>
    rw [resultOf] at h
    split_ifs at h
    obtain ⟨v, rfl, rfl⟩ := frombinOp_eq_ok h
    exact .frombin v
  | tob32 sgn fr a =>
    obtain ⟨rfl, rfl⟩ := tob32Op_eq_ok h
    exact .tob32 _ _
  | f32x b a =>
    obtain ⟨cls, f, hcls, rfl, rfl⟩ := f32xOp_eq_ok h
    exact .f32x cls f hcls

/-! ## Delivered answers -/

/-- A success that is delivered is the operation's result. -/
theorem resultOf_of_delivers_ok {i : Instr} {s : State} {p : Payload} {t : Trace} (h : Delivers i s (.ok p) t) :
    resultOf i = .ok (p, t) := by
  rw [delivers_iff] at h
  cases hres : resultOf i with
  | error f => rw [hres] at h; cases h
  | ok q => rw [hres] at h; cases h; rfl

/-- A success that is delivered is one of the operation's. -/
theorem success_of_delivers {i : Instr} {s : State} {p : Payload} {t : Trace} (h : Delivers i s (.ok p) t) :
    Success i.op p t :=
  success_of_resultOf (resultOf_of_delivers_ok h)

/-- A failure has no trace (R66, R147). -/
theorem trace_of_delivers_fail {i : Instr} {s : State} {f : Failure} {t : Trace} (h : Delivers i s (.fail f) t) :
    t = [] := by
  rw [delivers_iff] at h
  cases hres : resultOf i with
  | error g => rw [hres] at h; cases h; rfl
  | ok q => rw [hres] at h; cases h

@[simp] theorem length_addTrace {w : Nat} (x y : BitVec w) : (addTrace x y).length = w := by
  rw [addTrace, List.length_map, List.length_range]

@[simp] theorem length_mulTrace {w : Nat} (x y : BitVec w) : (mulTrace x y).length = w := by
  rw [mulTrace, List.length_map, List.length_range]

@[simp] theorem length_divTrace {w : Nat} (x y : BitVec w) : (divTrace x y).length = w := by
  rw [divTrace, List.length_map, List.length_range]

/-- The number of records in the trace of a success: the width of an arithmetic result, and none otherwise (R66). -/
def recordCount : Payload → Nat
  | .arith w _ _ => w
  | _ => 0

/-- A success has as many trace records as its payload says (R66). -/
theorem Success.length_trace {o : Op} {p : Payload} {t : Trace} (h : Success o p t) : t.length = recordCount p := by
  cases h with
  | add x y | sub x y => exact length_addTrace x y
  | mul x y => exact length_mulTrace x y
  | div x y => exact length_divTrace x y
  | tobin | frombin | tob32 | f32x => rfl

/-- No trace is longer than the largest width (R66). -/
theorem Success.recordCount_le {o : Op} {p : Payload} {t : Trace} (h : Success o p t) : recordCount p ≤ 32 := by
  cases h with
  | add x y z ovf hpos hle | sub x y z ovf hpos hle | mul x y z ovf hpos hle | div x y z ovf hpos hle => exact hle
  | tobin | frombin | tob32 | f32x => exact Nat.zero_le 32

end Sys2Proof.Proofs
end

section
/-! The response record (spec/30_encoding.md R61 to R66): `S` as the sum of its fields, each at its weight, and the
fields read back. -/

namespace Sys2Proof.Proofs

open Sys2Proof Sys2Proof.Machine

/-! ## Fields of a word -/

/-- A field put above everything set so far adds its value at its weight. -/
theorem toNat_or_place {n : Nat} (x : Word) (y : BitVec n) (lo : Nat) (hx : x.toNat < 2 ^ lo) (hn : lo + n ≤ 32) :
    (x ||| place y lo).toNat = x.toNat + 2 ^ lo * y.toNat := by
  have hy : 2 ^ lo * y.toNat < 2 ^ 32 := by
    calc 2 ^ lo * y.toNat < 2 ^ lo * 2 ^ n := Nat.mul_lt_mul_of_pos_left y.isLt (Nat.two_pow_pos lo)
      _ = 2 ^ (lo + n) := (Nat.pow_add ..).symm
      _ ≤ 2 ^ 32 := Nat.pow_le_pow_right (by decide) hn
  have hy' : y.toNat < 2 ^ 32 := y.isLt.trans_le (Nat.pow_le_pow_right (by decide) (by omega))
  rw [BitVec.toNat_or, place, BitVec.toNat_shiftLeft, BitVec.toNat_setWidth, Nat.mod_eq_of_lt hy', Nat.shiftLeft_eq,
    Nat.mul_comm, Nat.mod_eq_of_lt hy, Nat.or_comm, ← Nat.two_pow_add_eq_or_of_lt hx, Nat.add_comm]

/-- A field put at the bottom of a word keeps its value. -/
theorem toNat_place_zero {n : Nat} (x : BitVec n) (hn : n ≤ 32) : (place x 0).toNat = x.toNat := by
  rw [place, BitVec.shiftLeft_zero, BitVec.toNat_setWidth_of_le hn]

/-- A flag put above everything set so far. -/
theorem toNat_or_place_ofBool (x : Word) (c : Bool) (lo : Nat) (hx : x.toNat < 2 ^ lo) (hlo : lo < 32) :
    (x ||| place (BitVec.ofBool c) lo).toNat = x.toNat + 2 ^ lo * c.toNat := by
  rw [toNat_or_place x _ lo hx hlo, BitVec.toNat_ofBool]

/-- The word `S` as a number (R61). -/
theorem toNat_words_s (f : RspFields) :
    f.words.s.toNat = f.status.toNat + 2 ^ 4 * f.ovf.toNat + 2 ^ 5 * f.rsgn.toNat + 2 ^ 6 * f.rlen.toNat +
      2 ^ 12 * f.rfr.toNat + 2 ^ 20 * f.cls.toNat + 2 ^ 23 * f.nrec.toNat := by
  obtain ⟨status, ovf, rsgn, rlen, rfr, cls, nrec, r1, r0⟩ := f
  have hovf := ovf.toNat_le
  have hrsgn := rsgn.toNat_le
  have h0 := toNat_place_zero status (by decide)
  have h4 := toNat_or_place_ofBool _ ovf 4 (h0.trans_lt status.isLt) (by decide)
  have h5 := toNat_or_place_ofBool _ rsgn 5 (h4.trans_lt (by omega)) (by decide)
  have h6 := toNat_or_place _ rlen 6 (h5.trans_lt (by omega)) (by decide)
  have h12 := toNat_or_place _ rfr 12 (h6.trans_lt (by omega)) (by decide)
  have h20 := toNat_or_place _ cls 20 (h12.trans_lt (by omega)) (by decide)
  have h23 := toNat_or_place _ nrec 23 (h20.trans_lt (by omega)) (by decide)
  rw [RspFields.words, h23, h20, h12, h6, h5, h4, h0]

/-- The words of a record from its fields, each at its weight (R61). -/
theorem words_eq (f : RspFields) :
    f.words = ⟨BitVec.ofNat 32 (f.status.toNat + 2 ^ 4 * f.ovf.toNat + 2 ^ 5 * f.rsgn.toNat + 2 ^ 6 * f.rlen.toNat +
      2 ^ 12 * f.rfr.toNat + 2 ^ 20 * f.cls.toNat + 2 ^ 23 * f.nrec.toNat), f.r1, f.r0⟩ := by
  rw [← toNat_words_s, BitVec.ofNat_toNat, BitVec.setWidth_eq]
  rfl

/-! ## Records of an answer -/

/-- `NREC` is a field of every response (R61, R66). -/
@[simp] theorem fields_nrec (n : Nat) (r : Response) : (r.fields n).nrec = BitVec.ofNat 6 n := by
  cases r with
  | ok p => cases p <;> rfl
  | fail f => rfl

section Record

variable (h : Option HostId) (r : Response) (t : Trace)

/-- The fields of an answer's record (R61). -/
@[simp] theorem fields_record : (Answer.record ⟨h, r, t⟩).fields = r.fields t.length := fields_words _

/-- `S[31:23]` is the number of trace records, for every trace that fits the field (R61, R66). -/
theorem record_nrec (ht : t.length < 64) : (Answer.record ⟨h, r, t⟩).s.toNat / 2 ^ 23 = t.length := by
  have hnrec : (r.fields t.length).nrec.toNat = t.length := by
    rw [fields_nrec, BitVec.toNat_ofNat, Nat.mod_eq_of_lt ht]
  rw [Answer.record, toNat_words_s, hnrec]
  generalize r.fields t.length = f
  have hovf := f.ovf.toNat_le
  have hrsgn := f.rsgn.toNat_le
  omega

/-- `RLEN` is a field of the record (R61). -/
theorem record_rlen : (Answer.record ⟨h, r, t⟩).s.extractLsb' 6 6 = (r.fields t.length).rlen :=
  congrArg RspFields.rlen (fields_record h r t)

/-- `RFR` is a field of the record (R61). -/
theorem record_rfr : (Answer.record ⟨h, r, t⟩).s.extractLsb' 12 8 = (r.fields t.length).rfr :=
  congrArg RspFields.rfr (fields_record h r t)

end Record

/-- Settles O45: `NREC` counts the trace, which has as many records as the payload says. -/
theorem recordCountsTheTrace : Obligations.RecordCountsTheTrace := by
  intro i s r t h hd
  cases r with
  | fail f =>
    obtain rfl := trace_of_delivers_fail hd
    exact ⟨record_nrec h _ [] (by decide), rfl⟩
  | ok p =>
    have hs := success_of_delivers hd
    have hlen := hs.length_trace
    have hle := hs.recordCount_le
    refine ⟨record_nrec h _ t (by omega), ?_⟩
    cases p with
    | arith w z ovf =>
      refine ⟨hlen, ?_⟩
      have hw : w ≤ 32 := hle
      rw [record_rlen]
      exact Nat.mod_eq_of_lt (by omega)
    | binStr | numeral | b32 | f754 => exact List.length_eq_zero_iff.mp hlen

/-! ## TOB32 -/

/-- The packing of the integer symbols is the magnitude (R64, R99). -/
theorem packDigits_base32Symbols (a : Word) : packDigits (base32Symbols a.toNat) = a.toNat := by
  rw [base32Symbols]
  split_ifs with h
  · rw [h]; rfl
  · exact packDigits_base32Digits _ _ (a.isLt.trans (by decide))

/-- There are at most `B32_ND` integer symbols (R95). -/
theorem length_base32Symbols_le (n : Nat) : (base32Symbols n).length ≤ 7 := by
  rw [base32Symbols]
  split_ifs
  · decide
  · exact length_base32Digits_le _ n

/-- The fields of a TOB32 success: the magnitude is in `R0` and `R1` is zero (R64). -/
theorem fields_b32 (n : Nat) (a : Word) (fd : BitVec 5) :
    Response.fields n (.ok (.b32 (base32Symbols a.toNat) [fd])) =
      ⟨0, false, false, BitVec.ofNat 6 (base32Symbols a.toNat).length, fd.setWidth 8, 0, BitVec.ofNat 6 n, 0, a⟩ := by
  have hr1 : a.toNat / 2 ^ 32 % 8 = 0 := by rw [Nat.div_eq_of_lt a.isLt]
  have hr0 : BitVec.ofNat 32 a.toNat = a := by rw [BitVec.ofNat_toNat, BitVec.setWidth_eq]
  have hrfr : BitVec.ofNat 8 (packDigits [fd].reverse) = fd.setWidth 8 := by
    rw [List.reverse_singleton, packDigits, packDigits, Nat.mul_zero, Nat.add_zero, BitVec.ofNat_toNat]
  rw [Response.fields, Payload.fields, packDigits_base32Symbols, hr1, hr0, hrfr]
  rfl

/-- One fractional symbol, put in `RFR[4:0]`, is read from there (R64). -/
theorem extractLsb'_setWidth_symbol (fd : BitVec 5) : (fd.setWidth 8).extractLsb' 0 5 = fd := by
  revert fd
  decide

/-- Settles O40: the record's fields are those of the symbols of the magnitude. -/
theorem base32RecordHoldsTheMagnitude : Obligations.Base32RecordHoldsTheMagnitude := by
  rintro sgn fr a s digits fraction t h r hd rfl
  obtain ⟨hp, -⟩ : Payload.b32 digits fraction = .b32 (base32Symbols a.toNat) [fr.extractLsb' 3 5] ∧ t = [] :=
    tob32Op_eq_ok (resultOf_of_delivers_ok hd)
  cases hp
  have hfields := fields_b32 t.length a (fr.extractLsb' 3 5)
  refine ⟨congrArg RspFields.r0 hfields, congrArg RspFields.r1 hfields, ?length, ?fraction⟩
  case length =>
    rw [record_rlen]
    have hlen := length_base32Symbols_le a.toNat
    exact Nat.mod_eq_of_lt (by show (base32Symbols a.toNat).length < 64; omega)
  case fraction =>
    have hrfr := (record_rfr h _ t).trans (congrArg RspFields.rfr hfields)
    rw [← extractLsb'_extractLsb'_add _ (show 0 + 5 ≤ 8 by decide), hrfr, extractLsb'_setWidth_symbol]

end Sys2Proof.Proofs
end

section
/-! The response record (spec/30_encoding.md R61 to R65): its words for each kind of response, and the response read
back for the operation that was asked for. -/

namespace Sys2Proof.Proofs

open Sys2Proof Sys2Proof.Machine

/-! ## Packed symbols -/

/-- The packing of symbols is the sum of their values at their weights (R64). -/
theorem sum_zipIdx_eq_packDigits (ds : List (BitVec 5)) (k : Nat) :
    ((ds.zipIdx k).map fun x => x.1.toNat * 32 ^ x.2).sum = 32 ^ k * packDigits ds := by
  induction ds generalizing k with
  | nil => simp [packDigits]
  | cons d ds ih =>
    rw [List.zipIdx_cons, List.map_cons, List.sum_cons, ih, packDigits]
    ring

/-- The symbols are the base-32 digits of their packing (R64). -/
theorem map_ofNat_packDigits (ds : List (BitVec 5)) :
    ((List.range ds.length).map fun k => BitVec.ofNat 5 (packDigits ds / 32 ^ k)) = ds := by
  induction ds with
  | nil => rfl
  | cons d ds ih =>
    have hfirst : BitVec.ofNat 5 (packDigits (d :: ds) / 32 ^ 0) = d := by
      apply BitVec.eq_of_toNat_eq
      rw [packDigits, BitVec.toNat_ofNat]
      omega
    have hrest (k : Nat) : packDigits (d :: ds) / 32 ^ (k + 1) = packDigits ds / 32 ^ k := by
      rw [packDigits, Nat.pow_succ', ← Nat.div_div_eq_div_mul, Nat.add_mul_div_left _ _ (by decide),
        Nat.div_eq_of_lt d.isLt, Nat.zero_add]
    rw [List.length_cons, List.range_succ_eq_map, List.map_cons, hfirst, List.map_map]
    simp only [Function.comp_def, Nat.succ_eq_add_one, hrest, ih]

/-- Symbol `k` stands in `P[5k+4:5k]` (R64). -/
theorem extractLsb'_symbol (v : BitVec 64) (k : Nat) :
    v.extractLsb' (5 * k) 5 = BitVec.ofNat 5 (v.toNat / 32 ^ k) := by
  apply BitVec.eq_of_toNat_eq
  rw [BitVec.extractLsb'_toNat, BitVec.toNat_ofNat, Nat.shiftRight_eq_div_pow, Nat.pow_mul]

/-- Two words joined, as a number (R54, R68). -/
theorem toNat_joinWords (hi lo : Word) : (joinWords hi lo).toNat = 2 ^ 32 * hi.toNat + lo.toNat := by
  have hhi : 2 ^ 32 * hi.toNat < 2 ^ 64 := by omega
  rw [joinWords, BitVec.toNat_or, BitVec.toNat_shiftLeft, BitVec.toNat_setWidth_of_le (by decide),
    BitVec.toNat_setWidth_of_le (by decide), Nat.shiftLeft_eq, Nat.mul_comm, Nat.mod_eq_of_lt hhi,
    Nat.two_pow_add_eq_or_of_lt lo.isLt]

/-- The integer symbols of TOB32 are read from the magnitude (R64). -/
theorem map_extractLsb'_symbols (a : Word) :
    ((List.range (base32Symbols a.toNat).length).map fun k => (joinWords 0 a).extractLsb' (5 * k) 5) =
      base32Symbols a.toNat := by
  have hjoin : (joinWords 0 a).toNat = packDigits (base32Symbols a.toNat) := by
    rw [toNat_joinWords, packDigits_base32Symbols]
    exact Nat.zero_add _
  simp only [extractLsb'_symbol, hjoin, map_ofNat_packDigits]

/-! ## The word of single-precision fields -/

/-- `R0` of an F32X success as a number (R63). -/
theorem toNat_word754 (f : Fields754) :
    (place f.mantissa 0 ||| place f.exponent 23 ||| place (BitVec.ofBool f.sign) 31).toNat =
      f.mantissa.toNat + 2 ^ 23 * f.exponent.toNat + 2 ^ 31 * f.sign.toNat := by
  obtain ⟨sign, exponent, mantissa⟩ := f
  have h0 := toNat_place_zero mantissa (by decide)
  have h23 := toNat_or_place _ exponent 23 (h0.trans_lt mantissa.isLt) (by decide)
  have h31 := toNat_or_place_ofBool _ sign 31 (h23.trans_lt (by omega)) (by decide)
  rw [h31, h23, h0]

/-- The single-precision fields are read from where they were put (R63). -/
theorem fields754_of_word (f : Fields754) {v : Word}
    (hv : v.toNat = f.mantissa.toNat + 2 ^ 23 * f.exponent.toNat + 2 ^ 31 * f.sign.toNat) :
    Fields754.mk (v.getLsbD 31) (v.extractLsb' 23 8) (v.extractLsb' 0 23) = f := by
  obtain ⟨sign, exponent, mantissa⟩ := f
  simp only at hv
  have hsign : v.getLsbD 31 = sign := by
    have hmsb : v.getLsbD 31 = v.msb := (BitVec.msb_eq_getLsbD_last v).symm
    rw [hmsb, BitVec.msb_eq_decide]
    cases sign
    · exact decide_eq_false (by rw [hv, Bool.toNat_false]; omega)
    · exact decide_eq_true (by rw [hv, Bool.toNat_true]; omega)
  have hexp : v.extractLsb' 23 8 = exponent := by
    apply BitVec.eq_of_toNat_eq
    have := sign.toNat_le
    rw [BitVec.extractLsb'_toNat, Nat.shiftRight_eq_div_pow, hv]
    omega
  have hman : v.extractLsb' 0 23 = mantissa := by
    apply BitVec.eq_of_toNat_eq
    have := sign.toNat_le
    rw [BitVec.extractLsb'_toNat, Nat.shiftRight_zero, hv]
    omega
  rw [hsign, hexp, hman]

/-! ## Reading a response back -/

/-- The patterns of an arithmetic result and of a string come back from `R0` and `RLEN`. -/
theorem setWidth_setWidth_cast {w n : Nat} {α : Type} (mk : (n : Nat) → BitVec n → α) (x : BitVec w) (hle : w ≤ 32)
    (hn : n = w) : mk n ((x.setWidth 32).setWidth n) = mk w x := by
  subst hn
  rw [BitVec.setWidth_setWidth_of_le _ hle, BitVec.setWidth_eq]

/-- `RLEN` holds every length up to 32. -/
theorem toNat_ofNat_len {w : Nat} (hle : w ≤ 32) : (BitVec.ofNat 6 w).toNat = w := by
  rw [BitVec.toNat_ofNat, Nat.mod_eq_of_lt (by omega)]

/-- The fields of a success give back its payload, once the operation is known (R65). -/
theorem payloadOfFields_fields {o : Op} {p : Payload} {t : Trace} (h : Success o p t) (n : Nat) :
    payloadOfFields o (Response.fields n (.ok p)) = some p := by
  cases h with
  | add x y z ovf hpos hle | sub x y z ovf hpos hle | mul x y z ovf hpos hle | div x y z ovf hpos hle =>
    exact congrArg some (setWidth_setWidth_cast (fun n x => Payload.arith n x ovf) z hle (toNat_ofNat_len hle))
  | tobin x hle =>
    obtain ⟨len, bits, frac⟩ := x
    refine congrArg some ((setWidth_setWidth_cast (fun n x => Payload.binStr ⟨n, x, _⟩) bits hle
      (toNat_ofNat_len hle)).trans ?_)
    exact congrArg (fun c => Payload.binStr ⟨len, bits, c⟩) (extractLsb'_setWidth_shiftLeft frac)
  | frombin v => rfl
  | tob32 a fd =>
    have hlen := length_base32Symbols_le a.toNat
    rw [fields_b32]
    simp only [payloadOfFields, b32Fd_eq, toNat_ofNat_len (hlen.trans (by decide)), map_extractLsb'_symbols]
    exact congrArg (fun d => some (Payload.b32 _ [d])) (extractLsb'_setWidth_symbol fd)
  | f32x cls f hcls =>
    have hcode : classOfCode? (classCode cls) = some cls := by cases cls <;> rfl
    have hword := fields754_of_word f (toNat_word754 f)
    show (classOfCode? (classCode cls)).map _ = _
    rw [hcode]
    exact congrArg (fun g => some (Payload.f754 cls g)) hword

/-- The code of a failure is not the one of a success (R140). -/
theorem failureCode_ne_zero (f : Failure) : failureCode f ≠ 0 := by
  cases f <;> exact ne_of_beq_false rfl

/-- The codes of a failure name it (R140, R147). -/
theorem failureOfCode?_code (f : Failure) : failureOfCode? (failureCode f) (failureClass f) = some f := by
  cases f with
  | unsupportedSpecialValue c => cases c <;> rfl
  | _ => rfl

/-- A record gives back a success of the operation (R65). -/
theorem response?_of_success {o : Op} {p : Payload} {t : Trace} (hs : Success o p t) (h : Option HostId) :
    (Answer.record ⟨h, .ok p, t⟩).response? o = some (.ok p) := by
  have hstatus : (Response.fields t.length (.ok p)).status = 0 := by cases p <;> rfl
  rw [RspRecord.response?, fields_record, if_pos hstatus, payloadOfFields_fields hs]
  rfl

/-- A record gives back a failure of any operation (R65). -/
theorem response?_of_fail (o : Op) (f : Failure) (t : Trace) (h : Option HostId) :
    (Answer.record ⟨h, .fail f, t⟩).response? o = some (.fail f) := by
  rw [RspRecord.response?, fields_record]
  show (if failureCode f = 0 then _ else (failureOfCode? (failureCode f) (failureClass f)).map _) = _
  rw [if_neg (failureCode_ne_zero f), failureOfCode?_code]
  rfl

/-! ## The words of each kind of response -/

/-- Four fractional bits put in `RFR[7:4]` weigh 16 each (R63). -/
theorem toNat_setWidth_shiftLeft : ∀ frac : BitVec 4, (frac.setWidth 8 <<< 4).toNat = 2 ^ 4 * frac.toNat := by decide

section Words

variable (h : Option HostId)

/-- The record of an arithmetic success (R61, R63, R66). -/
theorem record_arith {w : Nat} (x : BitVec w) (ovf : Bool) {t : Trace} (hle : w ≤ 32) (ht : t.length = w) :
    Answer.record ⟨h, .ok (.arith w x ovf), t⟩ =
      ⟨BitVec.ofNat 32 (2 ^ 4 * ovf.toNat + 2 ^ 6 * w + 2 ^ 23 * w), 0, BitVec.ofNat 32 x.toNat⟩ := by
  have hw := toNat_ofNat_len hle
  refine (words_eq _).trans ?_
  simp [Response.fields, Payload.fields, RspFields.zero, hw, ht]

/-- The record of a TOBIN success (R61, R63). -/
theorem record_binStr (x : BinStr) (hle : x.len ≤ 32) :
    Answer.record ⟨h, .ok (.binStr x), []⟩ =
      ⟨BitVec.ofNat 32 (2 ^ 6 * x.len + 2 ^ 12 * (2 ^ 4 * x.frac.toNat)), 0, BitVec.ofNat 32 x.bits.toNat⟩ := by
  have hlen := toNat_ofNat_len hle
  have hfrac := toNat_setWidth_shiftLeft x.frac
  refine (words_eq _).trans ?_
  simp [Response.fields, Payload.fields, RspFields.zero, hlen, hfrac]

/-- The record of a FROMBIN success (R61, R63). -/
theorem record_numeral (v : Numeral) :
    Answer.record ⟨h, .ok (.numeral v), []⟩ =
      ⟨BitVec.ofNat 32 (2 ^ 5 * v.sgn.toNat + 2 ^ 12 * v.fmag.toNat), 0, v.imag⟩ := by
  refine (words_eq _).trans ?_
  simp [Response.fields, Payload.fields, RspFields.zero]

/-- The record of a TOB32 success (R61, R64). -/
theorem record_b32 (a : Word) (fd : BitVec 5) :
    Answer.record ⟨h, .ok (.b32 (base32Symbols a.toNat) [fd]), []⟩ =
      ⟨BitVec.ofNat 32 (2 ^ 6 * (base32Symbols a.toNat).length + 2 ^ 12 * fd.toNat),
        BitVec.ofNat 32 (a.toNat / 2 ^ 32), BitVec.ofNat 32 a.toNat⟩ := by
  have hlen := toNat_ofNat_len ((length_base32Symbols_le a.toNat).trans (by decide))
  have hr1 : a.toNat / 2 ^ 32 = 0 := Nat.div_eq_of_lt a.isLt
  have hfd : fd.toNat % 256 = fd.toNat := Nat.mod_eq_of_lt (by omega)
  rw [Answer.record, fields_b32, words_eq, hr1]
  simp [hlen, hfd]

/-- The record of an F32X success (R61, R63, R84). -/
theorem record_f754 (cls : Class754) (f : Fields754) (hcls : cls = .zero ∨ cls = .normal) :
    Answer.record ⟨h, .ok (.f754 cls f), []⟩ =
      ⟨BitVec.ofNat 32 (2 ^ 5 * f.sign.toNat + 2 ^ 20 * (if cls = .zero then 0 else 1)), 0,
        BitVec.ofNat 32 (f.mantissa.toNat + 2 ^ 23 * f.exponent.toNat + 2 ^ 31 * f.sign.toNat)⟩ := by
  have hcode : (classCode cls).toNat = if cls = .zero then 0 else 1 := by
    rcases hcls with rfl | rfl <;> rfl
  rw [← toNat_word754 f, BitVec.ofNat_toNat, BitVec.setWidth_eq]
  refine (words_eq _).trans ?_
  simp [Response.fields, Payload.fields, RspFields.zero, hcode]

/-- The record of a failure holds `STATUS` and `CLASS` and nothing else (R62, R147). -/
theorem record_fail (f : Failure) :
    Answer.record ⟨h, .fail f, []⟩ =
      ⟨BitVec.ofNat 32 ((failureCode f).toNat + 2 ^ 20 * (failureClass f).toNat), 0, 0⟩ := by
  refine (words_eq _).trans ?_
  simp [Response.fields, RspFields.zero]

end Words

/-- The record of a failure has none of the fields of a success (R62). -/
theorem record_fail_fields {f : Failure} {c : RspRecord}
    (hc : c = ⟨BitVec.ofNat 32 ((failureCode f).toNat + 2 ^ 20 * (failureClass f).toNat), 0, 0⟩) :
    c.s.toNat % 16 ≠ 0 ∧ c.s.toNat / 16 % 2 ^ 16 = 0 ∧ c.s.toNat / 2 ^ 23 = 0 ∧ c.r1 = 0 ∧ c.r0 = 0 := by
  subst hc
  have hcode : (failureCode f).toNat ≠ 0 := fun h0 => failureCode_ne_zero f (BitVec.eq_of_toNat_eq h0)
  have hs : (BitVec.ofNat 32 ((failureCode f).toNat + 2 ^ 20 * (failureClass f).toNat)).toNat =
      (failureCode f).toNat + 2 ^ 20 * (failureClass f).toNat :=
    Nat.mod_eq_of_lt (by omega)
  simp only [hs, and_true]
  omega

/-- Settles O47: each response has its record in closed form, and its fields give it back. -/
theorem responseRecordLosesNothing : Obligations.ResponseRecordLosesNothing := by
  rintro i s r t h c hd rfl
  cases r with
  | fail f =>
    obtain rfl := trace_of_delivers_fail hd
    exact ⟨response?_of_fail i.op f [] h, record_fail_fields (record_fail h f)⟩
  | ok p =>
    have hs := success_of_delivers hd
    refine ⟨response?_of_success hs h, ?_⟩
    have hlen := hs.length_trace
    generalize i.op = o at hs
    cases hs with
    | add x y z ovf hpos hle | sub x y z ovf hpos hle | mul x y z ovf hpos hle | div x y z ovf hpos hle =>
      exact record_arith h z ovf hle hlen
    | tobin x hle => exact record_binStr h x hle
    | frombin v => exact record_numeral h v
    | tob32 a fd =>
      have hsum := sum_zipIdx_eq_packDigits (base32Symbols a.toNat) 0
      rw [Nat.pow_zero, Nat.one_mul, packDigits_base32Symbols] at hsum
      exact ⟨fd, a.toNat, rfl, hsum.symm, record_b32 h a fd⟩
    | f32x cls f hcls => exact ⟨hcls, record_f754 h cls f hcls⟩

end Sys2Proof.Proofs
end

section
/-! The trace records (spec/30_encoding.md R66 to R68): their words, field by field, and the record read back. -/

namespace Sys2Proof.Proofs

open Sys2Proof Sys2Proof.Machine

/-! ## The word `T0` -/

section T0

variable (kind : BitVec 2) (pos : Nat) (b8 b9 b10 b11 b12 : Bool)

/-- Bit `i` of `T0` (R67). -/
theorem getLsbD_traceT0 (i : Nat) (hi : i < 13) :
    (traceT0 kind pos b8 b9 b10 b11 b12).getLsbD i =
      if i < 2 then kind.getLsbD i else if i < 8 then (BitVec.ofNat 6 pos).getLsbD (i - 2) else if i < 9 then b8
      else if i < 10 then b9 else if i < 11 then b10 else if i < 12 then b11 else b12 := by
  simp only [traceT0, BitVec.getLsbD_or, getLsbD_place _ _ _ (show i < 32 by omega)]
  interval_cases i <;> simp

/-- `KIND` is read from `T0` (R67). -/
theorem kind_traceT0 : (traceT0 kind pos b8 b9 b10 b11 b12).extractLsb' 0 2 = kind := by
  apply BitVec.eq_of_getLsbD_eq
  intro i hi
  rw [BitVec.getLsbD_extractLsb', getLsbD_traceT0 _ _ _ _ _ _ _ _ (by omega)]
  interval_cases i <;> rfl

/-- `POS` is read from `T0`, for every position of a trace (R67). -/
theorem pos_traceT0 (hpos : pos < 64) : ((traceT0 kind pos b8 b9 b10 b11 b12).extractLsb' 2 6).toNat = pos := by
  have hfield : (traceT0 kind pos b8 b9 b10 b11 b12).extractLsb' 2 6 = BitVec.ofNat 6 pos := by
    apply BitVec.eq_of_getLsbD_eq
    intro i hi
    rw [BitVec.getLsbD_extractLsb', getLsbD_traceT0 _ _ _ _ _ _ _ _ (by omega)]
    interval_cases i <;> rfl
  rw [hfield, BitVec.toNat_ofNat, Nat.mod_eq_of_lt hpos]

/-- The first flag of a record, in bit 8 (R67, R68). -/
theorem bit8_traceT0 : (traceT0 kind pos b8 b9 b10 b11 b12).getLsbD 8 = b8 :=
  getLsbD_traceT0 kind pos b8 b9 b10 b11 b12 8 (by decide)

/-- The second flag of a record, in bit 9 (R67, R68). -/
theorem bit9_traceT0 : (traceT0 kind pos b8 b9 b10 b11 b12).getLsbD 9 = b9 :=
  getLsbD_traceT0 kind pos b8 b9 b10 b11 b12 9 (by decide)

/-- The third flag of a record, in bit 10 (R67). -/
theorem bit10_traceT0 : (traceT0 kind pos b8 b9 b10 b11 b12).getLsbD 10 = b10 :=
  getLsbD_traceT0 kind pos b8 b9 b10 b11 b12 10 (by decide)

/-- The fourth flag of a record, in bit 11 (R67). -/
theorem bit11_traceT0 : (traceT0 kind pos b8 b9 b10 b11 b12).getLsbD 11 = b11 :=
  getLsbD_traceT0 kind pos b8 b9 b10 b11 b12 11 (by decide)

/-- The fifth flag of a record, in bit 12 (R67). -/
theorem bit12_traceT0 : (traceT0 kind pos b8 b9 b10 b11 b12).getLsbD 12 = b12 :=
  getLsbD_traceT0 kind pos b8 b9 b10 b11 b12 12 (by decide)

/-- `T0` from its fields, each at its weight (R67). -/
theorem traceT0_eq (hpos : pos < 64) :
    traceT0 kind pos b8 b9 b10 b11 b12 =
      BitVec.ofNat 32 (kind.toNat + 2 ^ 2 * pos + 2 ^ 8 * b8.toNat + 2 ^ 9 * b9.toNat + 2 ^ 10 * b10.toNat +
        2 ^ 11 * b11.toNat + 2 ^ 12 * b12.toNat) := by
  have hofNat : (BitVec.ofNat 6 pos).toNat = pos := Nat.mod_eq_of_lt hpos
  have hb8 := b8.toNat_le
  have hb9 := b9.toNat_le
  have hb10 := b10.toNat_le
  have hb11 := b11.toNat_le
  have h0 := toNat_place_zero kind (by decide)
  have h2 := toNat_or_place _ (BitVec.ofNat 6 pos) 2 (h0.trans_lt kind.isLt) (by decide)
  have h8 := toNat_or_place_ofBool _ b8 8 (h2.trans_lt (by omega)) (by decide)
  have h9 := toNat_or_place_ofBool _ b9 9 (h8.trans_lt (by omega)) (by decide)
  have h10 := toNat_or_place_ofBool _ b10 10 (h9.trans_lt (by omega)) (by decide)
  have h11 := toNat_or_place_ofBool _ b11 11 (h10.trans_lt (by omega)) (by decide)
  have h12 := toNat_or_place_ofBool _ b12 12 (h11.trans_lt (by omega)) (by decide)
  rw [h11, h10, h9, h8, h2, h0, hofNat] at h12
  rw [← h12, BitVec.ofNat_toNat, BitVec.setWidth_eq]
  rfl

end T0

/-! ## Reading a record back -/

/-- The position a trace record belongs to (R103, R114, R120). -/
def position : TraceRec → Nat
  | .add pos _ _ _ _ _ | .mul pos _ _ _ | .div pos _ _ _ => pos

/-- A 64-bit value is read from the two words it is put in (R68). -/
theorem joinWords_halves (x : BitVec 64) : joinWords (x.extractLsb' 32 32) (x.setWidth 32) = x := by
  apply BitVec.eq_of_toNat_eq
  rw [toNat_joinWords, BitVec.extractLsb'_toNat, BitVec.toNat_setWidth, Nat.shiftRight_eq_div_pow]
  omega

/-- The words of a trace record give it back, at every position `POS` can hold (R67, R68). -/
theorem record?_words (x : TraceRec) (hpos : position x < 64) : x.words.record? = some x := by
  cases x with
  | add pos ai bi cin sum cout =>
    rw [TraceWords.record?, TraceRec.words, kind_traceT0]
    show some (TraceRec.add _ _ _ _ _ _) = _
    simp only [pos_traceT0 _ pos _ _ _ _ _ hpos, bit8_traceT0, bit9_traceT0, bit10_traceT0,
      bit11_traceT0, bit12_traceT0]
  | mul pos mbit pp acc =>
    rw [TraceWords.record?, TraceRec.words, kind_traceT0]
    show some (TraceRec.mul _ _ _ _) = _
    simp only [pos_traceT0 _ pos _ _ _ _ _ hpos, bit8_traceT0, joinWords_halves, joinWords_halves]
  | div pos dbit qbit rem =>
    rw [TraceWords.record?, TraceRec.words, kind_traceT0]
    show some (TraceRec.div _ _ _ _) = _
    simp only [pos_traceT0 _ pos _ _ _ _ _ hpos, bit8_traceT0, bit9_traceT0]

/-! ## The words of each kind of record -/

/-- The words of a record of ADD or SUB (R67, R68). -/
theorem words_add {pos : Nat} (ai bi cin sum cout : Bool) (hpos : pos < 64) :
    (TraceRec.add pos ai bi cin sum cout).words =
      ⟨BitVec.ofNat 32 (0 + 2 ^ 2 * pos + 2 ^ 8 * ai.toNat + 2 ^ 9 * bi.toNat + 2 ^ 10 * cin.toNat +
        2 ^ 11 * sum.toNat + 2 ^ 12 * cout.toNat), 0, 0, 0, 0⟩ := by
  rw [TraceRec.words, traceT0_eq _ _ _ _ _ _ _ hpos]
  rfl

/-- The high word of a 64-bit value (R68). -/
theorem extractLsb'_high (x : BitVec 64) : x.extractLsb' 32 32 = BitVec.ofNat 32 (x.toNat / 2 ^ 32) := by
  apply BitVec.eq_of_toNat_eq
  rw [BitVec.extractLsb'_toNat, BitVec.toNat_ofNat, Nat.shiftRight_eq_div_pow]

/-- The low word of a 64-bit value (R68). -/
theorem setWidth_low (x : BitVec 64) : x.setWidth 32 = BitVec.ofNat 32 x.toNat := by
  rw [BitVec.ofNat_toNat]

/-- The words of a record of MUL (R67, R68). -/
theorem words_mul {pos : Nat} (mbit : Bool) (pp acc : BitVec 64) (hpos : pos < 64) :
    (TraceRec.mul pos mbit pp acc).words =
      ⟨BitVec.ofNat 32 (1 + 2 ^ 2 * pos + 2 ^ 8 * mbit.toNat), BitVec.ofNat 32 pp.toNat,
        BitVec.ofNat 32 (pp.toNat / 2 ^ 32), BitVec.ofNat 32 acc.toNat, BitVec.ofNat 32 (acc.toNat / 2 ^ 32)⟩ := by
  rw [TraceRec.words, traceT0_eq _ _ _ _ _ _ _ hpos, extractLsb'_high, extractLsb'_high, setWidth_low, setWidth_low]
  rfl

/-- The words of a record of DIV (R67, R68). -/
theorem words_div {pos : Nat} (dbit qbit : Bool) (rem : Word) (hpos : pos < 64) :
    (TraceRec.div pos dbit qbit rem).words =
      ⟨BitVec.ofNat 32 (2 + 2 ^ 2 * pos + 2 ^ 8 * dbit.toNat + 2 ^ 9 * qbit.toNat), rem, 0, 0, 0⟩ := by
  rw [TraceRec.words, traceT0_eq _ _ _ _ _ _ _ hpos]
  rfl

/-! ## The records of a trace -/

/-- A value of `n` bits, zero-extended or not, is below `2^n` (R68). -/
theorem toNat_setWidth_lt {n : Nat} (m : Nat) (x : BitVec n) : (x.setWidth m).toNat < 2 ^ n := by
  rw [BitVec.toNat_setWidth]
  exact (Nat.mod_le _ _).trans_lt x.isLt

/-- Every record of a trace stands at a position below the trace's length (R67, R103, R114, R120). -/
theorem position_lt_of_mem {o : Op} {p : Payload} {t : Trace} (h : Success o p t) {x : TraceRec} (hx : x ∈ t) :
    position x < t.length := by
  cases h with
  | add y z | sub y z =>
    obtain ⟨k, hk, rfl⟩ := List.mem_map.mp hx
    rw [length_addTrace]
    exact List.mem_range.mp hk
  | mul y z =>
    obtain ⟨k, hk, rfl⟩ := List.mem_map.mp hx
    rw [length_mulTrace]
    exact List.mem_range.mp hk
  | div y z w ovf hpos hle =>
    obtain ⟨k, hk, rfl⟩ := List.mem_map.mp hx
    rw [length_divTrace, divRec, position]
    omega
  | tobin | frombin | tob32 | f32x => cases hx

/-- Settles O48: the position of a record fits `POS`, and its values fit the width of the trace. -/
theorem traceRecordsLoseNothing : Obligations.TraceRecordsLoseNothing := by
  intro i s r t hd x hx
  cases r with
  | fail f =>
    obtain rfl := trace_of_delivers_fail hd
    cases hx
  | ok p =>
    have hs := success_of_delivers hd
    have hlt := position_lt_of_mem hs hx
    have hlen := hs.length_trace
    have hle := hs.recordCount_le
    have hpos : position x < 64 := by omega
    refine ⟨record?_words x hpos, ?_⟩
    generalize i.op = o at hs
    cases hs with
    | add y z | sub y z =>
      obtain ⟨k, -, rfl⟩ := List.mem_map.mp hx
      exact ⟨hlt, words_add _ _ _ _ _ hpos⟩
    | mul y z =>
      obtain ⟨k, -, rfl⟩ := List.mem_map.mp hx
      rw [hlen] at hlt ⊢
      exact ⟨hlt, toNat_setWidth_lt 64 _, toNat_setWidth_lt 64 _, words_mul _ _ _ hpos⟩
    | div y z =>
      obtain ⟨k, -, rfl⟩ := List.mem_map.mp hx
      rw [hlen] at hlt ⊢
      exact ⟨hlt, toNat_setWidth_lt 32 _, words_div _ _ _ hpos⟩
    | tobin | frombin | tob32 | f32x => cases hx

end Sys2Proof.Proofs
end

section
/-! TOBIN and FROMBIN (spec/41_radix_converter.md R73 to R81). Both are read as maps between a Numeral's signed integer
part and a two's-complement pattern: `stringOf` and `numeralOf` say what a success holds, and the round trips of R80
and R81 are what the two maps compose to. -/

namespace Sys2Proof.Proofs

open Sys2Proof Sys2Proof.Machine

/-! ## TOBIN -/

/-- The integer part of a Numeral with its sign (R22). -/
def signedPart (v : Numeral) : Int := if v.sgn then -(v.imag.toNat : Int) else (v.imag.toNat : Int)

/-- The string a Numeral that fits width `w` is converted to (R75, R76). -/
def stringOf (w : Nat) (v : Numeral) : BinStr := ⟨w, BitVec.ofInt w (signedPart v), v.fmag.extractLsb' 4 4⟩

/-- The capacity condition of R74, in numbers. -/
theorem fitsWidth_iff (w : Nat) (v : Numeral) :
    fitsWidth w v = true ↔ if v.sgn then v.imag.toNat ≤ 2 ^ (w - 1) else v.imag.toNat ≤ 2 ^ (w - 1) - 1 := by
  rw [fitsWidth]
  split_ifs <;> exact decide_eq_true_iff

/-- The capacity condition of R74 bounds the signed integer part by the range of R23. -/
theorem fitsWidth_iff_fitsSigned (w : Nat) (v : Numeral) : fitsWidth w v = true ↔ FitsSigned w (signedPart v) := by
  have hcast : ((2 ^ (w - 1) : Nat) : Int) = 2 ^ (w - 1) := by push_cast; rfl
  have hpos := Nat.two_pow_pos (w - 1)
  rw [fitsWidth_iff, FitsSigned, signedPart, ← hcast]
  split_ifs <;> omega

/-- The integer part 0 fits every width (R74). -/
theorem fitsWidth_of_imag_eq_zero (w : Nat) {v : Numeral} (h : v.imag = 0) : fitsWidth w v = true := by
  rw [fitsWidth_iff, h]
  split_ifs <;> exact Nat.zero_le _

/-- The integer bits are the signed integer part modulo `2^w` (R73, R75). -/
theorem integerBits_eq_ofInt (w : Nat) (v : Numeral) : integerBits w v = BitVec.ofInt w (signedPart v) := by
  rw [integerBits, signedPart]
  split_ifs with hzero hneg hneg
  · rw [hzero]; simp
  · rw [hzero]; simp
  · rw [neg_eq, BitVec.ofInt_neg, BitVec.ofInt_natCast, BitVec.ofNat_toNat]
  · rw [BitVec.ofInt_natCast, BitVec.ofNat_toNat]

/-- TOBIN on a Numeral, said once (R74, R75). -/
theorem tobinOp_eq (w : Nat) (v : Numeral) :
    tobinOp w v = if fitsWidth w v then .ok (.binStr (stringOf w v), []) else .error .rangeError := by
  rw [tobinOp, integerBits_eq_ofInt, fractionBits_eq]
  by_cases hfits : fitsWidth w v = true
  · rw [if_neg fun h => Bool.noConfusion (h.2.symm.trans hfits), if_pos hfits]
    rfl
  · have hzero : v.imag ≠ 0 := fun h => hfits (fitsWidth_of_imag_eq_zero w h)
    rw [if_pos ⟨hzero, Bool.eq_false_iff.mpr hfits⟩, if_neg hfits]

/-- A TOBIN request of a legal width runs on its Numeral at the width selected (R77). -/
theorem resultOf_tobin {w : BitVec 6} (hw : w.toNat ≤ 32) (sgn : Bool) (fr : BitVec 8) (a : Word) :
    resultOf (.tobin w sgn fr a) = tobinOp (tobinWidth w) ⟨sgn, a, fr⟩ := by
  rw [resultOf, (tobinIllegal?_eq_none w).mpr hw]
  rfl

/-- A TOBIN request of a width above 32 is illegal (R48, R56). -/
theorem resultOf_tobin_of_lt {w : BitVec 6} (hw : 32 < w.toNat) (sgn : Bool) (fr : BitVec 8) (a : Word) :
    resultOf (.tobin w sgn fr a) = .error .illegalCommand := by
  have hillegal : tobinIllegal? w ≠ none := fun h => absurd ((tobinIllegal?_eq_none w).mp h) (by omega)
  rw [resultOf, if_pos (Option.isSome_iff_ne_none.mpr hillegal)]

/-- What a TOBIN request of a legal width delivers where its Numeral fits. -/
theorem delivers_tobin_of_fits {w : BitVec 6} (hw : w.toNat ≤ 32) {v : Numeral}
    (hfits : fitsWidth (tobinWidth w) v = true) (s : State) :
    Delivers (.tobin w v.sgn v.fmag v.imag) s (.ok (.binStr (stringOf (tobinWidth w) v))) [] := by
  rw [delivers_iff, resultOf_tobin hw, tobinOp_eq, if_pos hfits]
  rfl

/-- What a TOBIN request of a legal width delivers where its Numeral does not fit. -/
theorem delivers_tobin_of_not_fits {w : BitVec 6} (hw : w.toNat ≤ 32) {v : Numeral}
    (hfits : ¬ fitsWidth (tobinWidth w) v = true) (s : State) :
    Delivers (.tobin w v.sgn v.fmag v.imag) s (.fail .rangeError) [] := by
  rw [delivers_iff, resultOf_tobin hw, tobinOp_eq, if_neg hfits]
  rfl

/-- The top four bits of a fraction, as a number (R76). -/
theorem extractLsb'_high_eq_ofNat (f : BitVec 8) : f.extractLsb' 4 4 = BitVec.ofNat 4 (f.toNat / 2 ^ 4) :=
  BitVec.eq_of_toNat_eq (by rw [BitVec.extractLsb'_toNat, BitVec.toNat_ofNat, Nat.shiftRight_eq_div_pow])

/-- Settles O33, by the capacity condition of R74. -/
theorem tobinEncodesOrFailsOutOfRange : Obligations.TobinEncodesOrFailsOutOfRange := by
  refine fun w sgn fr a s => ⟨fun hlt => ?_, fun n hw hn => ?_⟩
  · rw [delivers_iff, resultOf_tobin_of_lt hlt]
    rfl
  · obtain rfl : n = tobinWidth w := hn
    have hiff := fitsWidth_iff (tobinWidth w) ⟨sgn, a, fr⟩
    split
    next hout =>
      have hfits : ¬ fitsWidth (tobinWidth w) ⟨sgn, a, fr⟩ = true := by
        rw [hiff]
        rcases hout with ⟨rfl, hlt⟩ | ⟨rfl, hlt⟩ <;> exact Nat.not_le.mpr hlt
      exact delivers_tobin_of_not_fits hw hfits s
    next hout =>
      have hfits : fitsWidth (tobinWidth w) ⟨sgn, a, fr⟩ = true := by
        rw [hiff]
        cases sgn with
        | false => exact Nat.not_lt.mp fun hlt => hout (.inl ⟨rfl, hlt⟩)
        | true => exact Nat.not_lt.mp fun hlt => hout (.inr ⟨rfl, hlt⟩)
      rw [← extractLsb'_high_eq_ofNat]
      exact delivers_tobin_of_fits hw hfits s

/-- Settles O34: both requests run at width 32. -/
theorem tobinWidthDefaultsTo32 : Obligations.TobinWidthDefaultsTo32 := by
  intro sgn fr a s
  have hwidth : tobinWidth 0 = tobinWidth 32 := rfl
  rw [exec_eq, exec_eq, resultOf_tobin (by decide), resultOf_tobin (by decide), hwidth]

/-! ## FROMBIN -/

/-- The Numeral a string with an integer portion is converted to (R78, R79). -/
def numeralOf (x : BinStr) : Numeral :=
  ⟨x.bits.msb, BitVec.ofNat 32 x.bits.toInt.natAbs, x.frac.setWidth 8 <<< 4⟩

/-- FROMBIN on a string with an integer portion, said once: the magnitude is that of the two's-complement value
(R78). -/
theorem frombinOp_eq {x : BinStr} (hlen : x.len ≠ 0) : frombinOp x = .ok (.numeral (numeralOf x), []) := by
  have hint := BitVec.toInt_eq_msb_cond x.bits
  have hlt := x.bits.isLt
  rw [frombinOp, if_neg hlen, numeralOf]
  cases hmsb : x.bits.msb with
  | true =>
    have habs : 2 ^ x.len - x.bits.toNat = x.bits.toInt.natAbs := by rw [hint, if_pos hmsb]; omega
    rw [if_pos rfl, habs]
  | false =>
    have habs : x.bits.toNat = x.bits.toInt.natAbs := by rw [hint, hmsb]; rfl
    rw [if_neg Bool.false_ne_true, habs]

/-- A FROMBIN request whose operand is well formed runs on its string (R53). -/
theorem resultOf_frombin {alen : BitVec 6} {a : Word} (hwf : wfString alen a = true) (frac : BitVec 4) :
    resultOf (.frombin alen frac a) = frombinOp (stringOperand alen frac a) := by
  rw [resultOf, (frombinIllegal?_eq_none alen a).mpr hwf]
  rfl

/-- A FROMBIN request whose operand is not well formed is illegal (R49, R56). -/
theorem resultOf_frombin_of_not_wf {alen : BitVec 6} {a : Word} (hwf : wfString alen a = false) (frac : BitVec 4) :
    resultOf (.frombin alen frac a) = .error .illegalCommand := by
  have hillegal : frombinIllegal? alen a ≠ none :=
    fun h => Bool.noConfusion (hwf.symm.trans ((frombinIllegal?_eq_none alen a).mp h))
  rw [resultOf, if_pos (Option.isSome_iff_ne_none.mpr hillegal)]

/-- What a FROMBIN request with an integer portion delivers. -/
theorem delivers_frombin {alen : BitVec 6} {a : Word} (hwf : wfString alen a = true) (hlen : alen.toNat ≠ 0)
    (frac : BitVec 4) (s : State) :
    Delivers (.frombin alen frac a) s (.ok (.numeral (numeralOf (stringOperand alen frac a)))) [] := by
  rw [delivers_iff, resultOf_frombin hwf, frombinOp_eq hlen]
  rfl

/-- The fraction of a string at its place in a Numeral, as a number (R79). -/
theorem setWidth_shiftLeft_eq_ofNat (frac : BitVec 4) :
    frac.setWidth 8 <<< 4 = BitVec.ofNat 8 (2 ^ 4 * frac.toNat) := by
  rw [← toNat_setWidth_shiftLeft, BitVec.ofNat_toNat, BitVec.setWidth_eq]

/-- The Numeral of a request's string, in the bits of the request (R78, R79). -/
theorem numeralOf_stringOperand {alen : BitVec 6} (hlen : alen.toNat ≠ 0) (frac : BitVec 4) (a : Word) :
    numeralOf (stringOperand alen frac a) =
      ⟨a.getLsbD (alen.toNat - 1), BitVec.ofNat 32 (magnitudeLow alen.toNat a),
        BitVec.ofNat 8 (2 ^ 4 * frac.toNat)⟩ := by
  have hmsb : (a.setWidth alen.toNat).msb = a.getLsbD (alen.toNat - 1) := by
    rw [BitVec.msb_setWidth, decide_eq_true (Nat.pos_of_ne_zero hlen), Bool.true_and]
  rw [← hmsb, ← setWidth_shiftLeft_eq_ofNat]
  rfl

/-- Settles O35. -/
theorem frombinReadsTwosComplement : Obligations.FrombinReadsTwosComplement := by
  intro alen frac a s
  split_ifs with hwf hlen
  · rw [delivers_iff, resultOf_frombin_of_not_wf hwf]
    rfl
  · subst hlen
    rw [delivers_iff, resultOf_frombin (Bool.eq_true_of_not_eq_false hwf)]
    rfl
  · have hne : alen.toNat ≠ 0 := fun h => hlen (BitVec.eq_of_toNat_eq h)
    rw [← numeralOf_stringOperand hne]
    exact delivers_frombin (Bool.eq_true_of_not_eq_false hwf) hne frac s

/-! ## Round trip from a string -/

/-- A width that is not 0 is the width TOBIN uses (R77). -/
theorem tobinWidth_of_ne_zero {w : BitVec 6} (hw : w.toNat ≠ 0) : tobinWidth w = w.toNat := if_neg hw

/-- A magnitude of a pattern of at most 32 bits fits the field of a Numeral (R22). -/
theorem natAbs_toInt_lt {w : Nat} (hle : w ≤ 32) (x : BitVec w) : x.toInt.natAbs < 2 ^ 32 := by
  have hpow : 2 ^ w ≤ 2 ^ 32 := Nat.pow_le_pow_right (by decide) hle
  have hlt := (mag x).isLt
  rw [toNat_mag] at hlt
  exact hlt.trans_le hpow

/-- FROMBIN keeps the two's-complement value of a string (R78). -/
theorem signedPart_numeralOf {x : BinStr} (hle : x.len ≤ 32) : signedPart (numeralOf x) = x.bits.toInt := by
  have himag : (numeralOf x).imag.toNat = x.bits.toInt.natAbs :=
    Nat.mod_eq_of_lt (natAbs_toInt_lt hle x.bits)
  have hsgn : (numeralOf x).sgn = decide (x.bits.toInt < 0) := BitVec.msb_eq_toInt
  rw [signedPart, himag, hsgn]
  simp only [decide_eq_true_eq]
  split_ifs <;> omega

/-- The Numeral of a string fits the length of the string (R80). -/
theorem fitsWidth_numeralOf {x : BinStr} (hle : x.len ≤ 32) : fitsWidth x.len (numeralOf x) = true := by
  rw [fitsWidth_iff_fitsSigned, signedPart_numeralOf hle]
  exact ⟨BitVec.le_toInt x.bits, Int.le_sub_one_of_lt BitVec.toInt_lt⟩

/-- The string of the Numeral of a string is the string (R80). -/
theorem stringOf_numeralOf {x : BinStr} (hle : x.len ≤ 32) : stringOf x.len (numeralOf x) = x := by
  rw [stringOf, signedPart_numeralOf hle, BitVec.ofInt_toInt]
  exact congrArg (BinStr.mk x.len x.bits) (extractLsb'_setWidth_shiftLeft x.frac)

/-- Settles O36: what FROMBIN gives fits the length of the string, and `stringOf` takes it back. -/
theorem stringRoundTrip : Obligations.StringRoundTrip := by
  intro alen frac a s s' hpos hle hlt
  have hne : alen.toNat ≠ 0 := Nat.ne_of_gt hpos
  have hwf : wfString alen a = true := by
    rw [wfString, wMax_eq, decide_eq_true hle, decide_eq_true hlt]
    rfl
  have hlen : (stringOperand alen frac a).len ≤ 32 := hle
  have hwidth : tobinWidth alen = (stringOperand alen frac a).len := tobinWidth_of_ne_zero hne
  refine ⟨numeralOf (stringOperand alen frac a), delivers_frombin hwf hne frac s, ?_⟩
  have hdelivers := delivers_tobin_of_fits hle (hwidth ▸ fitsWidth_numeralOf hlen) s'
  rw [hwidth, stringOf_numeralOf hlen] at hdelivers
  exact hdelivers

/-! ## Round trip from a Numeral -/

/-- A request made of a string's bits has the string as its operand (R53). -/
theorem stringOperand_of_len {w : BitVec 6} {x : BinStr} (hlen : x.len = w.toNat) (hle : w.toNat ≤ 32) :
    stringOperand w x.frac (x.bits.setWidth 32) = x :=
  setWidth_setWidth_cast (fun n y => BinStr.mk n y x.frac) x.bits (hlen.trans_le hle) hlen.symm

/-- A request made of a string's bits is well formed (R49). -/
theorem wfString_of_len {w : BitVec 6} {x : BinStr} (hlen : x.len = w.toNat) (hle : w.toNat ≤ 32) :
    wfString w (x.bits.setWidth 32) = true := by
  have hlt : (x.bits.setWidth 32).toNat < 2 ^ w.toNat := hlen ▸ toNat_setWidth_lt 32 x.bits
  rw [wfString, wMax_eq, decide_eq_true hle, decide_eq_true hlt]
  rfl

/-- What a FROMBIN request made of a string's bits delivers. -/
theorem delivers_frombin_of_len {w : BitVec 6} {x : BinStr} (hlen : x.len = w.toNat) (hpos : 1 ≤ w.toNat)
    (hle : w.toNat ≤ 32) (s : State) :
    Delivers (.frombin w x.frac (x.bits.setWidth 32)) s (.ok (.numeral (numeralOf x))) [] := by
  have hdelivers := delivers_frombin (wfString_of_len hlen hle) (Nat.ne_of_gt hpos) x.frac s
  rwa [stringOperand_of_len hlen hle] at hdelivers

/-- The top four bits of a fraction put back in their place: the bits beyond the budget are cleared (R81). -/
theorem extractLsb'_setWidth_shiftLeft_eq_ofNat (f : BitVec 8) :
    (f.extractLsb' 4 4).setWidth 8 <<< 4 = BitVec.ofNat 8 (f.toNat / 2 ^ 4 * 2 ^ 4) := by
  have hdiv : f.toNat / 2 ^ 4 % 2 ^ 4 = f.toNat / 2 ^ 4 := Nat.mod_eq_of_lt (by omega)
  rw [setWidth_shiftLeft_eq_ofNat, extractLsb'_high_eq_ofNat, BitVec.toNat_ofNat, hdiv, Nat.mul_comm]

/-- The signed integer part is negative exactly when the sign is set and the integer part is not 0 (R22). -/
theorem signedPart_neg_iff (v : Numeral) : signedPart v < 0 ↔ (v.sgn && v.imag != 0) = true := by
  have hzero : v.imag = 0 ↔ v.imag.toNat = 0 := BitVec.toNat_inj.symm
  rw [signedPart, Bool.and_eq_true, bne_iff_ne, Ne, hzero]
  split_ifs with hsgn
  · rw [hsgn, eq_self, true_and]
    omega
  · rw [eq_false hsgn, false_and, iff_false]
    omega

/-- The magnitude of the signed integer part (R22). -/
theorem natAbs_signedPart (v : Numeral) : (signedPart v).natAbs = v.imag.toNat := by
  rw [signedPart]
  split_ifs <;> omega

/-- A Numeral without what a string cannot hold: the fraction bits beyond the budget and the sign of a zero integer
part (R81). -/
def cleared (v : Numeral) : Numeral :=
  ⟨v.sgn && v.imag != 0, v.imag, BitVec.ofNat 8 (v.fmag.toNat / 2 ^ 4 * 2 ^ 4)⟩

/-- The round trip of a Numeral that fits gives back all that a string can hold (R81). -/
theorem numeralOf_stringOf {w : Nat} (hpos : 0 < w) {v : Numeral} (hfits : fitsWidth w v = true) :
    numeralOf (stringOf w v) = cleared v := by
  obtain ⟨hlow, hhigh⟩ := (fitsWidth_iff_fitsSigned w v).mp hfits
  have hint : (BitVec.ofInt w (signedPart v)).toInt = signedPart v :=
    BitVec.toInt_ofInt_eq_self hpos hlow (Int.lt_of_le_sub_one hhigh)
  have hmsb : (BitVec.ofInt w (signedPart v)).msb = (v.sgn && v.imag != 0) := by
    rw [BitVec.msb_eq_toInt, hint, Bool.eq_iff_iff, decide_eq_true_eq]
    exact signedPart_neg_iff v
  show Numeral.mk (BitVec.ofInt w (signedPart v)).msb (BitVec.ofNat 32 (BitVec.ofInt w (signedPart v)).toInt.natAbs)
    ((v.fmag.extractLsb' 4 4).setWidth 8 <<< 4) = _
  rw [hmsb, hint, natAbs_signedPart, BitVec.ofNat_toNat, BitVec.setWidth_eq, extractLsb'_setWidth_shiftLeft_eq_ofNat]
  rfl

/-- Nothing is cleared exactly when there was nothing to lose (R81). -/
theorem cleared_eq_self_iff (v : Numeral) :
    cleared v = v ↔ v.fmag.toNat % 2 ^ 4 = 0 ∧ ¬ (v.sgn = true ∧ v.imag = 0) := by
  obtain ⟨sgn, imag, fmag⟩ := v
  have hfrac : BitVec.ofNat 8 (fmag.toNat / 2 ^ 4 * 2 ^ 4) = fmag ↔ fmag.toNat % 2 ^ 4 = 0 := by
    rw [← BitVec.toNat_inj, BitVec.toNat_ofNat]
    omega
  have hsgn : (sgn && imag != 0) = sgn ↔ ¬ (sgn = true ∧ imag = 0) := by
    cases sgn <;> simp
  rw [cleared, Numeral.mk.injEq, hfrac, hsgn, and_comm]
  simp only [true_and]

/-- A success of TOBIN is the string of a Numeral that fits (R74, R75). -/
theorem eq_stringOf_of_delivers {w : BitVec 6} (hle : w.toNat ≤ 32) {v : Numeral} {x : BinStr} {s : State}
    (hdelivers : Delivers (.tobin w v.sgn v.fmag v.imag) s (.ok (.binStr x)) []) :
    fitsWidth (tobinWidth w) v = true ∧ x = stringOf (tobinWidth w) v := by
  have hres := resultOf_of_delivers_ok hdelivers
  rw [resultOf_tobin hle, tobinOp_eq] at hres
  split_ifs at hres with hfits
  cases hres
  exact ⟨hfits, rfl⟩

/-- An instruction delivers one response in a state (R16). -/
theorem response_unique {i : Instr} {s : State} {r r' : Response} {t t' : Trace} (h : Delivers i s r t)
    (h' : Delivers i s r' t') : r = r' := by
  rw [delivers_iff] at h h'
  exact congrArg Prod.fst (h.symm.trans h')

/-- What a FROMBIN request made of a Numeral's string delivers where the Numeral fits (R81). -/
theorem delivers_frombin_stringOf {w : BitVec 6} (hpos : 1 ≤ w.toNat) (hle : w.toNat ≤ 32) {v : Numeral}
    (hfits : fitsWidth w.toNat v = true) (s : State) :
    Delivers (.frombin w (stringOf w.toNat v).frac ((stringOf w.toNat v).bits.setWidth 32)) s
      (.ok (.numeral (cleared v))) [] := by
  rw [← numeralOf_stringOf hpos hfits]
  exact delivers_frombin_of_len rfl hpos hle s

/-- Settles O37: what comes back is `cleared v`, and no other answer can be delivered. -/
theorem numeralRoundTripExactlyWhenRepresentable : Obligations.NumeralRoundTripExactlyWhenRepresentable := by
  intro w v s s' fits hpos hle hiff
  have hwidth : tobinWidth w = w.toNat := tobinWidth_of_ne_zero (Nat.ne_of_gt hpos)
  obtain rfl : fits = (fitsWidth w.toNat v = true) := propext (hiff.trans (fitsWidth_iff w.toNat v).symm)
  have hto := fun hf => delivers_tobin_of_fits (w := w) (v := v) hle hf s
  have hfail := fun hf => delivers_tobin_of_not_fits (w := w) (v := v) hle hf s
  rw [hwidth] at hto hfail
  have hback := fun hf => delivers_frombin_stringOf (v := v) hpos hle hf s'
  refine ⟨⟨?_, ?_⟩, hfail, fun hf => ⟨_, rfl, hto hf, hback hf⟩⟩
  · rintro ⟨x, -, hx, hv⟩
    obtain ⟨hf, rfl⟩ := eq_stringOf_of_delivers hle hx
    rw [hwidth] at hf hv
    have hsame := Payload.numeral.inj (Response.ok.inj (response_unique (hback hf) hv))
    exact ⟨hf, (cleared_eq_self_iff v).mp hsame⟩
  · rintro ⟨hf, hkept⟩
    rw [(cleared_eq_self_iff v).mpr hkept] at hback
    exact ⟨_, rfl, hto hf, hback hf⟩

end Sys2Proof.Proofs
end

section
/-! F32X (spec/42_ieee754_extractor.md R83 to R92): the fields of a binary64 word as numbers, what each class of operand
delivers, the error of the cut (R90), and the host's conversion of a Numeral (R91). -/

namespace Sys2Proof.Proofs

open Sys2Proof Sys2Proof.Machine

/-! ## The fields of a binary64 word -/

/-- The exponent field, as a number (R85). -/
theorem toNat_exponent11 (v : BitVec 64) : (exponent11 v).toNat = v.toNat / 2 ^ 52 % 2 ^ 11 := by
  rw [exponent11, BitVec.extractLsb'_toNat, Nat.shiftRight_eq_div_pow]

/-- The fraction, as a number (R85). -/
theorem toNat_fraction52 (v : BitVec 64) : (fraction52 v).toNat = v.toNat % 2 ^ 52 := by
  rw [fraction52, BitVec.extractLsb'_toNat, Nat.shiftRight_zero]

/-- The sign bit, as a condition on the number (R85). -/
theorem signBit_eq_decide (v : BitVec 64) : signBit v = decide (2 ^ 63 ≤ v.toNat) :=
  (BitVec.msb_eq_getLsbD_last v).symm.trans (BitVec.msb_eq_decide v)

/-- The sign of an operand is the top bit of its high word (R54). -/
theorem signBit_doubleOperand (b a : Word) : signBit (doubleOperand b a) = b.getLsbD 31 := by
  have hmsb : b.getLsbD 31 = decide (2 ^ 31 ≤ b.toNat) :=
    (BitVec.msb_eq_getLsbD_last b).symm.trans (BitVec.msb_eq_decide b)
  rw [signBit_eq_decide, hmsb, doubleOperand, toNat_joinWords, decide_eq_decide]
  omega

/-- The exponent field of an operand stands in its high word (R54). -/
theorem toNat_exponent11_doubleOperand (b a : Word) :
    (exponent11 (doubleOperand b a)).toNat = b.toNat / 2 ^ 20 % 2 ^ 11 := by
  rw [toNat_exponent11, doubleOperand, toNat_joinWords]
  omega

/-- The fraction of an operand: 20 bits of the high word above the low word (R54). -/
theorem toNat_fraction52_doubleOperand (b a : Word) :
    (fraction52 (doubleOperand b a)).toNat = b.toNat % 2 ^ 20 * 2 ^ 32 + a.toNat := by
  rw [toNat_fraction52, doubleOperand, toNat_joinWords]
  omega

/-! ## What each class delivers -/

/-- The fields of a normal result (R88). -/
def normalFields (v : BitVec 64) : Fields754 :=
  ⟨signBit v, BitVec.ofNat 8 ((exponent11 v).toNat - 896), BitVec.ofNat 23 ((fraction52 v).toNat / 2 ^ 29)⟩

/-- The class is normal exactly for the exponent fields 897 to 1150 (R92). -/
theorem classify_eq_normal_iff (e11 : BitVec 11) (f52 : BitVec 52) :
    classify e11 f52 = .normal ↔ 897 ≤ e11.toNat ∧ e11.toNat ≤ 1150 := by
  rw [classify_eq]
  split_ifs <;> simp only [false_iff, true_iff] <;> omega

/-- F32X on a zero (R87). -/
theorem f32xOp_of_zero {v : BitVec 64} (h : classify (exponent11 v) (fraction52 v) = .zero) :
    f32xOp v = .ok (.f754 .zero ⟨signBit v, 0, 0⟩, []) := by
  simp only [f32xOp, h]
  rfl

/-- F32X on a normal value (R88). -/
theorem f32xOp_of_normal {v : BitVec 64} (h : classify (exponent11 v) (fraction52 v) = .normal) :
    f32xOp v = .ok (.f754 .normal (normalFields v), []) := by
  obtain ⟨hlow, -⟩ := (classify_eq_normal_iff _ _).mp h
  have hexp : BitVec.ofInt 8 (rebiased (exponent11 v)) = BitVec.ofNat 8 ((exponent11 v).toNat - 896) := by
    have hrebiased : rebiased (exponent11 v) = (((exponent11 v).toNat - 896 : Nat) : Int) := by
      rw [rebiased]
      omega
    rw [hrebiased, BitVec.ofInt_natCast]
  have hman : cutMantissa Config.f32Round (fraction52 v) = BitVec.ofNat 23 ((fraction52 v).toNat / 2 ^ 29) :=
    BitVec.eq_of_toNat_eq (by
      rw [cutMantissa, BitVec.extractLsb'_toNat, BitVec.toNat_ofNat, Nat.shiftRight_eq_div_pow])
  simp only [f32xOp, h]
  rw [hexp, hman, normalFields]

/-- F32X on any other operand fails with the class (R89). -/
theorem f32xOp_of_special {v : BitVec 64} {c : Class754} (h : classify (exponent11 v) (fraction52 v) = c)
    (hzero : c ≠ .zero) (hnormal : c ≠ .normal) : f32xOp v = .error (.unsupportedSpecialValue c) := by
  simp only [f32xOp, h]
  cases c with
  | zero => exact absurd rfl hzero
  | normal => exact absurd rfl hnormal
  | subnormal | infinite | nan => rfl

/-- A normal result comes from a normal operand, and its fields are the operand's (R88). -/
theorem f32xOp_eq_ok_normal {v : BitVec 64} {g : Fields754} {t : Trace}
    (h : f32xOp v = .ok (.f754 .normal g, t)) :
    classify (exponent11 v) (fraction52 v) = .normal ∧ g = normalFields v := by
  by_cases hnormal : classify (exponent11 v) (fraction52 v) = .normal
  · rw [f32xOp_of_normal hnormal] at h
    cases h
    exact ⟨hnormal, rfl⟩
  · by_cases hzero : classify (exponent11 v) (fraction52 v) = .zero
    · rw [f32xOp_of_zero hzero] at h
      cases h
    · rw [f32xOp_of_special rfl hzero hnormal] at h
      cases h

/-- The class of an operand by its exponent field `e` and its fraction `f`, in the order of R86. -/
theorem classify_doubleOperand {b a : Word} {e f : Nat} (he : e = b.toNat / 2 ^ 20 % 2 ^ 11)
    (hf : f = b.toNat % 2 ^ 20 * 2 ^ 32 + a.toNat) :
    classify (exponent11 (doubleOperand b a)) (fraction52 (doubleOperand b a)) =
      if e = 2047 then (if f = 0 then .infinite else .nan)
      else if e = 0 then (if f = 0 then .zero else .subnormal)
      else if 1151 ≤ e then .infinite
      else if e ≤ 896 then .subnormal
      else .normal := by
  have hzero : fraction52 (doubleOperand b a) = 0 ↔ f = 0 := by
    rw [hf, ← toNat_fraction52_doubleOperand]
    exact BitVec.toNat_inj.symm
  have hexp : (exponent11 (doubleOperand b a)).toNat = e := (toNat_exponent11_doubleOperand b a).trans he.symm
  have hinfinite : 255 ≤ rebiased (exponent11 (doubleOperand b a)) ↔ 1151 ≤ e := by rw [rebiased, hexp]; omega
  have hsubnormal : rebiased (exponent11 (doubleOperand b a)) ≤ 0 ↔ e ≤ 896 := by rw [rebiased, hexp]; omega
  simp only [classify, hexp, hzero, hinfinite, hsubnormal]

section Delivered

variable {b a : Word} {c : Class754}

/-- What F32X delivers for a zero (R87). -/
theorem delivers_f32x_of_zero (h : classify (exponent11 (doubleOperand b a)) (fraction52 (doubleOperand b a)) = .zero)
    (s : State) : Delivers (.f32x b a) s (.ok (.f754 .zero ⟨b.getLsbD 31, 0, 0⟩)) [] := by
  rw [delivers_iff, resultOf, f32xOp_of_zero h, signBit_doubleOperand]
  rfl

/-- What F32X delivers for a normal value (R88). -/
theorem delivers_f32x_of_normal
    (h : classify (exponent11 (doubleOperand b a)) (fraction52 (doubleOperand b a)) = .normal) (s : State) :
    Delivers (.f32x b a) s (.ok (.f754 .normal (normalFields (doubleOperand b a)))) [] := by
  rw [delivers_iff, resultOf, f32xOp_of_normal h]
  rfl

/-- What F32X delivers for any other operand (R89). -/
theorem delivers_f32x_of_special
    (h : classify (exponent11 (doubleOperand b a)) (fraction52 (doubleOperand b a)) = c) (hzero : c ≠ .zero)
    (hnormal : c ≠ .normal) (s : State) : Delivers (.f32x b a) s (.fail (.unsupportedSpecialValue c)) [] := by
  rw [delivers_iff, resultOf, f32xOp_of_special h hzero hnormal]
  rfl

end Delivered

/-- Settles O41: the branches are the classes. -/
theorem f32xExtractsOrClassifies : Obligations.F32xExtractsOrClassifies := by
  intro b a s e f he hf
  have hcls := classify_doubleOperand he hf
  split_ifs at hcls ⊢
  · exact delivers_f32x_of_special hcls (by decide) (by decide) s
  · exact delivers_f32x_of_special hcls (by decide) (by decide) s
  · exact delivers_f32x_of_zero hcls s
  · exact delivers_f32x_of_special hcls (by decide) (by decide) s
  · exact delivers_f32x_of_special hcls (by decide) (by decide) s
  · exact delivers_f32x_of_special hcls (by decide) (by decide) s
  · rw [he, hf, ← toNat_exponent11_doubleOperand b a, ← toNat_fraction52_doubleOperand,
      ← signBit_doubleOperand b a]
    exact delivers_f32x_of_normal hcls s

/-! ## The error of the cut -/

/-- The true exponent is the same in both formats: no carry leaves the mantissa (R83, R88). -/
theorem trueExponent_normalFields {v : BitVec 64} (h : classify (exponent11 v) (fraction52 v) = .normal) :
    ((normalFields v).exponent.toNat : ℤ) - 127 = ((exponent11 v).toNat : ℤ) - 1023 := by
  obtain ⟨hlow, hhigh⟩ := (classify_eq_normal_iff _ _).mp h
  rw [normalFields, BitVec.toNat_ofNat]
  omega

/-- The mantissa is the fraction without its low 29 bits (R88). -/
theorem toNat_mantissa_normalFields (v : BitVec 64) :
    (normalFields v).mantissa.toNat = (fraction52 v).toNat / 2 ^ 29 := by
  have hlt := (fraction52 v).isLt
  rw [normalFields, BitVec.toNat_ofNat]
  omega

/-- A fraction is its top 23 bits and the 29 bits that are dropped (R88). -/
theorem fraction_eq_mantissa_add_dropped (f : Nat) :
    (f : ℚ) / 2 ^ 52 = ((f / 2 ^ 29 : Nat) : ℚ) / 2 ^ 23 + ((f % 2 ^ 29 : Nat) : ℚ) / 2 ^ 52 := by
  have hsplit : (2 ^ 29 : ℚ) * ((f / 2 ^ 29 : Nat) : ℚ) + ((f % 2 ^ 29 : Nat) : ℚ) = f := by
    exact_mod_cast Nat.div_add_mod f (2 ^ 29)
  rw [← hsplit]
  ring

/-- The dropped bits are worth less than the last place of the mantissa (R90). -/
theorem dropped_lt (f : Nat) : ((f % 2 ^ 29 : Nat) : ℚ) / 2 ^ 52 < 2 ^ (-23 : ℤ) := by
  have hlt : ((f % 2 ^ 29 : Nat) : ℚ) < 2 ^ 29 := by exact_mod_cast Nat.mod_lt f (by decide)
  calc ((f % 2 ^ 29 : Nat) : ℚ) / 2 ^ 52 < 2 ^ 29 / 2 ^ 52 := by gcongr
    _ = 2 ^ (-23 : ℤ) := by norm_num

/-- Settles O42: what the value loses is the worth of the dropped bits. -/
theorem f32xTruncatesByLessThanOneUnit : Obligations.F32xTruncatesByLessThanOneUnit := by
  intro b a s g t v v' hdelivers hv hv'
  obtain ⟨hnormal, rfl⟩ := f32xOp_eq_ok_normal (resultOf_of_delivers_ok hdelivers)
  rw [trueExponent_normalFields hnormal, toNat_mantissa_normalFields, toNat_exponent11_doubleOperand,
    toNat_fraction52_doubleOperand] at hv'
  have hlow : a.toNat % 2 ^ 29 = (b.toNat % 2 ^ 20 * 2 ^ 32 + a.toNat) % 2 ^ 29 := by omega
  rw [hlow]
  generalize b.toNat % 2 ^ 20 * 2 ^ 32 + a.toNat = f at hv hv' ⊢
  generalize ((b.toNat / 2 ^ 20 % 2 ^ 11 : Nat) : ℤ) - 1023 = z at hv hv' ⊢
  have hpos : (0 : ℚ) < 2 ^ z := by positivity
  have hloss : v - v' = ((f % 2 ^ 29 : Nat) : ℚ) / 2 ^ 52 * 2 ^ z := by
    rw [hv, hv', fraction_eq_mantissa_add_dropped]
    ring
  refine ⟨signBit_doubleOperand b a, ?_, ?_, fun hzero => ?_⟩
  · rw [← sub_nonneg, hloss]
    positivity
  · have hunit : (2 : ℚ) ^ (z - 23) = 2 ^ (-23 : ℤ) * 2 ^ z := by
      rw [← zpow_add₀ two_ne_zero, neg_add_eq_sub]
    rw [hloss, hunit]
    exact mul_lt_mul_of_pos_right (dropped_lt f) hpos
  · rw [hzero, Nat.cast_zero, zero_div, zero_mul] at hloss
    exact (sub_eq_zero.mp hloss).symm

/-! ## The host's conversion of a Numeral -/

/-- A binary64 word, as a number (R85). -/
theorem toNat_binary64 (s : Bool) (e11 : BitVec 11) (f52 : BitVec 52) :
    (binary64 s e11 f52).toNat = 2 ^ 63 * s.toNat + (2 ^ 52 * e11.toNat + f52.toNat) := by
  have hs : 2 ^ 63 * s.toNat < 2 ^ 64 := by cases s <;> decide
  have he : 2 ^ 52 * e11.toNat < 2 ^ 64 := by omega
  have hlow : 2 ^ 52 * e11.toNat + f52.toNat < 2 ^ 63 := by omega
  rw [binary64, BitVec.or_assoc, BitVec.toNat_or, BitVec.toNat_or, BitVec.toNat_shiftLeft, BitVec.toNat_shiftLeft,
    BitVec.toNat_setWidth_of_le (by decide), BitVec.toNat_setWidth_of_le (by decide),
    BitVec.toNat_setWidth_of_le (by decide), BitVec.toNat_ofBool, Nat.shiftLeft_eq, Nat.shiftLeft_eq, Nat.mul_comm,
    Nat.mod_eq_of_lt hs, Nat.mul_comm e11.toNat, Nat.mod_eq_of_lt he, ← Nat.two_pow_add_eq_or_of_lt f52.isLt,
    ← Nat.two_pow_add_eq_or_of_lt hlow]

/-- The sign is read from where it was put (R85). -/
@[simp] theorem signBit_binary64 (s : Bool) (e11 : BitVec 11) (f52 : BitVec 52) :
    signBit (binary64 s e11 f52) = s := by
  rw [signBit_eq_decide, toNat_binary64]
  cases s
  · exact decide_eq_false (by rw [Bool.toNat_false]; omega)
  · exact decide_eq_true (by rw [Bool.toNat_true]; omega)

/-- The exponent field is read from where it was put (R85). -/
@[simp] theorem exponent11_binary64 (s : Bool) (e11 : BitVec 11) (f52 : BitVec 52) :
    exponent11 (binary64 s e11 f52) = e11 := by
  apply BitVec.eq_of_toNat_eq
  rw [toNat_exponent11, toNat_binary64]
  omega

/-- The fraction is read from where it was put (R85). -/
@[simp] theorem fraction52_binary64 (s : Bool) (e11 : BitVec 11) (f52 : BitVec 52) :
    fraction52 (binary64 s e11 f52) = f52 := by
  apply BitVec.eq_of_toNat_eq
  rw [toNat_fraction52, toNat_binary64]
  omega

/-- The magnitude of a Numeral has at most 40 significant bits (R91). -/
theorem numeralUnits_lt (v : Numeral) : numeralUnits v < 2 ^ 40 := by
  rw [numeralUnits]
  omega

/-- A Numeral is zero exactly when both its parts are (R22). -/
theorem numeralUnits_eq_zero_iff (v : Numeral) : numeralUnits v = 0 ↔ v.imag = 0 ∧ v.fmag = 0 := by
  have himag : v.imag = 0 ↔ v.imag.toNat = 0 := BitVec.toNat_inj.symm
  have hfmag : v.fmag = 0 ↔ v.fmag.toNat = 0 := BitVec.toNat_inj.symm
  rw [numeralUnits, himag, hfmag]
  omega

/-- The value of a Numeral in units of `1/256` (R22). -/
theorem numeralUnits_div (v : Numeral) :
    (numeralUnits v : ℚ) / 2 ^ 8 = (v.imag.toNat : ℚ) + (v.fmag.toNat : ℚ) / 256 := by
  rw [numeralUnits]
  push_cast
  ring

/-- The normal form of a positive number (R83): `L` is the position of its highest set bit. -/
theorem significand_mul_two_pow (u L : Nat) (hle : 2 ^ L ≤ u) (hL : L ≤ 52) :
    (1 + (((u - 2 ^ L) * 2 ^ (52 - L) : Nat) : ℚ) / 2 ^ 52) * 2 ^ L = u := by
  have hpow : (2 : ℚ) ^ 52 = 2 ^ (52 - L) * 2 ^ L := by rw [← pow_add, Nat.sub_add_cancel hL]
  rw [hpow]
  push_cast [Nat.cast_sub hle]
  field_simp
  ring

section NonzeroNumeral

variable {v : Numeral}

/-- The highest set bit of a Numeral's magnitude stands below position 40 (R91). -/
theorem log2_numeralUnits_lt (h : numeralUnits v ≠ 0) : Nat.log2 (numeralUnits v) < 40 :=
  (Nat.log2_lt h).mpr (numeralUnits_lt v)

/-- The exponent field of a Numeral's word (R91). -/
theorem toNat_exponent11_binary64OfNumeral (h : numeralUnits v ≠ 0) :
    (exponent11 (binary64OfNumeral v)).toNat = Nat.log2 (numeralUnits v) + 1015 := by
  have hlog := log2_numeralUnits_lt h
  rw [binary64OfNumeral, if_neg h, exponent11_binary64, BitVec.toNat_ofNat]
  omega

/-- The fraction of a Numeral's word: the bits below the highest set bit, none lost (R91). -/
theorem toNat_fraction52_binary64OfNumeral (h : numeralUnits v ≠ 0) :
    (fraction52 (binary64OfNumeral v)).toNat =
      (numeralUnits v - 2 ^ Nat.log2 (numeralUnits v)) * 2 ^ (52 - Nat.log2 (numeralUnits v)) := by
  have hlog := log2_numeralUnits_lt h
  have hbelow : numeralUnits v - 2 ^ Nat.log2 (numeralUnits v) < 2 ^ Nat.log2 (numeralUnits v) := by
    have hlt : numeralUnits v < 2 ^ (Nat.log2 (numeralUnits v) + 1) := Nat.lt_log2_self
    omega
  have hfits : (numeralUnits v - 2 ^ Nat.log2 (numeralUnits v)) * 2 ^ (52 - Nat.log2 (numeralUnits v)) < 2 ^ 52 :=
    calc _ < 2 ^ Nat.log2 (numeralUnits v) * 2 ^ (52 - Nat.log2 (numeralUnits v)) :=
          Nat.mul_lt_mul_of_pos_right hbelow (Nat.two_pow_pos _)
      _ = 2 ^ 52 := by rw [← Nat.pow_add, Nat.add_sub_cancel' (by omega)]
  rw [binary64OfNumeral, if_neg h, fraction52_binary64, BitVec.toNat_ofNat, Nat.mod_eq_of_lt hfits]

/-- The sign of a Numeral's word is the Numeral's, zero or not. -/
theorem signBit_binary64OfNumeral (v : Numeral) : signBit (binary64OfNumeral v) = v.sgn := by
  rw [binary64OfNumeral]
  split_ifs <;> exact signBit_binary64 _ _ _

/-- A Numeral's word is of class normal (R91). -/
theorem classify_binary64OfNumeral (h : numeralUnits v ≠ 0) :
    classify (exponent11 (binary64OfNumeral v)) (fraction52 (binary64OfNumeral v)) = .normal := by
  have hlog := log2_numeralUnits_lt h
  rw [classify_eq_normal_iff, toNat_exponent11_binary64OfNumeral h]
  omega

/-- A Numeral's word has the Numeral's magnitude (R91). -/
theorem value_binary64OfNumeral (h : numeralUnits v ≠ 0) :
    (1 + ((fraction52 (binary64OfNumeral v)).toNat : ℚ) / 2 ^ 52) *
      2 ^ (((exponent11 (binary64OfNumeral v)).toNat : ℤ) - 1023) = (numeralUnits v : ℚ) / 2 ^ 8 := by
  have hlog := log2_numeralUnits_lt h
  have hexp : ((Nat.log2 (numeralUnits v) + 1015 : Nat) : ℤ) - 1023 = (Nat.log2 (numeralUnits v) : ℤ) - (8 : Nat) := by
    omega
  rw [toNat_exponent11_binary64OfNumeral h, toNat_fraction52_binary64OfNumeral h, hexp, zpow_sub₀ two_ne_zero,
    zpow_natCast, zpow_natCast, mul_div_assoc', significand_mul_two_pow _ _ (Nat.log2_self_le h) (by omega)]

end NonzeroNumeral

/-- Settles O43: a Numeral's word is the normal form of the Numeral's magnitude. -/
theorem numeralsConvertExactlyAndAreNormal : Obligations.NumeralsConvertExactlyAndAreNormal := by
  rintro v s x rfl hne
  have hunits : numeralUnits v ≠ 0 := by
    rw [Ne, numeralUnits_eq_zero_iff, not_and_or]
    exact hne
  have hword : doubleOperand ((binary64OfNumeral v).extractLsb' 32 32) ((binary64OfNumeral v).setWidth 32) =
      binary64OfNumeral v := joinWords_halves _
  have hdelivers := delivers_f32x_of_normal (hword.symm ▸ classify_binary64OfNumeral hunits) s
  refine ⟨?_, _, hdelivers, ?_⟩
  · rw [← toNat_fraction52, ← toNat_exponent11, value_binary64OfNumeral hunits, numeralUnits_div]
  · rw [hword]
    exact signBit_binary64OfNumeral v

end Sys2Proof.Proofs
end

section
/-! TOB32 (spec/43_base32_encoder.md R94 to R99). The integer symbols are read as Mathlib's base-32 digits through
`packDigits`: their number follows from the bounds on a digit list, and each symbol from the magnitude they pack to. -/

namespace Sys2Proof.Proofs

open Sys2Proof Sys2Proof.Machine

/-! ## Digit lists -/

/-- The packing of symbols is the number of which they are the base-32 digits (R64). -/
theorem packDigits_eq_ofDigits (ds : List (BitVec 5)) : packDigits ds = Nat.ofDigits 32 (ds.map BitVec.toNat) := by
  induction ds with
  | nil => rfl
  | cons d ds ih => rw [packDigits, List.map_cons, Nat.ofDigits_cons, ih]

/-- Symbols stand for a number below `32^nd` (R95). -/
theorem packDigits_lt (ds : List (BitVec 5)) : packDigits ds < 32 ^ ds.length := by
  have hdigit : ∀ d ∈ ds.map BitVec.toNat, d < 32 := by
    intro d hd
    obtain ⟨x, -, rfl⟩ := List.mem_map.mp hd
    exact x.isLt
  rw [packDigits_eq_ofDigits, ← List.length_map BitVec.toNat]
  exact Nat.ofDigits_lt_base_pow_length (by decide) hdigit

/-- Symbols without a leading zero stand for a number of at least `32^(nd-1)` (R95). -/
theorem pow_le_packDigits {ds : List (BitVec 5)} {d : BitVec 5} (hlast : ds.getLast? = some d) (hd : d ≠ 0#5) :
    32 ^ (ds.length - 1) ≤ packDigits ds := by
  obtain ⟨init, rfl⟩ := List.getLast?_eq_some_iff.mp hlast
  have hpos : 1 ≤ d.toNat := Nat.one_le_iff_ne_zero.mpr fun h => hd (BitVec.eq_of_toNat_eq h)
  rw [packDigits_eq_ofDigits, List.map_append, Nat.ofDigits_append, List.length_map, List.length_append,
    List.length_singleton, Nat.add_sub_cancel, List.map_singleton, Nat.ofDigits_singleton]
  calc 32 ^ init.length ≤ 32 ^ init.length * d.toNat := Nat.le_mul_of_pos_right _ hpos
    _ ≤ _ := Nat.le_add_left _ _

/-! ## The integer symbols -/

/-- There is at least one integer symbol (R95). -/
theorem one_le_length_base32Symbols (a : Word) : 1 ≤ (base32Symbols a.toNat).length := by
  by_contra hzero
  have hnil : base32Symbols a.toNat = [] := List.length_eq_zero_iff.mp (by omega)
  have ha : 0 = a.toNat := by rw [← packDigits_base32Symbols a, hnil, packDigits]
  rw [← ha] at hnil
  exact absurd hnil (by decide)

/-- The integer symbols hold every magnitude (R95). -/
theorem lt_pow_length_base32Symbols (a : Word) : a.toNat < 32 ^ (base32Symbols a.toNat).length :=
  (packDigits_base32Symbols a).symm.trans_lt (packDigits_lt _)

/-- No leading zero symbol is produced but for the value 0, which is one symbol (R95). -/
theorem length_base32Symbols_minimal (a : Word) :
    (base32Symbols a.toNat).length = 1 ∨ 32 ^ ((base32Symbols a.toNat).length - 1) ≤ a.toNat := by
  by_cases hzero : a.toNat = 0
  · left
    rw [hzero]
    rfl
  · right
    obtain ⟨d, hlast, hd⟩ := getLast?_base32Digits Config.b32Nd a.toNat hzero (a.isLt.trans (by decide))
    have hsymbols : base32Symbols a.toNat = base32Digits Config.b32Nd a.toNat := by rw [base32Symbols, if_neg hzero]
    exact (pow_le_packDigits (hsymbols ▸ hlast) hd).trans_eq (packDigits_base32Symbols a)

/-- Symbol `k` is the magnitude divided by 32 `k` times, modulo 32 (R95). -/
theorem base32Symbols_eq_map (a : Word) :
    base32Symbols a.toNat =
      (List.range (base32Symbols a.toNat).length).map fun k => BitVec.ofNat 5 (a.toNat / 32 ^ k) := by
  have hmap := map_ofNat_packDigits (base32Symbols a.toNat)
  rw [packDigits_base32Symbols] at hmap
  exact hmap.symm

/-! ## The fractional symbol -/

/-- The fractional symbol is the top five bits of the fraction, as a number (R96). -/
theorem toNat_fractionSymbol (f : BitVec 8) : (f.extractLsb' 3 5).toNat = f.toNat / 2 ^ 3 := by
  rw [BitVec.extractLsb'_toNat, Nat.shiftRight_eq_div_pow]
  omega

/-- The fractional symbol, computed from the fraction (R96). -/
theorem fractionSymbol_eq_ofNat (f : BitVec 8) : f.extractLsb' 3 5 = BitVec.ofNat 5 (f.toNat / 2 ^ 3) := by
  rw [← toNat_fractionSymbol, BitVec.ofNat_toNat, BitVec.setWidth_eq]

/-! ## Every outcome -/

/-- A Numeral is negative when its sign is set and it is not zero (R94). -/
theorem isNegative_iff (v : Numeral) : isNegative v = true ↔ v.sgn = true ∧ (v.imag ≠ 0 ∨ v.fmag ≠ 0) := by
  rw [isNegative, Bool.and_eq_true, Bool.or_eq_true, bne_iff_ne, bne_iff_ne]

/-- What TOB32 delivers for a negative Numeral (R94). -/
theorem delivers_tob32_of_negative {v : Numeral} (h : isNegative v = true) (s : State) :
    Delivers (.tob32 v.sgn v.fmag v.imag) s (.fail .domainError) [] := by
  have hop : tob32Op v = .error .domainError := by rw [tob32Op, if_pos h]
  exact (delivers_iff _ _ _ _).mpr (congrArg outcomeOf hop)

/-- What TOB32 delivers for any other Numeral (R95, R96). -/
theorem delivers_tob32_of_not_negative {v : Numeral} (h : ¬ isNegative v = true) (s : State) :
    Delivers (.tob32 v.sgn v.fmag v.imag) s
      (.ok (.b32 (base32Symbols v.imag.toNat) [v.fmag.extractLsb' 3 5])) [] := by
  have hop : tob32Op v = .ok (.b32 (base32Symbols v.imag.toNat) [v.fmag.extractLsb' 3 5], []) := by
    rw [tob32Op, if_neg h, base32Fraction_eq]
  exact (delivers_iff _ _ _ _).mpr (congrArg outcomeOf hop)

/-- Settles O38: the count of symbols is the length of the list that repeated division produces. -/
theorem tob32GivesTheBase32Digits : Obligations.Tob32GivesTheBase32Digits := by
  intro sgn fr a s
  have hiff := isNegative_iff ⟨sgn, a, fr⟩
  split_ifs with hneg
  · exact delivers_tob32_of_negative (hiff.mpr hneg) s
  · refine ⟨(base32Symbols a.toNat).length, one_le_length_base32Symbols a, length_base32Symbols_le _,
      lt_pow_length_base32Symbols a, length_base32Symbols_minimal a, ?_⟩
    rw [← base32Symbols_eq_map, ← fractionSymbol_eq_ofNat]
    exact delivers_tob32_of_not_negative (mt hiff.mp hneg) s

/-- Settles O39: the weighted sum of the symbols is what they pack to, and the fraction loses its low three bits. -/
theorem base32SymbolsStandForTheValue : Obligations.Base32SymbolsStandForTheValue := by
  intro sgn fr a s digits fraction t hd
  obtain ⟨hp, -⟩ : Payload.b32 digits fraction = .b32 (base32Symbols a.toNat) [fr.extractLsb' 3 5] ∧ t = [] :=
    tob32Op_eq_ok (resultOf_of_delivers_ok hd)
  cases hp
  refine ⟨?integer, fr.extractLsb' 3 5, rfl, ?fraction⟩
  case integer => rw [sum_zipIdx_eq_packDigits, Nat.pow_zero, Nat.one_mul, packDigits_base32Symbols]
  case fraction =>
    rw [toNat_fractionSymbol]
    omega

end Sys2Proof.Proofs
end

section
/-! ADD and SUB (spec/44_addsub.md R100 to R109). Ripple-carry addition is the library's sum with its carries, and its
flag is the library's signed overflow, so that what ADD and SUB deliver is stated once and read off as numbers. -/

namespace Sys2Proof.Proofs

open Sys2Proof Sys2Proof.Machine

/-! ## Negation -/

/-- `MIN_w` is the library's most negative pattern (R6). -/
theorem minPattern_eq_intMin {w : Nat} (hw : 0 < w) : minPattern w = BitVec.intMin w := by
  apply BitVec.eq_of_toNat_eq
  rw [toNat_minPattern w hw, BitVec.toNat_intMin_of_pos hw]

/-- The most negative pattern is its own negation (R109). -/
theorem neg_minPattern {w : Nat} (hw : 0 < w) : neg (minPattern w) = minPattern w := by
  rw [neg_eq, minPattern_eq_intMin hw, BitVec.neg_intMin]

/-- The value of the most negative pattern (R6). -/
theorem toInt_minPattern {w : Nat} (hw : 0 < w) : (minPattern w).toInt = -2 ^ (w - 1) := by
  rw [minPattern_eq_intMin hw, BitVec.toInt_intMin_of_pos hw]

/-- The unsigned value of a negated pattern (R8). -/
theorem toNat_neg_pattern {w : Nat} (x : BitVec w) : (neg x).toNat = (2 ^ w - x.toNat) % 2 ^ w := by
  rw [neg_eq, BitVec.toNat_neg]

/-- Negation changes the sign of every other pattern (R109). -/
theorem toInt_neg_of_ne_minPattern {w : Nat} (hw : 0 < w) {x : BitVec w} (hx : x ≠ minPattern w) :
    (neg x).toInt = -x.toInt := by
  rw [minPattern_eq_intMin hw] at hx
  rw [neg_eq, BitVec.toInt_neg_of_ne_intMin hx]

/-- Settles O24. -/
theorem negationInvertsAndAddsOne : Obligations.NegationInvertsAndAddsOne := by
  intro w x hw
  have hzero : neg (0#w) = 0#w := by rw [neg_eq, BitVec.neg_zero]
  exact ⟨toNat_neg_pattern x, hzero, neg_minPattern hw, toInt_neg_of_ne_minPattern hw⟩

/-! ## The carry chain -/

/-- In a full adder, the addends' bits agree and the sum's bit differs from them exactly when the carry out is not the
carry in (R101, R104). -/
theorem fullAdder_overflow_iff : ∀ x y c : Bool,
    (x = y ∧ (x ^^ y ^^ c) ≠ x) ↔ ((x && y) || (x && c) || (y && c)) ≠ c := by decide

/-- Bit `i` of the sum is the sum bit of position `i` (R101). -/
theorem getLsbD_rippleSum {w i : Nat} (hi : i < w) (x y : BitVec w) : (rippleSum x y).getLsbD i = sumBit x y i := by
  rw [rippleSum, getLsbD_ofBits, decide_eq_true hi, Bool.true_and]

/-- Settles O20: the top position is a full adder. -/
theorem overflowFormsAgree : Obligations.OverflowFormsAgree := by
  intro w x y hw
  obtain ⟨n, rfl⟩ := Nat.exists_eq_add_of_le' hw
  rw [Nat.add_sub_cancel, getLsbD_rippleSum n.lt_succ_self, sumBit, carry]
  exact fullAdder_overflow_iff _ _ _

/-- `c[i]` is the carry out of the low `i` bits (R101). -/
theorem carry_eq_decide {w : Nat} (x y : BitVec w) (i : Nat) :
    carry x y i = decide (2 ^ i ≤ x.toNat % 2 ^ i + y.toNat % 2 ^ i) := by
  rw [carry_eq]
  rfl

/-- The trace of an addition in numbers (R103). -/
theorem addTrace_eq {w : Nat} (x y : BitVec w) :
    addTrace x y = (List.range w).map fun i =>
      .add i (x.toNat.testBit i) (y.toNat.testBit i) (decide (2 ^ i ≤ x.toNat % 2 ^ i + y.toNat % 2 ^ i))
        ((rippleSum x y).getLsbD i)
        (decide (2 ^ (i + 1) ≤ x.toNat % 2 ^ (i + 1) + y.toNat % 2 ^ (i + 1))) := by
  refine List.map_congr_left fun i hi => ?_
  rw [addRec, carry_eq_decide, carry_eq_decide, getLsbD_rippleSum (List.mem_range.mp hi)]
  rfl

/-! ## The flag -/

/-- The overflow rule on a ripple-carry sum is the library's signed overflow (R102). -/
theorem addOverflow_eq_saddOverflow {w : Nat} (x y : BitVec w) :
    addOverflow x y (rippleSum x y) = BitVec.saddOverflow x y := by
  rw [BitVec.saddOverflow_eq, addOverflow, rippleSum_eq_add]
  rfl

/-- The flag says whether the signed sum does not fit (R105). -/
theorem addOverflow_iff {w : Nat} (x y : BitVec w) :
    addOverflow x y (rippleSum x y) = true ↔ ¬ FitsSigned w (x.toInt + y.toInt) := by
  rw [addOverflow_eq_saddOverflow, BitVec.saddOverflow, FitsSigned, Bool.or_eq_true, decide_eq_true_eq,
    decide_eq_true_eq]
  omega

/-- Where the second addend is the most negative pattern, the flag is the sign of the first (R107). -/
theorem addOverflow_minPattern {w : Nat} (hw : 0 < w) (x : BitVec w) :
    addOverflow x (minPattern w) (rippleSum x (minPattern w)) = x.msb := by
  have hlt : x.toInt < 2 ^ (w - 1) := BitVec.toInt_lt
  rw [Bool.eq_iff_iff, addOverflow_iff, toInt_minPattern hw, FitsSigned, BitVec.msb_eq_toInt, decide_eq_true_eq]
  omega

/-! ## What ADD and SUB deliver -/

/-- SUB on patterns is ADD of the negated pattern (R106). -/
theorem subOp_eq_addOp_neg (w : Nat) (x y : BitVec w) : subOp w x y = addOp w x (neg y) := rfl

/-- The word that holds the negated operand (R106). -/
def negatedWord (w : BitVec 6) (b : Word) : Word := BitVec.ofNat 32 ((2 ^ w.toNat - b.toNat) % 2 ^ w.toNat)

/-- A word holds the negated operand of a legal width as a number. -/
theorem toNat_negatedWord {w : BitVec 6} (hle : w.toNat ≤ 32) (b : Word) :
    (negatedWord w b).toNat = (2 ^ w.toNat - b.toNat) % 2 ^ w.toNat :=
  Nat.mod_eq_of_lt ((Nat.mod_lt _ (Nat.two_pow_pos _)).trans_le (Nat.pow_le_pow_right (by decide) hle))

/-- The negated operand fits (R106). -/
theorem operandsFit_negatedWord {w : BitVec 6} {a b : Word} (h : OperandsFit w a b) :
    OperandsFit w a (negatedWord w b) := by
  obtain ⟨hpos, hle, ha, -⟩ := h
  refine ⟨hpos, hle, ha, ?_⟩
  rw [toNat_negatedWord hle]
  exact Nat.mod_lt _ (Nat.two_pow_pos _)

/-- The unsigned value of the negated pattern of an operand (R8). -/
theorem toNat_neg_setWidth {n : Nat} {b : Word} (hb : b.toNat < 2 ^ n) :
    (neg (b.setWidth n)).toNat = (2 ^ n - b.toNat) % 2 ^ n := by
  rw [toNat_neg_pattern, toNat_setWidth_of_lt n b hb]

/-- The pattern of the negated operand is the negated pattern (R106). -/
theorem setWidth_negatedWord {w : BitVec 6} {a b : Word} (h : OperandsFit w a b) :
    (negatedWord w b).setWidth w.toNat = neg (b.setWidth w.toNat) := by
  obtain ⟨-, -, -, hnegated⟩ := operandsFit_negatedWord h
  obtain ⟨-, hle, -, hb⟩ := h
  apply BitVec.eq_of_toNat_eq
  rw [toNat_setWidth_of_lt _ _ hnegated, toNat_negatedWord hle, toNat_neg_setWidth hb]

/-- Settles O23: both instructions have the result of one addition. -/
theorem subIsAdditionOfTheNegatedOperand : Obligations.SubIsAdditionOfTheNegatedOperand := by
  intro w a b s h
  have hsub : resultOf (.sub w w w a b) = addOp w.toNat (a.setWidth w.toNat) (neg (b.setWidth w.toNat)) := by
    rw [resultOf, withOperands_of_fit _ _ _ _ h, subOp_eq_addOp_neg]
  have hadd : resultOf (.add w w w a (negatedWord w b)) =
      addOp w.toNat (a.setWidth w.toNat) (neg (b.setWidth w.toNat)) := by
    rw [resultOf, withOperands_of_fit _ _ _ _ (operandsFit_negatedWord h), setWidth_negatedWord h]
  calc exec (.sub w w w a b) s
      = s.conclude (addOp w.toNat (a.setWidth w.toNat) (neg (b.setWidth w.toNat))) := by rw [exec_eq, hsub]
    _ = exec (.add w w w a (negatedWord w b)) s := by rw [exec_eq, hadd]

/-- The response of an addition: the sum and the flag (R102). -/
def sumResponse {w : Nat} (x y : BitVec w) : Response :=
  .ok (.arith w (rippleSum x y) (addOverflow x y (rippleSum x y)))

section Fit

variable {w : BitVec 6} {a b : Word} (h : OperandsFit w a b) (s : State)
include h

/-- What ADD delivers where the operands fit (R102). -/
theorem delivers_add :
    Delivers (.add w w w a b) s (sumResponse (a.setWidth w.toNat) (b.setWidth w.toNat))
      (addTrace (a.setWidth w.toNat) (b.setWidth w.toNat)) := by
  rw [delivers_iff, resultOf, withOperands_of_fit _ _ _ _ h]
  rfl

/-- What SUB delivers where the operands fit (R106). -/
theorem delivers_sub :
    Delivers (.sub w w w a b) s (sumResponse (a.setWidth w.toNat) (neg (b.setWidth w.toNat)))
      (addTrace (a.setWidth w.toNat) (neg (b.setWidth w.toNat))) := by
  rw [delivers_iff, resultOf, withOperands_of_fit _ _ _ _ h, subOp_eq_addOp_neg]
  rfl

end Fit

/-- Settles O18. -/
theorem addGivesTheWrappedSum : Obligations.AddGivesTheWrappedSum := by
  intro w a b s h
  refine ⟨_, _, _, delivers_add h s, ?unsigned, ?signed, addOverflow_iff _ _⟩
  case unsigned =>
    obtain ⟨-, -, ha, hb⟩ := h
    rw [rippleSum_eq_add, BitVec.toNat_add, toNat_setWidth_of_lt _ a ha, toNat_setWidth_of_lt _ b hb]
  case signed =>
    rw [rippleSum_eq_add, BitVec.toInt_add]
    rfl

/-- Settles O19: SUB's trace is that of an addition whose second addend is the negated pattern. -/
theorem addAndSubTraceTheCarryChain : Obligations.AddAndSubTraceTheCarryChain := by
  intro w a b s h
  have hadd := delivers_add h s
  have hsub := delivers_sub h s
  obtain ⟨-, -, ha, hb⟩ := h
  rw [addTrace_eq, toNat_setWidth_of_lt _ a ha] at hadd hsub
  rw [toNat_setWidth_of_lt _ b hb] at hadd
  exact ⟨⟨_, _, hadd⟩, _, _, _, toNat_neg_setWidth hb, hsub⟩

/-- The unsigned difference modulo `2^w` (R108). -/
theorem toNat_rippleSum_neg {w : Nat} (x y : BitVec w) :
    ((rippleSum x (neg y)).toNat : Int) = ((x.toNat : Int) - (y.toNat : Int)) % 2 ^ w := by
  have hle : y.toNat ≤ 2 ^ w := y.isLt.le
  rw [rippleSum_eq_add, neg_eq, ← BitVec.sub_eq_add_neg, BitVec.toNat_sub']
  push_cast [hle]
  rw [← Int.add_sub_assoc, add_sub_right_comm, Int.add_emod_right]

/-- Settles O21. -/
theorem subGivesTheWrappedDifference : Obligations.SubGivesTheWrappedDifference := by
  intro w a b s h
  refine ⟨_, _, _, delivers_sub h s, ?_⟩
  obtain ⟨-, -, ha, hb⟩ := h
  rw [toNat_rippleSum_neg, toNat_setWidth_of_lt _ a ha, toNat_setWidth_of_lt _ b hb]

/-- Settles O22: the flag is that of the addition of the negated operand, whose value is minus that of `b` except at
the most negative pattern. -/
theorem subFlagMirrorsAddOnTheNegatedOperand : Obligations.SubFlagMirrorsAddOnTheNegatedOperand := by
  intro w a b s h
  have hdelivers := delivers_sub h s
  obtain ⟨hpos, -, -, hb⟩ := h
  have hmin : b.setWidth w.toNat = minPattern w.toNat ↔ b.toNat = 2 ^ (w.toNat - 1) := by
    rw [← BitVec.toNat_inj, toNat_setWidth_of_lt _ b hb, toNat_minPattern _ hpos]
  refine ⟨neg_minPattern hpos, _, _, _, hdelivers, fun hne => ?other, fun heq => ?least⟩
  case other =>
    rw [addOverflow_iff, toInt_neg_of_ne_minPattern hpos (mt hmin.mp hne)]
    rfl
  case least =>
    rw [hmin.mpr heq, neg_minPattern hpos, addOverflow_minPattern hpos, BitVec.msb_setWidth,
      decide_eq_true (Nat.zero_lt_of_lt hpos), Bool.true_and]

end Sys2Proof.Proofs
end

section
/-! MUL and DIV (spec/45_muldiv.md R111 to R123). On magnitudes and signs the block computes the library's product and
its quotient truncated toward zero, so that what MUL and DIV deliver is stated once and read off as numbers. -/

namespace Sys2Proof.Proofs

open Sys2Proof Sys2Proof.Machine

/-! ## Patterns as signed numbers -/

/-- The value of a pattern lies in the range of its width (R23). -/
theorem fitsSigned_toInt {w : Nat} (x : BitVec w) : FitsSigned w x.toInt :=
  ⟨BitVec.le_toInt x, Int.le_sub_one_of_lt BitVec.toInt_lt⟩

/-- A number cut to `w` bits, read unsigned. -/
theorem natCast_toNat_ofInt (w : Nat) (z : Int) : ((BitVec.ofInt w z).toNat : Int) = z % 2 ^ w := by
  rw [BitVec.toNat_ofInt, Int.toNat_of_nonneg (Int.emod_nonneg z (by positivity))]
  push_cast
  rfl

/-- A pattern's value is its magnitude with its sign (R111). -/
theorem trueProduct_msb_natAbs {w : Nat} (x : BitVec w) : trueProduct x.msb x.toInt.natAbs = x.toInt := by
  simp only [trueProduct, BitVec.msb_eq_toInt, decide_eq_true_eq]
  split_ifs <;> omega

/-- Signs multiply: the product is negative when they differ (R113). -/
theorem trueProduct_mul (s t : Bool) (p q : Nat) :
    trueProduct (s ^^ t) (p * q) = trueProduct s p * trueProduct t q := by
  cases s <;> cases t <;> simp [trueProduct]

/-- The magnitude is the library's absolute value (R111). -/
theorem mag_eq_abs {w : Nat} (x : BitVec w) : mag x = x.abs := by
  rw [mag, BitVec.abs_eq]
  split_ifs
  · apply BitVec.eq_of_toNat_eq
    rw [BitVec.toNat_ofNat, BitVec.toNat_neg]
  · rw [BitVec.ofNat_toNat, BitVec.setWidth_eq]

/-! ## MUL -/

/-- The product of the magnitudes of two patterns (R112). -/
theorem toNat_shiftAdd_mag {w : Nat} (x y : BitVec w) :
    (shiftAdd (mag x) (mag y)).toNat = x.toInt.natAbs * y.toInt.natAbs := by
  rw [toNat_shiftAdd, toNat_mag, toNat_mag]

/-- The product of the magnitudes with the sign of the product is the product (R113). -/
theorem trueProduct_shiftAdd_mag {w : Nat} (x y : BitVec w) :
    trueProduct (x.msb ^^ y.msb) (shiftAdd (mag x) (mag y)).toNat = x.toInt * y.toInt := by
  rw [toNat_shiftAdd_mag, trueProduct_mul, trueProduct_msb_natAbs, trueProduct_msb_natAbs]

/-- Sign assignment cuts the true product to `w` bits (R113). -/
theorem assignSign_eq_ofInt {w : Nat} (d : Bool) (p : BitVec (2 * w)) :
    assignSign d p = BitVec.ofInt w (trueProduct d p.toNat) := by
  have hcut : p.setWidth w = BitVec.ofInt w p.toNat := by rw [BitVec.ofInt_natCast, BitVec.ofNat_toNat]
  cases d with
  | false => exact hcut
  | true =>
    show (0#(2 * w) - p).setWidth w = BitVec.ofInt w (-(p.toNat : Int))
    rw [BitVec.zero_sub, BitVec.setWidth_neg_of_le (by omega), BitVec.ofInt_neg, hcut]

/-- MUL delivers the library's product (R113). -/
theorem assignSign_shiftAdd_mag {w : Nat} (x y : BitVec w) :
    assignSign (x.msb ^^ y.msb) (shiftAdd (mag x) (mag y)) = x * y := by
  rw [assignSign_eq_ofInt, trueProduct_shiftAdd_mag, BitVec.ofInt_mul, BitVec.ofInt_toInt, BitVec.ofInt_toInt]

/-- The overflow rule of MUL is the library's (R113). -/
theorem mulOverflow_eq_smulOverflow {w : Nat} (x y : BitVec w) :
    mulOverflow w (x.msb ^^ y.msb) (shiftAdd (mag x) (mag y)).toNat = BitVec.smulOverflow x y := by
  rw [mulOverflow, trueProduct_shiftAdd_mag, BitVec.smulOverflow]
  simp only [gt_iff_lt, ge_iff_le, Int.sub_one_lt_iff]

/-- MUL on patterns (R113). -/
theorem mulOp_eq {w : Nat} (x y : BitVec w) :
    mulOp w x y = .ok (.arith w (x * y) (BitVec.smulOverflow x y), mulTrace (mag x) (mag y)) := by
  rw [mulOp, assignSign_shiftAdd_mag, mulOverflow_eq_smulOverflow]

/-- The flag says whether the signed product does not fit (R115). -/
theorem smulOverflow_iff {w : Nat} (x y : BitVec w) :
    BitVec.smulOverflow x y = true ↔ ¬ FitsSigned w (x.toInt * y.toInt) := by
  rw [BitVec.smulOverflow, FitsSigned, Bool.or_eq_true, decide_eq_true_eq, decide_eq_true_eq]
  omega

/-- The trace of MUL on magnitudes `ma` and `mb`, in numbers (R114). -/
theorem mulTrace_eq {w : Nat} (ma mb : BitVec w) :
    mulTrace ma mb = (List.range w).map fun i =>
      .mul i (mb.toNat.testBit i) (BitVec.ofNat 64 (if mb.toNat.testBit i then ma.toNat * 2 ^ i else 0))
        (BitVec.ofNat 64 (ma.toNat * (mb.toNat % 2 ^ (i + 1)))) := by
  refine List.map_congr_left fun i hi => ?_
  have hlt : i < w := List.mem_range.mp hi
  rw [← toNat_accumulator ma mb (i + 1) hlt]
  have hpp := toNat_partialProduct ma mb i hlt.le
  rw [BitVec.getLsbD] at hpp
  rw [← hpp, BitVec.ofNat_toNat, BitVec.ofNat_toNat]
  rfl

/-- What MUL delivers where the operands fit (R113). -/
theorem delivers_mul {w : BitVec 6} {a b : Word} (h : OperandsFit w a b) (s : State) :
    Delivers (.mul w w w a b) s
      (.ok (.arith w.toNat (a.setWidth w.toNat * b.setWidth w.toNat)
        (BitVec.smulOverflow (a.setWidth w.toNat) (b.setWidth w.toNat))))
      (mulTrace (mag (a.setWidth w.toNat)) (mag (b.setWidth w.toNat))) := by
  rw [delivers_iff, resultOf, withOperands_of_fit _ _ _ _ h, mulOp_eq]
  rfl

/-- Settles O27: MUL delivers the product of the patterns, which cuts the signed and the unsigned product alike. -/
theorem mulGivesTheWrappedProduct : Obligations.MulGivesTheWrappedProduct := by
  intro w a b s h
  refine ⟨_, _, _, delivers_mul h s, ?signed, ?unsigned, smulOverflow_iff _ _, fun hfits => ?value⟩
  case signed =>
    rw [signedLow, signedLow, ← natCast_toNat_ofInt, BitVec.ofInt_mul, BitVec.ofInt_toInt, BitVec.ofInt_toInt]
  case unsigned =>
    obtain ⟨-, -, ha, hb⟩ := h
    rw [BitVec.toNat_mul, toNat_setWidth_of_lt _ a ha, toNat_setWidth_of_lt _ b hb]
  case value => exact BitVec.toInt_mul_of_not_smulOverflow (Bool.eq_false_iff.mp hfits)

/-- Settles O28: no partial product and no accumulator wraps. -/
theorem mulTracesPartialProducts : Obligations.MulTracesPartialProducts := by
  intro w a b s h
  have hdelivers := delivers_mul h s
  rw [mulTrace_eq, toNat_mag, toNat_mag] at hdelivers
  exact ⟨_, _, hdelivers⟩

/-! ## DIV -/

/-- The quotient truncated toward zero, by sign and magnitude (R121). -/
theorem tdiv_eq_sign_mul (m n : Int) :
    m.tdiv n = m.sign * n.sign * ((m.natAbs / n.natAbs : Nat) : Int) := by
  have habs : (m.tdiv n).natAbs = m.natAbs / n.natAbs := Int.natAbs_tdiv m n
  rw [← Int.sign_mul_natAbs (m.tdiv n), Int.sign_tdiv, habs]
  split_ifs with hlt
  · rw [Nat.div_eq_of_lt hlt, Int.natCast_zero, mul_zero, mul_zero]
  · rfl

/-- The quotient cut to `w` bits is the library's signed division (R121). -/
theorem sdiv_eq_ofInt {w : Nat} (x y : BitVec w) : x.sdiv y = BitVec.ofInt w (x.toInt.tdiv y.toInt) := by
  rw [← BitVec.toInt_inj, BitVec.toInt_sdiv, BitVec.toInt_ofInt]

section Divisor

variable {w : Nat} {x y : BitVec w} (hy : y.toNat ≠ 0)
include hy

/-- A width that holds a divisor that is not zero is not zero. -/
theorem width_pos_of_toNat_ne_zero : 0 < w := by
  rcases Nat.eq_zero_or_pos w with rfl | hpos
  · exact absurd (BitVec.toNat_of_zero_length rfl y) hy
  · exact hpos

/-- The magnitude of a divisor that is not zero is not zero (R119). -/
theorem toNat_mag_pos : 0 < (mag y).toNat := by
  rw [toNat_mag, Int.natAbs_pos]
  intro hzero
  rw [← BitVec.toInt_zero, BitVec.toInt_inj] at hzero
  exact hy (by rw [hzero, BitVec.toNat_zero])

/-- The quotient of the magnitudes (R118). -/
theorem quotient_mag : quotient (mag x) (mag y) = x.abs / y.abs := by
  apply BitVec.eq_of_toNat_eq
  rw [toNat_quotient _ _ (toNat_mag_pos hy) (toNat_mag_le y (width_pos_of_toNat_ne_zero hy)), BitVec.toNat_udiv,
    mag_eq_abs, mag_eq_abs]

/-- The quotient of the magnitudes with the sign of the quotient is the library's signed division (R119). -/
theorem signed_quotient_eq_sdiv :
    (if x.msb ^^ y.msb then neg (quotient (mag x) (mag y)) else quotient (mag x) (mag y)) = x.sdiv y := by
  rw [quotient_mag hy, neg_eq, BitVec.abs_eq, BitVec.abs_eq, BitVec.sdiv_eq]
  cases x.msb <;> cases y.msb <;> rfl

/-- DIV on patterns (R119). -/
theorem divOp_eq : divOp w x y = .ok (.arith w (x.sdiv y) (divOverflow x y), divTrace (mag x) (mag y)) := by
  rw [divOp, if_neg hy, signed_quotient_eq_sdiv hy]

/-- The trace of DIV in numbers (R120). -/
theorem divTrace_mag_eq :
    divTrace (mag x) (mag y) = (List.range w).map fun k =>
      .div (w - 1 - k) (x.toInt.natAbs.testBit (w - 1 - k))
        ((x.toInt.natAbs / y.toInt.natAbs).testBit (w - 1 - k))
        (BitVec.ofNat 32 (x.toInt.natAbs / 2 ^ (w - 1 - k) % y.toInt.natAbs)) := by
  have hpos := toNat_mag_pos hy
  have hroom := toNat_mag_le y (width_pos_of_toNat_ne_zero hy)
  refine List.map_congr_left fun k hk => ?_
  have hlt : k < w := List.mem_range.mp hk
  have hposition : w - 1 - k = w - (k + 1) := by omega
  rw [divRec, quotientBit_eq _ _ hpos hroom k hlt, ← toNat_mag x, ← toNat_mag y, hposition,
    ← toNat_remainderAfter _ _ hpos hroom (k + 1) hlt, BitVec.ofNat_toNat]
  rfl

end Divisor

/-- The edge case of R119 in numbers. -/
theorem divOverflow_iff {w : Nat} (hw : 0 < w) (x y : BitVec w) :
    divOverflow x y = true ↔ x.toInt = -2 ^ (w - 1) ∧ y.toInt = -1 := by
  have hones : (onesPattern w).toInt = -1 := by rw [onesPattern_eq, BitVec.toInt_allOnes, if_pos hw]
  rw [divOverflow, Bool.and_eq_true, decide_eq_true_eq, decide_eq_true_eq, ← BitVec.toInt_inj, ← BitVec.toInt_inj,
    toInt_minPattern hw, hones]

/-- Outside the edge case the quotient is exact (R121). -/
theorem toInt_sdiv_of_divOverflow_eq_false {w : Nat} (hw : 0 < w) {x y : BitVec w} (h : divOverflow x y = false) :
    (x.sdiv y).toInt = x.toInt.tdiv y.toInt := by
  rw [divOverflow, onesPattern_eq, minPattern_eq_intMin hw, Bool.and_eq_false_iff, decide_eq_false_iff_not,
    decide_eq_false_iff_not, ← BitVec.neg_one_eq_allOnes] at h
  exact BitVec.toInt_sdiv_of_ne_or_ne x y h

/-- In the edge case the quotient is one more than the largest number of the width (R121). -/
theorem tdiv_of_divOverflow {w : Nat} (hw : 0 < w) {x y : BitVec w} (h : divOverflow x y = true) :
    x.toInt.tdiv y.toInt = 2 ^ (w - 1) := by
  obtain ⟨hx, hy⟩ := (divOverflow_iff hw x y).mp h
  rw [hx, hy, Int.tdiv_neg, Int.tdiv_one, neg_neg]

/-- In the edge case the quotient cut to `w` bits is the most negative pattern (R121). -/
theorem sdiv_of_divOverflow {w : Nat} (hw : 0 < w) {x y : BitVec w} (h : divOverflow x y = true) :
    x.sdiv y = minPattern w := by
  rw [divOverflow, Bool.and_eq_true, decide_eq_true_eq, decide_eq_true_eq] at h
  obtain ⟨rfl, rfl⟩ := h
  rw [onesPattern_eq, minPattern_eq_intMin hw, ← BitVec.neg_one_eq_allOnes, BitVec.intMin_sdiv_neg_one]

/-- The flag says whether the quotient does not fit (R121). -/
theorem divOverflow_iff_not_fitsSigned {w : Nat} (hw : 0 < w) (x y : BitVec w) :
    divOverflow x y = true ↔ ¬ FitsSigned w (x.toInt.tdiv y.toInt) := by
  cases h : divOverflow x y with
  | true =>
    rw [tdiv_of_divOverflow hw h, FitsSigned]
    exact iff_of_true rfl fun ⟨_, hle⟩ => absurd hle (by omega)
  | false =>
    have hfits := fitsSigned_toInt (x.sdiv y)
    rw [toInt_sdiv_of_divOverflow_eq_false hw h] at hfits
    simp only [hfits, not_true_eq_false, Bool.false_eq_true]

section Fit

variable {w : BitVec 6} {a b : Word} (h : OperandsFit w a b) (hb : b ≠ 0)
include h hb

/-- The pattern of a divisor that is not zero is not zero (R53). -/
theorem toNat_divisor_ne_zero : (b.setWidth w.toNat).toNat ≠ 0 := by
  obtain ⟨-, -, -, hlt⟩ := h
  rw [toNat_setWidth_of_lt _ b hlt]
  exact fun hzero => hb (BitVec.eq_of_toNat_eq hzero)

/-- What DIV delivers where the operands fit and the divisor is not zero (R119). -/
theorem delivers_div (s : State) :
    Delivers (.div w w w a b) s
      (.ok (.arith w.toNat ((a.setWidth w.toNat).sdiv (b.setWidth w.toNat))
        (divOverflow (a.setWidth w.toNat) (b.setWidth w.toNat))))
      (divTrace (mag (a.setWidth w.toNat)) (mag (b.setWidth w.toNat))) := by
  rw [delivers_iff, resultOf, withOperands_of_fit _ _ _ _ h, divOp_eq (toNat_divisor_ne_zero h hb)]
  rfl

end Fit

/-- Settles O29: the quotient is the library's division truncated toward zero, and the last remainder is that of the
magnitudes. -/
theorem divTruncatesTowardZero : Obligations.DivTruncatesTowardZero := by
  intro w a b s h hb
  have hw : 0 < w.toNat := width_pos_of_toNat_ne_zero (toNat_divisor_ne_zero h hb)
  refine ⟨_, _, _, (signedLow w.toNat a).tdiv (signedLow w.toNat b), delivers_div h hb s, tdiv_eq_sign_mul _ _,
    ?wrapped, divOverflow_iff_not_fitsSigned hw _ _, divOverflow_iff hw _ _, sdiv_of_divOverflow hw,
    toInt_sdiv_of_divOverflow_eq_false hw, magnitudeLow w.toNat a % magnitudeLow w.toNat b, ?identity, ?remainder⟩
  case wrapped => rw [sdiv_eq_ofInt, natCast_toNat_ofInt, signedLow, signedLow]
  case identity =>
    rw [Int.natAbs_tdiv]
    exact (Nat.div_add_mod' _ _).symm
  case remainder =>
    have hpos := toNat_mag_pos (toNat_divisor_ne_zero h hb)
    rw [toNat_mag] at hpos
    exact Nat.mod_lt _ hpos

/-- Settles O30: before each step the remainder is that of the dividend bits brought down so far. -/
theorem divTracesTheRestoringSteps : Obligations.DivTracesTheRestoringSteps := by
  intro w a b s h hb
  have hdelivers := delivers_div h hb s
  rw [divTrace_mag_eq (toNat_divisor_ne_zero h hb)] at hdelivers
  exact ⟨_, _, hdelivers⟩

/-! ## Unsigned division -/

/-- A number that leaves the top bit of its width free is not negative (R123). -/
theorem msb_setWidth_eq_false {n : Nat} {a : Word} (ha : a.toNat < 2 ^ n) : (a.setWidth (n + 1)).msb = false := by
  rw [BitVec.msb_eq_false_iff_two_mul_lt, toNat_setWidth_of_lt _ a (by omega)]
  omega

/-- Patterns that are not negative divide as unsigned numbers (R123). -/
theorem toNat_sdiv_of_msb_eq_false {w : Nat} {x y : BitVec w} (hx : x.msb = false) (hy : y.msb = false) :
    (x.sdiv y).toNat = x.toNat / y.toNat := by
  rw [BitVec.sdiv_eq, hx, hy]
  exact BitVec.toNat_udiv

/-- A dividend that is not negative is not in the edge case (R119). -/
theorem divOverflow_eq_false_of_msb_eq_false {w : Nat} (hw : 0 < w) {x : BitVec w} (hx : x.msb = false)
    (y : BitVec w) : divOverflow x y = false := by
  rw [BitVec.msb_eq_toInt, decide_eq_false_iff_not] at hx
  rw [Bool.eq_false_iff, Ne, divOverflow_iff hw]
  rintro ⟨hmin, -⟩
  have hpos : (0 : Int) < 2 ^ (w - 1) := by positivity
  omega

/-- Settles O31: at width `w + 1` both operands have a sign bit of 0. -/
theorem leadingZeroDividesUnsigned : Obligations.LeadingZeroDividesUnsigned := by
  intro w w' a b s hwidth hw ha hb hne
  have hfit : OperandsFit w' a b := by
    rw [OperandsFit, hwidth]
    omega
  have hdelivers := delivers_div hfit hne s
  have hx : (a.setWidth w'.toNat).msb = false := by
    rw [hwidth]
    exact msb_setWidth_eq_false ha
  have hy : (b.setWidth w'.toNat).msb = false := by
    rw [hwidth]
    exact msb_setWidth_eq_false hb
  obtain ⟨hpos, -, hla, hlb⟩ := hfit
  rw [divOverflow_eq_false_of_msb_eq_false hpos hx] at hdelivers
  refine ⟨_, _, hdelivers, ?_⟩
  rw [toNat_sdiv_of_msb_eq_false hx hy, toNat_setWidth_of_lt _ a hla, toNat_setWidth_of_lt _ b hlb]

end Sys2Proof.Proofs
end

section
/-! The host's Parser (spec/47_host_text_layer.md R126 to R129): what a prefix takes off a text, which failures apply to
what is left, and the value of a text of digits. None of the Parser's open points bears on the texts of this part. -/

namespace Sys2Proof.Proofs

open Sys2Proof Sys2Proof.Machine

/-! ## Texts with one `.` at most -/

/-- A text that is its integer portion and a fractional portion after a `.`, or its integer portion alone, is split into
the two (R129, R131). -/
theorem splitDot_append_tail {I F tail : List Char} (hI : '.' ∉ I) (htail : tail = '.' :: F ∨ tail = [] ∧ F = []) :
    (splitDot (I ++ tail)).1 = I ∧ (splitDot (I ++ tail)).2.getD [] = F := by
  rcases htail with rfl | ⟨rfl, rfl⟩
  · rw [Laws.splitDot_append I F hI]
    exact ⟨rfl, rfl⟩
  · rw [List.append_nil, Laws.splitDot_of_not_mem I hI]
    exact ⟨rfl, rfl⟩

/-! ## Digits -/

/-- The characters of a list of digits are in the radix's alphabet (R128). -/
theorem isDigitOf_of_mem_map {radix : Nat} {ds : List (Char × Nat)} (h : ∀ d ∈ ds, DigitOf d.1 d.2 ∧ d.2 < radix)
    {c : Char} (hc : c ∈ ds.map Prod.fst) : isDigitOf radix c = true := by
  obtain ⟨d, hd, rfl⟩ := List.mem_map.mp hc
  exact (Laws.isDigitOf_iff radix d.1).mpr ⟨d.2, h d hd⟩

/-- The characters of a list of digits are neither a `.` nor a space. -/
theorem ne_of_mem_map {radix : Nat} {ds : List (Char × Nat)} (h : ∀ d ∈ ds, DigitOf d.1 d.2 ∧ d.2 < radix)
    {c : Char} (hc : c ∈ ds.map Prod.fst) : c ≠ '.' ∧ c ≠ ' ' := by
  obtain ⟨d, hd, rfl⟩ := List.mem_map.mp hc
  obtain ⟨hdot, hspace, -⟩ := Laws.digitOf_ne (h d hd).1
  exact ⟨hdot, hspace⟩

/-! ## Prefixes -/

/-- The letter of a prefix takes the prefix off, but for `0b` at radix 16 (R127, N14). -/
theorem takePrefix_of_letter {radix r : Nat} {letter : Char} (hletter : prefixRadix letter = some r)
    (hopen : ¬ (radix = 16 ∧ r = 2)) (rest : List Char) :
    takePrefix radix ('0' :: letter :: rest) = (some r, rest) := by
  rw [takePrefix, hletter]
  exact if_neg fun h => hopen ⟨h.1, h.2.1⟩

/-- A text that does not begin with `0` and a prefix letter has no prefix (R127). -/
theorem takePrefix_eq_none {radix : Nat} {text : List Char}
    (h : ∀ c rest, text = '0' :: c :: rest → prefixRadix c = none) : takePrefix radix text = (none, text) := by
  unfold takePrefix
  split
  · rw [h _ _ rfl]
  · rfl

/-- The digit `0` has the value 0 (R128). -/
theorem digitOf_zero {v : Nat} (h : DigitOf '0' v) : v = 0 := by
  simp [DigitOf] at h
  omega

/-- A text whose first character is a digit other than `0` has no prefix (R127). -/
theorem takePrefix_of_digit {c : Char} {v : Nat} (hc : DigitOf c v) (hv : 1 ≤ v) (radix : Nat) (rest : List Char) :
    takePrefix radix (c :: rest) = (none, c :: rest) := by
  refine takePrefix_eq_none fun x body htext => ?_
  obtain ⟨rfl, -⟩ := List.cons.inj htext
  exact absurd (digitOf_zero hc) (by omega)

/-- Of the digits only `b` and `B` are prefix letters (R127, R128). -/
theorem prefixRadix_of_digit {c : Char} {v : Nat} (hc : DigitOf c v) (hv : v ≠ 11) : prefixRadix c = none := by
  obtain ⟨-, -, -, -, ho, hO, hx, hX⟩ := Laws.digitOf_ne hc
  have hb : c ≠ 'b' := by
    rintro rfl
    simp [DigitOf] at hc
    omega
  have hB : c ≠ 'B' := by
    rintro rfl
    simp [DigitOf] at hc
    omega
  simp [prefixRadix, hb, hB, ho, hO, hx, hX]

/-! ## Failures -/

/-- On a text with at least one digit character and at most one `.`, only the prefix and the alphabet can fail (R127,
R128). -/
theorem parseFailures_of_count_le (radix : Nat) (pre : Option Nat) {body : List Char} (hdot : body.count '.' ≤ 1)
    (hne : (body.filter fun c => c != '.') ≠ []) :
    parseFailures radix pre body =
      (if pre ≠ none ∧ pre ≠ some radix then [.invalidPrefix] else []) ++
        (if (body.filter fun c => c != '.').all (isDigitOf radix) = false then [.invalidDigit] else []) := by
  rw [parseFailures, if_neg (by omega : ¬ 2 ≤ body.count '.'), if_neg hne, List.append_nil, List.append_nil]

/-- On a text with no `.` that is not empty, only the prefix and the alphabet can fail (R127, R128). -/
theorem parseFailures_of_not_mem (radix : Nat) (pre : Option Nat) {body : List Char} (hdot : '.' ∉ body)
    (hne : body ≠ []) :
    parseFailures radix pre body =
      (if pre ≠ none ∧ pre ≠ some radix then [.invalidPrefix] else []) ++
        (if body.all (isDigitOf radix) = false then [.invalidDigit] else []) := by
  have hfilter : (body.filter fun c => c != '.') = body :=
    List.filter_eq_self.mpr fun c hc => bne_iff_ne.mpr fun h => hdot (h ▸ hc)
  have hcount : body.count '.' ≤ 1 := (List.count_eq_zero.mpr hdot).trans_le (Nat.zero_le 1)
  have hfailures := parseFailures_of_count_le radix pre hcount (hfilter.symm ▸ hne)
  rwa [hfilter] at hfailures

section Plain
variable {radix : Nat} (hradix : radix = 2 ∨ radix = 8 ∨ radix = 10 ∨ radix = 16) {c : Char} {text : List Char}
  (hspace : ' ' ∉ c :: text) (hsign : c ≠ '-' ∧ c ≠ '+') {pre : Option Nat} {body : List Char}
  (htake : takePrefix radix (c :: text) = (pre, body))
include hradix hspace hsign htake

/-- A text to which no failure applies parses to its value (R126). -/
theorem parse_of_parseFailures_nil (h : parseFailures radix pre body = []) :
    parse (c :: text) radix = .ok (parsedValue radix false body) := by
  rw [Laws.parse_of_plain c text radix hradix hspace hsign, parseBody, htake]
  simp only [h]

/-- The one failure that applies to a text is the one it gives. -/
theorem parse_of_parseFailures_singleton {f : Failure} (h : parseFailures radix pre body = [f]) :
    parse (c :: text) radix = .error f := by
  rw [Laws.parse_of_plain c text radix hradix hspace hsign, parseBody, htake]
  simp only [h, Laws.reported_nil]

end Plain

/-! ## Texts of digits -/

section DigitText
variable {radix : Nat} {ipart fpart : List (Char × Nat)} {tail : List Char}
  (hdigits : ∀ d ∈ ipart ++ fpart, DigitOf d.1 d.2 ∧ d.2 < radix)
  (htail : tail = '.' :: fpart.map Prod.fst ∨ tail = [] ∧ fpart = [])
include hdigits htail

/-- A text of digits holds no space. -/
theorem space_not_mem_digitText : ' ' ∉ ipart.map Prod.fst ++ tail := by
  have hipart : ' ' ∉ ipart.map Prod.fst := fun h =>
    (ne_of_mem_map (fun d hd => hdigits d (List.mem_append_left _ hd)) h).2 rfl
  have hfpart : ' ' ∉ fpart.map Prod.fst := fun h =>
    (ne_of_mem_map (fun d hd => hdigits d (List.mem_append_right _ hd)) h).2 rfl
  rw [List.mem_append, not_or]
  rcases htail with rfl | ⟨rfl, -⟩
  · exact ⟨hipart, List.not_mem_cons_of_ne_of_not_mem (by decide) hfpart⟩
  · exact ⟨hipart, List.not_mem_nil⟩

/-- The characters of a text of digits, without its `.`, are those of its digits. -/
theorem filter_digitText :
    ((ipart.map Prod.fst ++ tail).filter fun c => c != '.') = (ipart ++ fpart).map Prod.fst := by
  have hself : ((ipart ++ fpart).map Prod.fst).filter (fun c => c != '.') = (ipart ++ fpart).map Prod.fst :=
    List.filter_eq_self.mpr fun c hc => bne_iff_ne.mpr (ne_of_mem_map hdigits hc).1
  rw [List.map_append] at hself ⊢
  rcases htail with rfl | ⟨rfl, rfl⟩
  · rw [← hself, List.filter_append, List.filter_append, List.filter_cons_of_neg (by decide)]
  · exact hself

/-- A text of digits holds at most one `.` (R129). -/
theorem count_digitText_le : (ipart.map Prod.fst ++ tail).count '.' ≤ 1 := by
  have hzero : ((ipart ++ fpart).map Prod.fst).count '.' = 0 :=
    List.count_eq_zero.mpr fun h => (ne_of_mem_map hdigits h).1 rfl
  rw [List.map_append, List.count_append] at hzero
  rw [List.count_append]
  rcases htail with rfl | ⟨rfl, -⟩
  · rw [List.count_cons_self]
    omega
  · rw [List.count_nil]
    omega

/-- No failure applies to a text of digits with its radix's prefix or none. -/
theorem parseFailures_digitText (hne : ipart ≠ []) {pre : Option Nat} (hpre : pre = none ∨ pre = some radix) :
    parseFailures radix pre (ipart.map Prod.fst ++ tail) = [] := by
  have hfilter := filter_digitText hdigits htail
  have hchars : ((ipart ++ fpart).map Prod.fst) ≠ [] := by simp [hne]
  have hall : ((ipart ++ fpart).map Prod.fst).all (isDigitOf radix) = true :=
    List.all_eq_true.mpr fun c hc => isDigitOf_of_mem_map hdigits hc
  rw [parseFailures_of_count_le radix pre (count_digitText_le hdigits htail) (hfilter.symm ▸ hchars), hfilter, hall,
    if_neg (fun h => hpre.elim h.1 h.2)]
  rfl

/-- The value of a text of digits (R129). -/
theorem parsedValue_digitText (neg : Bool) :
    parsedValue radix neg (ipart.map Prod.fst ++ tail) =
      ⟨neg, positional radix (ipart.map Prod.snd), positional radix (fpart.map Prod.snd), radix ^ fpart.length⟩ := by
  have hipart : ∀ d ∈ ipart, DigitOf d.1 d.2 ∧ d.2 < radix := fun d hd => hdigits d (List.mem_append_left _ hd)
  have hfpart : ∀ d ∈ fpart, DigitOf d.1 d.2 := fun d hd => (hdigits d (List.mem_append_right _ hd)).1
  have htail' : tail = '.' :: fpart.map Prod.fst ∨ tail = [] ∧ fpart.map Prod.fst = [] :=
    htail.imp_right (And.imp_right List.map_eq_nil_iff.mpr)
  obtain ⟨hint, hfrac⟩ := splitDot_append_tail (fun h => (ne_of_mem_map hipart h).1 rfl) htail'
  rw [parsedValue, hint, hfrac, Laws.digitsValue_eq_positional radix ipart fun d hd => (hipart d hd).1,
    Laws.digitsValue_eq_positional radix fpart hfpart, List.length_map]

/-- A text of digits with its radix's prefix parses to its value (R127, R129). -/
theorem parse_prefixed_digitText (hradix : radix = 2 ∨ radix = 8 ∨ radix = 10 ∨ radix = 16) (hne : ipart ≠ [])
    {letter : Char} (hletter : prefixRadix letter = some radix) (hspace : ' ' ≠ letter) :
    parse ('0' :: letter :: (ipart.map Prod.fst ++ tail)) radix =
      .ok ⟨false, positional radix (ipart.map Prod.snd), positional radix (fpart.map Prod.snd),
        radix ^ fpart.length⟩ := by
  have hplain : ' ' ∉ '0' :: letter :: (ipart.map Prod.fst ++ tail) :=
    List.not_mem_cons_of_ne_of_not_mem (by decide)
      (List.not_mem_cons_of_ne_of_not_mem hspace (space_not_mem_digitText hdigits htail))
  rw [parse_of_parseFailures_nil hradix hplain (by decide) (takePrefix_of_letter hletter (by omega) _)
    (parseFailures_digitText hdigits htail hne (.inr rfl)), parsedValue_digitText hdigits htail]

/-- The second character of a text of digits that does not begin with `0b` or `0B` is no prefix letter after a `0`. -/
theorem prefixRadix_second_digitText (hopen : ¬ (ipart.map Prod.snd).take 2 = [0, 11]) {c : Char} {rest : List Char}
    (htext : ipart.map Prod.fst ++ tail = '0' :: c :: rest) : prefixRadix c = none := by
  match ipart with
  | [] =>
    rcases htail with rfl | ⟨rfl, -⟩
    · exact absurd (List.cons.inj htext).1 (by decide)
    · exact absurd htext (List.cons_ne_nil _ _).symm
  | [d] =>
    obtain ⟨-, htext⟩ := List.cons.inj htext
    rcases htail with rfl | ⟨rfl, -⟩
    · obtain ⟨rfl, -⟩ := List.cons.inj htext
      rfl
    · exact absurd htext (List.cons_ne_nil _ _).symm
  | (c₀, v₀) :: (c₁, v₁) :: ds =>
    obtain ⟨rfl, hsecond⟩ := List.cons.inj htext
    obtain ⟨rfl, -⟩ := List.cons.inj hsecond
    have hzero : v₀ = 0 := digitOf_zero (hdigits ('0', v₀) (by simp)).1
    exact prefixRadix_of_digit (hdigits (c₁, v₁) (by simp)).1 fun hv => hopen (by simpa [hzero] using hv)

/-- A text of digits with no prefix parses to its value (R127, R129); at radix 16 it may not begin with `0b` (N14). -/
theorem parse_unprefixed_digitText (hradix : radix = 2 ∨ radix = 8 ∨ radix = 10 ∨ radix = 16) (hne : ipart ≠ [])
    (hopen : ¬ (ipart.map Prod.snd).take 2 = [0, 11]) :
    parse (ipart.map Prod.fst ++ tail) radix =
      .ok ⟨false, positional radix (ipart.map Prod.snd), positional radix (fpart.map Prod.snd),
        radix ^ fpart.length⟩ := by
  have hspace := space_not_mem_digitText hdigits htail
  have htake : takePrefix radix (ipart.map Prod.fst ++ tail) = (none, ipart.map Prod.fst ++ tail) :=
    takePrefix_eq_none fun _ _ => prefixRadix_second_digitText hdigits htail hopen
  have hfailures := parseFailures_digitText hdigits htail hne (.inl rfl)
  have hvalue := parsedValue_digitText hdigits htail false
  match ipart, hne with
  | d :: ds, _ =>
    obtain ⟨-, -, hminus, hplus, -⟩ := Laws.digitOf_ne (hdigits d (by simp)).1
    exact (parse_of_parseFailures_nil hradix hspace ⟨hminus, hplus⟩ htake hfailures).trans (congrArg _ hvalue)

end DigitText

/-- Digits of a radix up to 10 are not the digits of `0b`. -/
theorem take_ne_of_radix_le {radix : Nat} (hradix : radix ≤ 10) {ds : List (Char × Nat)}
    (h : ∀ d ∈ ds, DigitOf d.1 d.2 ∧ d.2 < radix) : ¬ (ds.map Prod.snd).take 2 = [0, 11] := by
  intro htake
  have hmem : 11 ∈ (ds.map Prod.snd).take 2 := htake ▸ by decide
  obtain ⟨d, hd, hvalue⟩ := List.mem_map.mp (List.mem_of_mem_take hmem)
  have hlt := (h d hd).2
  omega

/-- Settles O50: a decimal text has no prefix, no failure applies to it, and its value is that of its digits. -/
theorem decimalTextParsesToItsValue : Obligations.DecimalTextParsesToItsValue := by
  intro ipart fpart tail hdigits hne htail
  exact parse_unprefixed_digitText hdigits htail (by decide) hne
    (take_ne_of_radix_le le_rfl fun d hd => hdigits d (List.mem_append_left _ hd))

/-- Settles O53: by the prefix the text begins with, if any. -/
theorem digitTextParsesToItsValue : Obligations.DigitTextParsesToItsValue := by
  intro radix start ipart fpart tail hdigits hne htail hstart
  have hipart : ∀ d ∈ ipart, DigitOf d.1 d.2 ∧ d.2 < radix := fun d hd => hdigits d (List.mem_append_left _ hd)
  rcases hstart with ⟨rfl, rfl⟩ | ⟨rfl, rfl⟩ | ⟨rfl, rfl⟩ | ⟨hradix, rfl⟩ | ⟨rfl, rfl, hopen⟩
  · exact parse_prefixed_digitText hdigits htail (by decide) hne (letter := 'b') rfl (by decide)
  · exact parse_prefixed_digitText hdigits htail (by decide) hne (letter := 'o') rfl (by decide)
  · exact parse_prefixed_digitText hdigits htail (by decide) hne (letter := 'x') rfl (by decide)
  · exact parse_unprefixed_digitText hdigits htail (by omega) hne (take_ne_of_radix_le (by omega) hipart)
  · exact parse_unprefixed_digitText hdigits htail (by decide) hne hopen

/-! ## The failures, one at a time -/

/-- A prefix of another radix before digits of the declared one is the only failure (R127). -/
theorem parse_of_foreign_prefix {radix other : Nat} {letter : Char}
    (hradix : radix = 2 ∨ radix = 8 ∨ radix = 10 ∨ radix = 16) (hletter : prefixRadix letter = some other)
    (hspace : ' ' ≠ letter) (hopen : ¬ (radix = 16 ∧ other = 2)) (hother : other ≠ radix) {ds : List (Char × Nat)}
    (hne : ds ≠ []) (hdigits : ∀ d ∈ ds, DigitOf d.1 d.2 ∧ d.2 < radix) :
    parse ('0' :: letter :: ds.map Prod.fst) radix = .error .invalidPrefix := by
  have hplain : ' ' ∉ '0' :: letter :: ds.map Prod.fst :=
    List.not_mem_cons_of_ne_of_not_mem (by decide)
      (List.not_mem_cons_of_ne_of_not_mem hspace fun h => (ne_of_mem_map hdigits h).2 rfl)
  have hall : (ds.map Prod.fst).all (isDigitOf radix) = true :=
    List.all_eq_true.mpr fun c hc => isDigitOf_of_mem_map hdigits hc
  refine parse_of_parseFailures_singleton hradix hplain (by decide) (takePrefix_of_letter hletter hopen _) ?_
  rw [parseFailures_of_not_mem radix _ (fun h => (ne_of_mem_map hdigits h).1 rfl) (mt List.map_eq_nil_iff.mp hne), hall,
    if_pos ⟨Option.some_ne_none other, fun h => hother (Option.some.inj h)⟩]
  rfl

/-- A character outside the radix's alphabet is the only failure of a text with no `.`, with the radix's
own prefix before it or none (R128). -/
theorem parseFailures_of_bad_digit {radix : Nat} {pre : Option Nat} (hpre : pre = none ∨ pre = some radix)
    {body : List Char} (hdot : '.' ∉ body) (hbad : ∃ x ∈ body, ∀ u : Nat, DigitOf x u → radix ≤ u) :
    parseFailures radix pre body = [.invalidDigit] := by
  obtain ⟨x, hx, hout⟩ := hbad
  have hnot : ¬ isDigitOf radix x = true := by
    rw [Laws.isDigitOf_iff]
    rintro ⟨u, hu, hlt⟩
    exact absurd (hout u hu) (Nat.not_le.mpr hlt)
  have hall : body.all (isDigitOf radix) = false := List.all_eq_false.mpr ⟨x, hx, hnot⟩
  rw [parseFailures_of_not_mem radix pre hdot (List.ne_nil_of_mem hx), if_neg (fun h => hpre.elim h.1 h.2), if_pos hall]
  rfl

/-- Settles O54: of each kind of text, the one failure that applies. -/
theorem parserFailsAsItsRulesSay : Obligations.ParserFailsAsItsRulesSay := by
  intro radix hradix
  refine ⟨fun k => ?blank, fun letter other ds hletter hother hne hdigits => ?foreignPrefix,
    fun c v body hc hv hlt hspace hdot hbad => ?badDigit⟩
  case blank =>
    have hcontract : radix ∈ [2, 8, 10, 16] := by simpa using hradix
    have hblank : isBlank (List.replicate k ' ') = true := by simp [isBlank]
    rw [parse, if_neg (not_not_intro hcontract), if_pos hblank]
  case foreignPrefix =>
    rcases hletter with ⟨rfl, rfl, hopen⟩ | ⟨rfl, rfl⟩ | ⟨rfl, rfl⟩
    · exact parse_of_foreign_prefix hradix (letter := 'b') rfl (by decide) (fun h => hopen h.1) hother hne hdigits
    · exact parse_of_foreign_prefix hradix (letter := 'o') rfl (by decide) (by omega) hother hne hdigits
    · exact parse_of_foreign_prefix hradix (letter := 'x') rfl (by decide) (by omega) hother hne hdigits
  case badDigit =>
    obtain ⟨hcdot, hcspace, hminus, hplus, -⟩ := Laws.digitOf_ne hc
    have hspace' : ' ' ∉ c :: body := List.not_mem_cons_of_ne_of_not_mem hcspace.symm hspace
    have hdot' : '.' ∉ c :: body := List.not_mem_cons_of_ne_of_not_mem hcdot.symm hdot
    have hbad' : ∃ x ∈ c :: body, ∀ u : Nat, DigitOf x u → radix ≤ u :=
      hbad.imp fun x => And.imp_left (List.mem_cons_of_mem c)
    have hprefixed : ∀ letter, prefixRadix letter = some radix → ' ' ≠ letter →
        parse ('0' :: letter :: c :: body) radix = .error .invalidDigit := fun letter hletter hne =>
      parse_of_parseFailures_singleton hradix
        (List.not_mem_cons_of_ne_of_not_mem (by decide) (List.not_mem_cons_of_ne_of_not_mem hne hspace')) (by decide)
        (takePrefix_of_letter hletter (by omega) _) (parseFailures_of_bad_digit (.inr rfl) hdot' hbad')
    refine ⟨?_, ?_, ?_, ?_⟩
    · exact parse_of_parseFailures_singleton hradix hspace' ⟨hminus, hplus⟩ (takePrefix_of_digit hc hv radix body)
        (parseFailures_of_bad_digit (.inl rfl) hdot' hbad')
    · rintro rfl
      exact hprefixed 'b' rfl (by decide)
    · rintro rfl
      exact hprefixed 'o' rfl (by decide)
    · rintro rfl
      exact hprefixed 'x' rfl (by decide)

end Sys2Proof.Proofs
end

section
/-! The Formatter (spec/47_host_text_layer.md R133, R134): it inserts spaces and nothing else, and the spaces stand at
the boundaries of groups. Past the first group both portions are cut from the left, so that one lemma says where the
spaces stand in either; the two differ in the length of the first group. -/

namespace Sys2Proof.Proofs

open Sys2Proof Sys2Proof.Machine

/-! ## Only spaces are added -/

/-- A text that holds no space is left as it is (R134). -/
theorem digitsOnly_of_not_mem {text : List Char} (h : ' ' ∉ text) : digitsOnly text = text :=
  List.filter_eq_self.mpr fun _ hc => bne_iff_ne.mpr fun heq => h (heq ▸ hc)

/-- The spaces of a text are dropped part by part. -/
theorem digitsOnly_append (xs ys : List Char) : digitsOnly (xs ++ ys) = digitsOnly xs ++ digitsOnly ys :=
  List.filter_append xs ys

/-- Without its spaces, a text with spaces put in is the text without its spaces (R134). -/
theorem digitsOnly_spaceBefore (p : Nat → Bool) (k : Nat) (cs : List Char) :
    digitsOnly (spaceBefore p k cs) = digitsOnly cs := by
  induction cs generalizing k with
  | nil => rfl
  | cons c cs ih =>
    have hrest : digitsOnly (c :: spaceBefore p (k + 1) cs) = digitsOnly (c :: cs) := by
      rw [digitsOnly, digitsOnly, List.filter_cons, List.filter_cons, ← digitsOnly, ← digitsOnly, ih]
    rw [spaceBefore]
    split
    · exact hrest
    · exact hrest

/-! ## The two portions -/

/-- A text with no `.` is all integer portion (R133). -/
theorem group_of_not_mem {I : List Char} (h : '.' ∉ I) (n : Nat) : group I n = groupRight n I := by
  rw [group, Laws.splitDot_of_not_mem I h]

/-- The two portions of a text are grouped on their own (R133). -/
theorem group_append {I : List Char} (h : '.' ∉ I) (F : List Char) (n : Nat) :
    group (I ++ '.' :: F) n = groupRight n I ++ '.' :: groupLeft n F := by
  rw [group, Laws.splitDot_append I F h]

/-- Without its spaces, a grouped text is the text without its spaces (R134). -/
theorem digitsOnly_group (text : List Char) (n : Nat) : digitsOnly (group text n) = digitsOnly text := by
  by_cases h : '.' ∈ text
  · obtain ⟨I, F, rfl, hI⟩ := List.eq_append_cons_of_mem h
    have hF : digitsOnly ('.' :: groupLeft n F) = digitsOnly ('.' :: F) :=
      congrArg ('.' :: ·) (digitsOnly_spaceBefore _ 0 F)
    rw [group_append hI, digitsOnly_append, digitsOnly_append, hF, groupRight, digitsOnly_spaceBefore]
  · rw [group_of_not_mem h, groupRight, digitsOnly_spaceBefore]

/-! ## Where the spaces stand -/

/-- Spaces are put into a text part by part. -/
theorem spaceBefore_append (p : Nat → Bool) (k : Nat) (xs ys : List Char) :
    spaceBefore p k (xs ++ ys) = spaceBefore p k xs ++ spaceBefore p (k + xs.length) ys := by
  induction xs generalizing k with
  | nil => rfl
  | cons c xs ih =>
    rw [List.cons_append, spaceBefore, spaceBefore, ih, List.length_cons, Nat.add_right_comm, Nat.add_assoc]
    split <;> rfl

/-- Where no index is marked, no space is put. -/
theorem spaceBefore_eq_self {p : Nat → Bool} {k : Nat} {cs : List Char}
    (h : ∀ i < cs.length, p (k + i) = false) : spaceBefore p k cs = cs := by
  induction cs generalizing k with
  | nil => rfl
  | cons c cs ih =>
    have hk : p k = false := h 0 (Nat.zero_lt_succ _)
    have hcs : spaceBefore p (k + 1) cs = cs := ih fun i hi => by
      rw [Nat.add_right_comm]
      exact h (i + 1) (Nat.succ_lt_succ hi)
    rw [spaceBefore, hk, hcs]
    rfl

/-- A group that begins at a marked index, and in which no other index is marked, has a space before it. -/
theorem spaceBefore_eq_cons {p : Nat → Bool} {k : Nat} {cs : List Char} (hne : cs ≠ []) (hk : p k = true)
    (h : ∀ i < cs.length, 0 < i → p (k + i) = false) : spaceBefore p k cs = ' ' :: cs := by
  match cs, hne with
  | c :: cs, _ =>
    have hcs : spaceBefore p (k + 1) cs = cs := spaceBefore_eq_self fun i hi => by
      rw [Nat.add_assoc, Nat.add_comm 1 i]
      exact h (i + 1) (Nat.succ_lt_succ hi) (Nat.succ_pos i)
    rw [spaceBefore, hk, hcs]
    rfl

/-- `gs` cuts `cs` into groups of `n` characters, of which only the last may be shorter (R133). -/
structure CutsLeft (n : Nat) (cs : List Char) (gs : List (List Char)) : Prop where
  flatten : gs.flatten = cs
  length : ∀ g ∈ gs, 1 ≤ g.length ∧ g.length ≤ n
  length_dropLast : ∀ g ∈ gs.dropLast, g.length = n

/-- `gs` cuts `cs` into groups of `n` characters, of which only the first may be shorter (R133). -/
structure CutsRight (n : Nat) (cs : List Char) (gs : List (List Char)) : Prop where
  flatten : gs.flatten = cs
  length : ∀ g ∈ gs, 1 ≤ g.length ∧ g.length ≤ n
  length_tail : ∀ g ∈ gs.tail, g.length = n

section Cuts
variable {n : Nat} {g cs : List Char} {gs : List (List Char)}

/-- The empty text is cut into no groups. -/
theorem cutsLeft_nil : CutsLeft n [] [] := ⟨rfl, by simp, by simp⟩

/-- A group before others is full; the only group need not be. -/
theorem CutsLeft.cons (h : CutsLeft n cs gs) (hg : 1 ≤ g.length ∧ g.length ≤ n) (hfull : cs ≠ [] → g.length = n) :
    CutsLeft n (g ++ cs) (g :: gs) := by
  obtain ⟨hflatten, hlength, hdropLast⟩ := h
  refine ⟨by rw [List.flatten_cons, hflatten], List.forall_mem_cons.mpr ⟨hg, hlength⟩, ?_⟩
  match gs with
  | [] => simp
  | g' :: gs =>
    have hcs : cs ≠ [] := by
      rintro rfl
      have hpos := (hlength g' List.mem_cons_self).1
      rw [List.flatten_cons, List.append_eq_nil_iff] at hflatten
      rw [hflatten.1] at hpos
      exact absurd hpos (by decide)
    exact List.forall_mem_cons.mpr ⟨hfull hcs, hdropLast⟩

/-- Where the length is a multiple of the group size, the last group is full too. -/
theorem CutsLeft.length_eq_of_dvd (h : CutsLeft n cs gs) (hdvd : n ∣ cs.length) : ∀ g ∈ gs, g.length = n := by
  obtain ⟨rfl, hlength, hdropLast⟩ := h
  induction gs with
  | nil => simp
  | cons g gs ih =>
    rw [List.flatten_cons, List.length_append] at hdvd
    obtain ⟨hg, hgs⟩ := List.forall_mem_cons.mp hlength
    match gs with
    | [] =>
      have hle : n ≤ g.length := Nat.le_of_dvd hg.1 hdvd
      exact List.forall_mem_cons.mpr ⟨Nat.le_antisymm hg.2 hle, by simp⟩
    | g' :: gs =>
      obtain ⟨hfull, hrest⟩ := List.forall_mem_cons.mp hdropLast
      rw [hfull, Nat.dvd_add_self_left] at hdvd
      exact List.forall_mem_cons.mpr ⟨hfull, ih hgs hrest hdvd⟩

/-- Groups of which all but the first are full, from the left, are cut from the right. -/
theorem CutsLeft.cutsRight_cons (h : CutsLeft n cs gs) (hg : 1 ≤ g.length ∧ g.length ≤ n) (hdvd : n ∣ cs.length) :
    CutsRight n (g ++ cs) (g :: gs) :=
  ⟨by rw [List.flatten_cons, h.flatten], List.forall_mem_cons.mpr ⟨hg, h.length⟩, h.length_eq_of_dvd hdvd⟩

end Cuts

/-- A first part of a text that leaves a rest is full. -/
theorem length_take_of_drop_ne_nil {n : Nat} {cs : List Char} (h : cs.drop n ≠ []) : (cs.take n).length = n := by
  rw [Ne, List.drop_eq_nil_iff] at h
  rw [List.length_take]
  omega

/-- The first `n` characters of a text that is not empty make a group. -/
theorem length_take_bounds {n : Nat} (hn : 1 ≤ n) {cs : List Char} (h : cs ≠ []) :
    1 ≤ (cs.take n).length ∧ (cs.take n).length ≤ n := by
  have hpos := List.length_pos_iff.mpr h
  rw [List.length_take]
  omega

/-- Where every `n`th index is marked from the first on, each group of `n` characters has a space before it. -/
theorem exists_cutsLeft_spaceBefore {n : Nat} (hn : 1 ≤ n) (p : Nat → Bool) (k : Nat) (cs : List Char)
    (hp : ∀ i < cs.length, p (k + i) = decide (i % n = 0)) :
    ∃ gs, CutsLeft n cs gs ∧ spaceBefore p k cs = gs.flatMap (' ' :: ·) := by
  by_cases hcs : cs = []
  · subst hcs
    exact ⟨[], cutsLeft_nil, rfl⟩
  have hlength : (cs.take n).length + (cs.drop n).length = cs.length := by
    rw [← List.length_append, List.take_append_drop]
  have hbounds := length_take_bounds hn hcs
  obtain ⟨gs, hcuts, hspaces⟩ := exists_cutsLeft_spaceBefore hn p (k + (cs.take n).length) (cs.drop n) fun i hi => by
    have hfull := length_take_of_drop_ne_nil (List.length_pos_iff.mp (Nat.zero_lt_of_lt hi))
    rw [Nat.add_assoc, hp _ (by omega), hfull, Nat.add_mod_left]
  have hfirst : spaceBefore p k (cs.take n) = ' ' :: cs.take n :=
    spaceBefore_eq_cons (List.length_pos_iff.mp hbounds.1) (by simpa using hp 0 (List.length_pos_iff.mpr hcs))
      fun i hi hpos => by
        rw [hp i (by omega), Nat.mod_eq_of_lt (by omega)]
        exact decide_eq_false (by omega)
  have hgroups := hcuts.cons hbounds length_take_of_drop_ne_nil
  rw [List.take_append_drop] at hgroups
  refine ⟨_, hgroups, ?_⟩
  conv_lhs => rw [← List.take_append_drop n cs, spaceBefore_append, hfirst, hspaces]
  rfl
termination_by cs.length
decreasing_by
  have hpos := List.length_pos_iff.mpr hcs
  rw [List.length_drop]
  omega

/-- Joining groups by spaces puts a space before each group but the first. -/
theorem intercalate_cons_eq_append_flatMap (g : List Char) (gs : List (List Char)) :
    List.intercalate [' '] (g :: gs) = g ++ gs.flatMap (' ' :: ·) := by
  induction gs generalizing g with
  | nil => simp
  | cons g' gs ih =>
    rw [List.intercalate_cons_cons, ih, List.flatMap_cons, List.append_assoc]
    rfl

/-- A first group with no mark in it, and groups of `n` characters after it, each from a mark on: one space stands
between each two. -/
theorem exists_groups_spaceBefore {n : Nat} (hn : 1 ≤ n) (p : Nat → Bool) (g cs : List Char)
    (hfirst : ∀ i < g.length, p i = false) (hp : ∀ i < cs.length, p (g.length + i) = decide (i % n = 0)) :
    ∃ gs, CutsLeft n cs gs ∧ spaceBefore p 0 (g ++ cs) = List.intercalate [' '] (g :: gs) := by
  obtain ⟨gs, hcuts, hspaces⟩ := exists_cutsLeft_spaceBefore hn p g.length cs hp
  refine ⟨gs, hcuts, ?_⟩
  rw [spaceBefore_append, Nat.zero_add, hspaces, intercalate_cons_eq_append_flatMap,
    spaceBefore_eq_self fun i hi => by rw [Nat.zero_add, hfirst i hi]]

/-- The fractional portion in its groups: the first is the first `n` characters (R133). -/
theorem exists_cutsLeft_groupLeft {n : Nat} (hn : 1 ≤ n) (cs : List Char) :
    ∃ gs, CutsLeft n cs gs ∧ groupLeft n cs = List.intercalate [' '] gs := by
  by_cases hcs : cs = []
  · subst hcs
    exact ⟨[], cutsLeft_nil, rfl⟩
  have hbounds := length_take_bounds hn hcs
  obtain ⟨gs, hcuts, hspaces⟩ := exists_groups_spaceBefore hn (fun k => decide (k ≠ 0) && decide (k % n = 0))
    (cs.take n) (cs.drop n)
    (fun i hi => by
      rw [Nat.mod_eq_of_lt (by omega)]
      simp)
    (fun i hi => by
      have hfull := length_take_of_drop_ne_nil (List.length_pos_iff.mp (Nat.zero_lt_of_lt hi))
      rw [hfull, Nat.add_mod_left, decide_eq_true (by omega : n + i ≠ 0), Bool.true_and])
  have hgroups := hcuts.cons hbounds length_take_of_drop_ne_nil
  rw [List.take_append_drop] at hgroups hspaces
  exact ⟨_, hgroups, hspaces⟩

/-- The first group of an integer portion of `l` characters is what groups of `n` leave, or `n` characters where they
leave none (R133). -/
theorem exists_first_length {n l : Nat} (hn : 1 ≤ n) (hl : 1 ≤ l) : ∃ r q, 1 ≤ r ∧ r ≤ n ∧ l = r + n * q := by
  have hlt := Nat.mod_lt (l - 1) hn
  have hdiv := Nat.mod_add_div (l - 1) n
  exact ⟨(l - 1) % n + 1, (l - 1) / n, by omega, by omega, by omega⟩

/-- Counted from the right end, no boundary lies inside the first group. -/
theorem mod_sub_ne_zero {n r q i : Nat} (hr : r ≤ n) (hpos : 0 < i) (hi : i < r) : (r + n * q - i) % n ≠ 0 := by
  rw [Nat.sub_add_comm hi.le, Nat.add_mul_mod_self_left, Nat.mod_eq_of_lt (by omega)]
  omega

/-- Counted from the right end, the boundaries past the first group are at every `n`th index. -/
theorem mod_sub_eq_zero_iff {n r q i : Nat} (hi : i < n * q) : (r + n * q - (r + i)) % n = 0 ↔ i % n = 0 := by
  rw [Nat.add_sub_add_left, ← Nat.dvd_iff_mod_eq_zero, ← Nat.dvd_iff_mod_eq_zero,
    Nat.dvd_sub_iff_right hi.le (Nat.dvd_mul_right n q)]

/-- The integer portion in its groups: the first is what full groups from the right end leave (R133). -/
theorem exists_cutsRight_groupRight {n : Nat} (hn : 1 ≤ n) (cs : List Char) :
    ∃ gs, CutsRight n cs gs ∧ groupRight n cs = List.intercalate [' '] gs := by
  by_cases hcs : cs = []
  · subst hcs
    exact ⟨[], ⟨rfl, by simp, by simp⟩, rfl⟩
  obtain ⟨r, q, hpos, hle, hq⟩ := exists_first_length hn (List.length_pos_iff.mpr hcs)
  have htake : (cs.take r).length = r := List.length_take_of_le (by omega)
  have hdrop : (cs.drop r).length = n * q := by
    rw [List.length_drop]
    omega
  obtain ⟨gs, hcuts, hspaces⟩ := exists_groups_spaceBefore hn
    (fun k => decide (k ≠ 0) && decide ((cs.length - k) % n = 0)) (cs.take r) (cs.drop r)
    (fun i hi => by
      rw [Bool.and_eq_false_imp, decide_eq_true_eq, decide_eq_false_iff_not, hq]
      exact fun hi0 => mod_sub_ne_zero hle (Nat.pos_of_ne_zero hi0) (hi.trans_eq htake))
    (fun i hi => by
      rw [htake, decide_eq_true (by omega : r + i ≠ 0), Bool.true_and, hq, decide_eq_decide]
      exact mod_sub_eq_zero_iff (hi.trans_eq hdrop))
  have hgroups := hcuts.cutsRight_cons (g := cs.take r) (by omega) ⟨q, hdrop⟩
  rw [List.take_append_drop] at hgroups hspaces
  exact ⟨_, hgroups, hspaces⟩

/-- Settles O51: the groups of each portion, and that spaces are all that is put between them. -/
theorem groupingIsIdempotent : Obligations.GroupingIsIdempotent := by
  refine ⟨fun text n hspace => ?inverse, fun ipart fpart n hdot hn => ?groups⟩
  case inverse =>
    have hdigits : digitsOnly (group text n) = text := (digitsOnly_group text n).trans (digitsOnly_of_not_mem hspace)
    exact ⟨hdigits, congrArg (group · n) hdigits⟩
  case groups =>
    obtain ⟨gs, hgs, hgroupRight⟩ := exists_cutsRight_groupRight hn ipart
    obtain ⟨hs, hhs, hgroupLeft⟩ := exists_cutsLeft_groupLeft hn fpart
    refine ⟨gs, hs, hgs.flatten, hhs.flatten, List.forall_mem_append.mpr ⟨hgs.length, hhs.length⟩,
      List.forall_mem_append.mpr ⟨hgs.length_tail, hhs.length_dropLast⟩, ?_, ?_⟩
    · rw [group_of_not_mem hdot, hgroupRight]
    · rw [group_append hdot, hgroupRight, hgroupLeft]

end Sys2Proof.Proofs
end

section
/-! BinaryStrings as text (spec/47_host_text_layer.md R131, R132): a pattern is written and read back bit by bit, and
the zeros a fraction may leave out are the ones the reader fills in. -/

namespace Sys2Proof.Proofs

open Sys2Proof Sys2Proof.Machine

/-! ## Patterns as characters -/

/-- A pattern has a character for each bit (R132). -/
@[simp] theorem length_textOfBits {w : Nat} (x : BitVec w) : (textOfBits x).length = w := by simp [textOfBits]

/-- Character `k` of a pattern is bit `w-1-k` (R132). -/
theorem getD_textOfBits {w : Nat} (x : BitVec w) {k : Nat} (hk : k < w) :
    (textOfBits x).getD k '0' = if x.getLsbD (w - 1 - k) then '1' else '0' := by
  simp [textOfBits, List.getD, hk]

/-- The characters of a pattern are binary (R132). -/
theorem isBinary_of_mem_textOfBits {w : Nat} {x : BitVec w} {c : Char} (hc : c ∈ textOfBits x) : isBinary c = true := by
  obtain ⟨k, -, rfl⟩ := List.mem_map.mp hc
  split <;> rfl

/-- The characters of a pattern hold no `.`. -/
theorem dot_not_mem_textOfBits {w : Nat} (x : BitVec w) : '.' ∉ textOfBits x := fun h =>
  absurd (isBinary_of_mem_textOfBits h) (by decide)

/-- Bit `i` of the pattern a text stands for is character `len-1-i` (R131). -/
theorem getLsbD_bitsOfText (cs : List Char) (i : Nat) :
    (bitsOfText cs).getLsbD i = (decide (i < cs.length) && cs.getD (cs.length - 1 - i) '0' == '1') := by
  induction cs with
  | nil => simp [bitsOfText]
  | cons c cs ih =>
    rw [bitsOfText, BitVec.getLsbD_cons, ih, List.length_cons, Nat.add_sub_cancel]
    rcases Nat.lt_trichotomy i cs.length with hlt | rfl | hgt
    · have hindex : cs.length - i = cs.length - 1 - i + 1 := by omega
      rw [if_neg hlt.ne, hindex, List.getD_cons_succ, decide_eq_true hlt, decide_eq_true (Nat.lt_succ_of_lt hlt)]
    · rw [if_pos rfl, Nat.sub_self, List.getD_cons_zero, decide_eq_true (Nat.lt_succ_self _), Bool.true_and]
    · rw [if_neg hgt.ne', decide_eq_false (by omega), decide_eq_false (by omega), Bool.false_and, Bool.false_and]

/-- A pattern written and read back is the same (R131, R132). -/
theorem toNat_bitsOfText_textOfBits {w : Nat} (x : BitVec w) : (bitsOfText (textOfBits x)).toNat = x.toNat := by
  refine Nat.eq_of_testBit_eq fun i => ?_
  rw [BitVec.testBit_toNat, BitVec.testBit_toNat, getLsbD_bitsOfText, length_textOfBits]
  by_cases hi : i < w
  · have hindex : w - 1 - (w - 1 - i) = i := by omega
    rw [decide_eq_true hi, Bool.true_and, getD_textOfBits x (by omega), hindex]
    cases x.getLsbD i <;> rfl
  · rw [decide_eq_false hi, Bool.false_and, BitVec.getLsbD_of_ge x i (Nat.le_of_not_lt hi)]

/-! ## Fractions -/

/-- Past the last `1` there are only zeros. -/
theorem getD_of_trimmed_le {cs : List Char} {k : Nat} (hk : (cs.rdropWhile (· == '0')).length ≤ k) :
    cs.getD k '0' = '0' := by
  rw [← List.rdropWhile_append_rtakeWhile (p := (· == '0')) (l := cs), List.getD_append_right _ _ _ _ hk]
  generalize k - (cs.rdropWhile (· == '0')).length = j
  by_cases hj : j < (cs.rtakeWhile (· == '0')).length
  · rw [List.getD_eq_getElem _ _ hj]
    exact beq_iff_eq.mp (List.mem_rtakeWhile_imp (p := (· == '0')) (List.getElem_mem hj))
  · exact List.getD_eq_default _ _ (Nat.le_of_not_lt hj)

/-- Leaving out zeros at the end changes no character, where a missing one is read as zero (R131, R132). -/
theorem getD_take_of_trimmed_le {cs : List Char} {m : Nat} (hm : (cs.rdropWhile (· == '0')).length ≤ m) (k : Nat) :
    (cs.take m).getD k '0' = cs.getD k '0' := by
  by_cases hk : k < m
  · rw [List.getD_eq_getElem?_getD, List.getD_eq_getElem?_getD, List.getElem?_take_of_lt hk]
  · have hmk : m ≤ k := Nat.le_of_not_lt hk
    rw [getD_of_trimmed_le (hm.trans hmk), List.getD_eq_default _ _ ((List.length_take_le m cs).trans hmk)]

/-- A fraction written without some of its trailing zeros and read back is the same (R131, R132). -/
theorem fracOfText_take {m : Nat} (x : BitVec 4) (hm : ((textOfBits x).rdropWhile (· == '0')).length ≤ m) :
    fracOfText ((textOfBits x).take m) = x := by
  refine BitVec.eq_of_getLsbD_eq fun i hi => ?_
  have hindex : 4 - 1 - (3 - i) = i := by omega
  rw [fracOfText, getLsbD_ofBits, decide_eq_true hi, Bool.true_and, getD_take_of_trimmed_le hm,
    getD_textOfBits x (by omega), hindex]
  cases x.getLsbD i <;> rfl

/-- How many fraction characters are written: at least `atLeast`, and all as far as the last `1` (R132). -/
def fractionLength (atLeast : Nat) (cs : List Char) : Nat := max atLeast (cs.rdropWhile (· == '0')).length

/-- The fractional portion of a text is a `.` and the fraction characters written, or nothing where none is (R132). -/
theorem textOfFraction_cases (atLeast : Nat) (cs : List Char) :
    textOfFraction atLeast cs = '.' :: cs.take (fractionLength atLeast cs) ∨
      textOfFraction atLeast cs = [] ∧ cs.take (fractionLength atLeast cs) = [] := by
  have hlength : max atLeast (cs.reverse.dropWhile (· == '0')).length = fractionLength atLeast cs := by
    rw [fractionLength, List.rdropWhile, List.length_reverse]
  rw [textOfFraction, hlength]
  split
  · exact .inr ⟨rfl, ‹_›⟩
  · exact .inl rfl

/-! ## Reading -/

/-- What a text of binary characters within the budgets stands for (R131). -/
theorem binStrOfText_eq_ok {text I F : List Char} (hI : (splitDot text).1 = I) (hF : (splitDot text).2.getD [] = F)
    (hbinary : ∀ c ∈ I ++ F, isBinary c = true) (hlen : I.length ≤ 32) (hfrac : F.length ≤ 4) :
    binStrOfText text = .ok ⟨I.length, bitsOfText I, fracOfText F⟩ := by
  subst hI hF
  rw [binStrOfText, List.all_eq_true.mpr hbinary, if_neg (by decide), if_neg (Nat.not_lt.mpr hlen),
    List.drop_eq_nil_of_le hfrac]
  rfl

/-- Settles O49: both portions are split off again, and each is read as it was written. -/
theorem binaryStringTextRoundTrip : Obligations.BinaryStringTextRoundTrip := by
  intro x atLeast hlen
  obtain ⟨hI, hF⟩ := splitDot_append_tail (dot_not_mem_textOfBits x.bits)
    (textOfFraction_cases atLeast (textOfBits x.frac))
  refine ⟨_, binStrOfText_eq_ok hI hF ?binary ?len ?frac, length_textOfBits x.bits,
    toNat_bitsOfText_textOfBits x.bits, fracOfText_take x.frac (le_max_right _ _)⟩
  case binary =>
    intro c hc
    rcases List.mem_append.mp hc with hc | hc
    · exact isBinary_of_mem_textOfBits hc
    · exact isBinary_of_mem_textOfBits (List.mem_of_mem_take hc)
  case len => rwa [length_textOfBits]
  case frac => exact (List.length_take_le' _ _).trans_eq (length_textOfBits x.frac)

end Sys2Proof.Proofs
end

section
/-! Failures (spec/60_exceptions.md): what an operation raises, said once, the priority of the arithmetic failures, and
the records of a failure and of an overflow. -/

namespace Sys2Proof.Proofs

open Sys2Proof Sys2Proof.Machine

/-! ## The failures of an operation -/

/-- A result that is a failure is delivered with no trace (R147). -/
theorem delivers_fail_of_resultOf {i : Instr} {s : State} {f : Failure} (h : resultOf i = .error f) :
    Delivers i s (.fail f) [] :=
  (delivers_iff _ _ _ _).mpr (congrArg outcomeOf h)

/-- A failure that is delivered is the operation's result. -/
theorem resultOf_of_delivers_fail {i : Instr} {s : State} {f : Failure} {t : Trace} (h : Delivers i s (.fail f) t) :
    resultOf i = .error f := by
  rw [delivers_iff] at h
  cases hres : resultOf i with
  | error g => rw [hres] at h; cases h; rfl
  | ok q => rw [hres] at h; cases h

section Operands

variable {w alen blen : BitVec 6} {a b : Word} (op : (n : Nat) → BitVec n → BitVec n → OpResult)

/-- The checks on the operands come first (R151). -/
theorem withOperands_of_not_wf (h : (wfWidth w && wfString alen a && wfString blen b) = false) :
    withOperands w alen blen a b op = .error .illegalCommand := by
  have hillegal : arithIllegal? w alen blen a b ≠ none :=
    fun hnone => Bool.noConfusion (h.symm.trans ((arithIllegal?_eq_none w alen blen a b).mp hnone))
  rw [withOperands, if_pos (Option.isSome_iff_ne_none.mpr hillegal)]

/-- The lengths come second, before the operation looks at the values (R144, R151). -/
theorem withOperands_of_mismatch (h : (wfWidth w && wfString alen a && wfString blen b) = true)
    (hlen : alen ≠ w ∨ blen ≠ w) : withOperands w alen blen a b op = .error .widthMismatch := by
  rw [withOperands, (arithIllegal?_eq_none w alen blen a b).mpr h, if_pos hlen]
  rfl

/-- Well-formed operands of the declared width fit (R48, R49, R100). -/
theorem operandsFit_of_wf (h : (wfWidth w && wfString w a && wfString w b) = true) : OperandsFit w a b := by
  simp only [wfWidth, wfString, wMax_eq, Bool.and_eq_true, decide_eq_true_eq] at h
  obtain ⟨⟨⟨hpos, hle⟩, -, ha⟩, -, hb⟩ := h
  exact ⟨hpos, hle, ha, hb⟩

/-- An arithmetic operation fails in its checks or by itself (R151). -/
theorem withOperands_eq_error {op} {f : Failure} (h : withOperands w alen blen a b op = .error f) :
    (f = .illegalCommand ∧ (wfWidth w && wfString alen a && wfString blen b) = false) ∨ f = .widthMismatch ∨
      op w.toNat (a.setWidth w.toNat) (b.setWidth w.toNat) = .error f := by
  cases hwf : wfWidth w && wfString alen a && wfString blen b with
  | false =>
    rw [withOperands_of_not_wf op hwf] at h
    cases h
    exact .inl ⟨rfl, rfl⟩
  | true =>
    rw [withOperands, (arithIllegal?_eq_none w alen blen a b).mpr hwf] at h
    split_ifs at h with hnone hlen
    · cases hnone
    · cases h
      exact .inr (.inl rfl)
    · exact .inr (.inr h)

end Operands

/-- DIV fails for a zero divisor (R119). -/
theorem divOp_eq_error {w : Nat} {x y : BitVec w} {f : Failure} (h : divOp w x y = .error f) : f = .divideByZero := by
  rw [divOp] at h
  split at h
  next => cases h; rfl
  next => cases h

/-- TOBIN fails for an integer part that does not fit (R74, R75). -/
theorem tobinOp_eq_error {w : Nat} {v : Numeral} {f : Failure} (h : tobinOp w v = .error f) : f = .rangeError := by
  rw [tobinOp_eq] at h
  split_ifs at h
  cases h
  rfl

/-- FROMBIN fails for a string with no integer portion (R78). -/
theorem frombinOp_eq_error {x : BinStr} {f : Failure} (h : frombinOp x = .error f) : f = .emptyInput := by
  by_cases hlen : x.len = 0
  · rw [frombinOp, if_pos hlen] at h
    cases h
    rfl
  · rw [frombinOp_eq hlen] at h
    cases h

/-- TOB32 fails for a negative Numeral (R94). -/
theorem tob32Op_eq_error {v : Numeral} {f : Failure} (h : tob32Op v = .error f) : f = .domainError := by
  rw [tob32Op] at h
  split_ifs at h
  cases h
  rfl

/-- F32X fails with the class of an operand that is neither zero nor normal (R89). -/
theorem f32xOp_eq_error {v : BitVec 64} {f : Failure} (h : f32xOp v = .error f) :
    ∃ c : Class754, c ≠ .zero ∧ c ≠ .normal ∧ f = .unsupportedSpecialValue c := by
  by_cases hzero : classify (exponent11 v) (fraction52 v) = .zero
  · rw [f32xOp_of_zero hzero] at h
    cases h
  by_cases hnormal : classify (exponent11 v) (fraction52 v) = .normal
  · rw [f32xOp_of_normal hnormal] at h
    cases h
  rw [f32xOp_of_special rfl hzero hnormal] at h
  cases h
  exact ⟨_, hzero, hnormal, rfl⟩

/-- The failures a well-formed operation can end in: its row of the failure matrix without `IllegalCommand` (R156). -/
def raises : Op → List Failure
  | .add | .sub | .mul => [.widthMismatch]
  | .div => [.widthMismatch, .divideByZero]
  | .tobin => [.rangeError]
  | .frombin => [.emptyInput]
  | .tob32 => [.domainError]
  | .f32x =>
    [.unsupportedSpecialValue .subnormal, .unsupportedSpecialValue .infinite, .unsupportedSpecialValue .nan]

/-- `IllegalCommand` is no failure of a well-formed operation (R149). -/
theorem illegalCommand_not_mem_raises (o : Op) : Failure.illegalCommand ∉ raises o := by
  cases o <;> decide

/-- Every failure of an operation: `IllegalCommand` for one that is not well formed, else one of its row (R156). -/
theorem raises_of_resultOf {i : Instr} {f : Failure} (h : resultOf i = .error f) :
    (f = .illegalCommand ∧ i.wellFormed = false) ∨ f ∈ raises i.op := by
  cases i with
  | add w alen blen a b | sub w alen blen a b | mul w alen blen a b =>
    obtain hillegal | rfl | hop := withOperands_eq_error h
    · exact .inl hillegal
    · exact .inr (List.mem_singleton_self _)
    · cases hop
  | div w alen blen a b =>
    obtain hillegal | rfl | hop := withOperands_eq_error h
    · exact .inl hillegal
    · exact .inr List.mem_cons_self
    · obtain rfl := divOp_eq_error hop
      exact .inr (List.mem_cons_of_mem _ List.mem_cons_self)
  | tobin w sgn fr a =>
    by_cases hw : w.toNat ≤ 32
    · rw [resultOf_tobin hw] at h
      exact .inr (List.mem_singleton.mpr (tobinOp_eq_error h))
    · rw [resultOf_tobin_of_lt (by omega)] at h
      cases h
      exact .inl ⟨rfl, decide_eq_false hw⟩
  | frombin alen frac a =>
    cases hwf : wfString alen a with
    | true =>
      rw [resultOf_frombin hwf] at h
      exact .inr (List.mem_singleton.mpr (frombinOp_eq_error h))
    | false =>
      rw [resultOf_frombin_of_not_wf hwf] at h
      cases h
      exact .inl ⟨rfl, hwf⟩
  | tob32 sgn fr a => exact .inr (List.mem_singleton.mpr (tob32Op_eq_error h))
  | f32x b a =>
    obtain ⟨c, hzero, hnormal, rfl⟩ := f32xOp_eq_error h
    cases c with
    | zero => exact absurd rfl hzero
    | normal => exact absurd rfl hnormal
    | subnormal | infinite | nan => exact .inr (by simp [Instr.op, raises])

/-- Settles O26: a failure is `IllegalCommand`, which TOB32 and F32X have no ill-formed fields to give, or one of the
operation's own. -/
theorem operationsFailOnlyAsTheMatrixSays : Obligations.OperationsFailOnlyAsTheMatrixSays := by
  intro i s f t hd
  refine ⟨trace_of_delivers_fail hd, ?_⟩
  obtain ⟨rfl, hwf⟩ | hmem := raises_of_resultOf (resultOf_of_delivers_fail hd)
  · cases i with
    | add | sub | mul | div | tobin | frombin => exact .inl rfl
    | tob32 | f32x => cases hwf
  · cases i with
    | add | sub | mul => exact .inr (List.mem_singleton.mp hmem)
    | div => exact .inr (by simpa [Instr.op, raises] using hmem)
    | tobin | frombin => exact .inr (List.mem_singleton.mp hmem)
    | tob32 => exact List.mem_singleton.mp hmem
    | f32x => simpa [Instr.op, raises] using hmem

/-! ## The priority of the arithmetic failures -/

/-- A failure of the checks on the operands is delivered by each of the four operations alike (R151). -/
theorem delivers_fail_of_withOperands {w alen blen : BitVec 6} {a b : Word} {f : Failure}
    (h : ∀ op : (n : Nat) → BitVec n → BitVec n → OpResult, withOperands w alen blen a b op = .error f) (s : State) :
    Delivers (.add w alen blen a b) s (.fail f) [] ∧ Delivers (.sub w alen blen a b) s (.fail f) [] ∧
      Delivers (.mul w alen blen a b) s (.fail f) [] ∧ Delivers (.div w alen blen a b) s (.fail f) [] :=
  ⟨delivers_fail_of_resultOf (h addOp), delivers_fail_of_resultOf (h subOp), delivers_fail_of_resultOf (h mulOp),
    delivers_fail_of_resultOf (h divOp)⟩

/-- What DIV delivers for a zero divisor (R119, R151). -/
theorem delivers_div_of_zero {w : BitVec 6} {a : Word} (h : OperandsFit w a 0) (s : State) :
    Delivers (.div w w w a 0) s (.fail .divideByZero) [] := by
  apply delivers_fail_of_resultOf
  rw [resultOf, withOperands_of_fit _ _ _ _ h, divOp, if_pos (by simp)]

/-- Settles O25: the checks of `withOperands` come in the order of R151, and past them only DIV has a failure left. -/
theorem arithmeticFailsInPriorityOrder : Obligations.ArithmeticFailsInPriorityOrder := by
  intro w alen blen a b s
  split
  next hillegal => exact delivers_fail_of_withOperands (fun op => withOperands_of_not_wf op hillegal) s
  next hlegal =>
    have hwf := Bool.of_not_eq_false hlegal
    split
    next hlen => exact delivers_fail_of_withOperands (fun op => withOperands_of_mismatch op hwf hlen) s
    next hlen =>
      obtain ⟨rfl, rfl⟩ : alen = w ∧ blen = w := by simpa only [not_or, not_not] using hlen
      have hfit := operandsFit_of_wf hwf
      refine ⟨⟨_, _, _, delivers_add hfit s⟩, ⟨_, _, _, delivers_sub hfit s⟩, ⟨_, _, _, delivers_mul hfit s⟩, ?_⟩
      split
      next hzero =>
        subst hzero
        exact delivers_div_of_zero hfit s
      next hzero => exact ⟨_, _, _, delivers_div hfit hzero s⟩

/-! ## Records -/

/-- Settles O44: the record of a failure is its code and its class. -/
theorem failureCodesAreTheTables : Obligations.FailureCodesAreTheTables := fun h =>
  ⟨record_fail h _, record_fail h _, record_fail h _, record_fail h _, record_fail h _, record_fail h _,
    record_fail h _, record_fail h _, record_fail h _, record_fail h _, record_fail h _⟩

/-- `OVF` is set in the arithmetic successes that overflowed, and in nothing else (R19, R62, R63). -/
theorem ovf_fields_eq_true_iff (n : Nat) (r : Response) :
    (r.fields n).ovf = true ↔ ∃ (w : Nat) (x : BitVec w), r = .ok (.arith w x true) := by
  constructor
  · intro h
    cases r with
    | fail f => cases h
    | ok p =>
      cases p with
      | arith w x ovf =>
        obtain rfl : ovf = true := h
        exact ⟨w, x, rfl⟩
      | binStr | numeral | b32 | f754 => cases h
  · rintro ⟨w, x, rfl⟩
    rfl

/-- Settles O46: such a response is an arithmetic success, whose trace has the length of its result. -/
theorem overflowIsNotAFailure : Obligations.OverflowIsNotAFailure := by
  intro i s r t h hd hovf
  have hfields := fields_record h r t
  have hovf' : (r.fields t.length).ovf = true := (congrArg RspFields.ovf hfields).symm.trans hovf
  obtain ⟨w, x, rfl⟩ := (ovf_fields_eq_true_iff _ _).mp hovf'
  have hs := success_of_delivers hd
  have hle : w ≤ 32 := hs.recordCount_le
  refine ⟨congrArg RspFields.status hfields, w, x, rfl, hs.length_trace, ?_⟩
  have hr0 : (Answer.record ⟨h, .ok (.arith w x true), t⟩).r0 = x.setWidth 32 := congrArg RspFields.r0 hfields
  rw [hr0, BitVec.toNat_setWidth_of_le hle]

end Sys2Proof.Proofs
end

section
/-! The requests that are legal (spec/30_encoding.md R56), on the numbers their bits stand for, and `IllegalCommand`,
the answer to all others (spec/60_exceptions.md R149). -/

namespace Sys2Proof.Proofs

open Sys2Proof Sys2Proof.Machine

/-! ## Fields as numbers -/

/-- A field of a word as a number. -/
theorem toNat_extractLsb'_eq_div_mod (x : Word) (lo n : Nat) :
    (x.extractLsb' lo n).toNat = x.toNat / 2 ^ lo % 2 ^ n := by
  rw [BitVec.extractLsb'_toNat, Nat.shiftRight_eq_div_pow]

/-- `W` as a number (R46). -/
theorem toNat_w (r : Request) : r.w.toNat = r.ctl.toNat / 2 ^ 4 % 64 := toNat_extractLsb'_eq_div_mod _ _ _

/-- `ALEN` as a number (R46). -/
theorem toNat_alen (r : Request) : r.alen.toNat = r.ctl.toNat / 2 ^ 10 % 64 := toNat_extractLsb'_eq_div_mod _ _ _

/-- `BLEN` as a number (R46). -/
theorem toNat_blen (r : Request) : r.blen.toNat = r.ctl.toNat / 2 ^ 16 % 64 := toNat_extractLsb'_eq_div_mod _ _ _

/-- A word has no bit in common with the mask of a field exactly when the field is the number 0. -/
theorem and_place_allOnes_eq_zero_iff (x : Word) {lo n : Nat} (h : lo + n ≤ 32) :
    x &&& place (BitVec.allOnes n) lo = 0 ↔ x.toNat / 2 ^ lo % 2 ^ n = 0 := by
  have hfield : x.extractLsb' lo n = 0 ↔ x.toNat / 2 ^ lo % 2 ^ n = 0 := by
    rw [← BitVec.toNat_inj, toNat_extractLsb'_eq_div_mod]
    rfl
  rw [← hfield]
  constructor
  · intro hzero
    apply BitVec.eq_of_getLsbD_eq
    intro i hi
    have hbit := congrArg (·.getLsbD (lo + i)) hzero
    simpa [getLsbD_place _ _ _ (show lo + i < 32 by omega), hi] using hbit
  · intro hzero
    apply BitVec.eq_of_getLsbD_eq
    intro i hi
    have hbit := congrArg (·.getLsbD (i - lo)) hzero
    rw [BitVec.getLsbD_and, getLsbD_place _ _ _ hi, BitVec.getLsbD_allOnes, ← Bool.decide_and]
    by_cases hin : lo ≤ i ∧ i - lo < n
    · simpa [hin] using hbit
    · rw [decide_eq_false hin, Bool.and_false]
      exact BitVec.getLsbD_zero.symm

/-- Two masks together. -/
theorem and_or_eq_zero_iff (x m m' : Word) : x &&& (m ||| m') = 0 ↔ x &&& m = 0 ∧ x &&& m' = 0 := by
  rw [BitVec.and_or_distrib_left]
  exact BitVec.or_eq_zero_iff

/-- The unused bits of ADD, SUB, MUL and DIV, bits 31 to 22, as a number (R50, R51). -/
theorem and_mbzMask_arith_iff {o : Op} (ho : o = .add ∨ o = .sub ∨ o = .mul ∨ o = .div) (x : Word) :
    x &&& o.mbzMask = 0 ↔ x.toNat < 2 ^ 22 := by
  have hmask : o.mbzMask = place (BitVec.allOnes 10) 22 := by obtain rfl | rfl | rfl | rfl := ho <;> decide
  have hlt := x.isLt
  rw [hmask, and_place_allOnes_eq_zero_iff x (by decide)]
  omega

/-- The unused bits of TOBIN: bit 31 and bits 21 to 10 (R50, R51). -/
theorem and_mbzMask_tobin_iff (x : Word) :
    x &&& Op.tobin.mbzMask = 0 ↔ x.toNat < 2 ^ 31 ∧ x.toNat / 2 ^ 10 % 2 ^ 12 = 0 := by
  have hmask : Op.tobin.mbzMask = place (BitVec.allOnes 1) 31 ||| place (BitVec.allOnes 12) 10 := by decide
  have hlt := x.isLt
  rw [hmask, and_or_eq_zero_iff, and_place_allOnes_eq_zero_iff x (by decide),
    and_place_allOnes_eq_zero_iff x (by decide)]
  omega

/-- The unused bits of FROMBIN: bit 31, bits 26 to 16 and bits 9 to 4 (R50, R51). -/
theorem and_mbzMask_frombin_iff (x : Word) :
    x &&& Op.frombin.mbzMask = 0 ↔
      x.toNat < 2 ^ 31 ∧ x.toNat / 2 ^ 16 % 2 ^ 11 = 0 ∧ x.toNat / 2 ^ 4 % 64 = 0 := by
  have hmask : Op.frombin.mbzMask =
      place (BitVec.allOnes 1) 31 ||| (place (BitVec.allOnes 11) 16 ||| place (BitVec.allOnes 6) 4) := by decide
  have hlt := x.isLt
  rw [hmask, and_or_eq_zero_iff, and_or_eq_zero_iff, and_place_allOnes_eq_zero_iff x (by decide),
    and_place_allOnes_eq_zero_iff x (by decide), and_place_allOnes_eq_zero_iff x (by decide)]
  omega

/-- The unused bits of TOB32: bit 31 and bits 21 to 4 (R50, R51). -/
theorem and_mbzMask_tob32_iff (x : Word) :
    x &&& Op.tob32.mbzMask = 0 ↔ x.toNat < 2 ^ 31 ∧ x.toNat / 2 ^ 4 % 2 ^ 18 = 0 := by
  have hmask : Op.tob32.mbzMask = place (BitVec.allOnes 1) 31 ||| place (BitVec.allOnes 18) 4 := by decide
  have hlt := x.isLt
  rw [hmask, and_or_eq_zero_iff, and_place_allOnes_eq_zero_iff x (by decide),
    and_place_allOnes_eq_zero_iff x (by decide)]
  omega

/-- The unused bits of F32X: every bit above `OP` (R50, R51). -/
theorem and_mbzMask_f32x_iff (x : Word) : x &&& Op.f32x.mbzMask = 0 ↔ x.toNat < 16 := by
  have hmask : Op.f32x.mbzMask = place (BitVec.allOnes 28) 4 := by decide
  have hlt := x.isLt
  rw [hmask, and_place_allOnes_eq_zero_iff x (by decide)]
  omega

/-! ## Legal requests -/

/-- A request that decodes to a well-formed instruction of the operation `o`: the unused bits and the unused word are
zero, and the fields hold legal values (R56). -/
def LegalAt (o : Op) (r : Request) : Prop :=
  r.ctl &&& o.mbzMask = 0 ∧ (o.usesB = false → r.b = 0) ∧ (o.read r).wellFormed = true

/-- The rows of R56 for ADD, SUB, MUL and DIV, which make the same checks (R48, R49). -/
theorem legalRequest_iff_of_arith {r : Request} {o : Op} (ho : o = .add ∨ o = .sub ∨ o = .mul ∨ o = .div)
    (hop : r.ctl.toNat % 16 = o.code.toNat) : LegalRequest r ↔ LegalAt o r := by
  have huses : o.usesB = true := by obtain rfl | rfl | rfl | rfl := ho <;> rfl
  have hwf : (o.read r).wellFormed = (wfWidth r.w && wfString r.alen r.a && wfString r.blen r.b) := by
    obtain rfl | rfl | rfl | rfl := ho <;> rfl
  have hcode : o.code.toNat < 4 := by obtain rfl | rfl | rfl | rfl := ho <;> decide
  rw [LegalAt, and_mbzMask_arith_iff ho, huses, hwf, LegalRequest, hop]
  simp only [wfWidth, wfString, wMax_eq, Bool.and_eq_true, decide_eq_true_eq, toNat_w, toNat_alen, toNat_blen, hcode]
  constructor
  · rintro ⟨-, -, harith, -⟩
    obtain ⟨hunused, hpos, hle, halen, hblen, ha, hb⟩ := harith trivial
    exact ⟨hunused, fun h => Bool.noConfusion h, ⟨⟨hpos, hle⟩, halen, ha⟩, hblen, hb⟩
  · rintro ⟨hunused, -, ⟨⟨hpos, hle⟩, halen, ha⟩, hblen, hb⟩
    refine ⟨by omega, by omega, fun _ => ⟨hunused, hpos, hle, halen, hblen, ha, hb⟩, ?_, ?_, ?_, ?_⟩ <;>
      (intro h; omega)

/-- The rows of R56 for the operation that `OP` selects. -/
theorem legalRequest_iff_legalAt {r : Request} {o : Op} (hop : r.op = o.code) : LegalRequest r ↔ LegalAt o r := by
  have hcode : r.ctl.toNat % 16 = o.code.toNat := by rw [← toNat_op, hop]
  cases o with
  | add => exact legalRequest_iff_of_arith (.inl rfl) hcode
  | sub => exact legalRequest_iff_of_arith (.inr (.inl rfl)) hcode
  | mul => exact legalRequest_iff_of_arith (.inr (.inr (.inl rfl))) hcode
  | div => exact legalRequest_iff_of_arith (.inr (.inr (.inr rfl))) hcode
  | tobin =>
    have hcode : r.ctl.toNat % 16 = 4 := hcode
    have hwf : (Op.tobin.read r).wellFormed = true ↔ r.ctl.toNat / 2 ^ 4 % 64 ≤ 32 := by
      rw [← toNat_w]
      exact decide_eq_true_iff
    rw [LegalAt, and_mbzMask_tobin_iff, hwf, LegalRequest]
    constructor
    · rintro ⟨-, hlt, -, htobin, -⟩
      obtain ⟨hunused, hw, hb⟩ := htobin hcode
      exact ⟨⟨hlt, hunused⟩, fun _ => hb, hw⟩
    · rintro ⟨⟨hlt, hunused⟩, hb, hw⟩
      refine ⟨by omega, hlt, ?_, fun _ => ⟨hunused, hw, hb rfl⟩, ?_, ?_, ?_⟩ <;> (intro h; omega)
  | frombin =>
    have hcode : r.ctl.toNat % 16 = 5 := hcode
    have hwf : (Op.frombin.read r).wellFormed = true ↔
        r.ctl.toNat / 2 ^ 10 % 64 ≤ 32 ∧ r.a.toNat < 2 ^ (r.ctl.toNat / 2 ^ 10 % 64) := by
      rw [← toNat_alen]
      simp [Op.read, Instr.wellFormed, wfString]
    rw [LegalAt, and_mbzMask_frombin_iff, hwf, LegalRequest]
    constructor
    · rintro ⟨-, hlt, -, -, hfrombin, -⟩
      obtain ⟨hhigh, hlow, halen, ha, hb⟩ := hfrombin hcode
      exact ⟨⟨hlt, hhigh, hlow⟩, fun _ => hb, halen, ha⟩
    · rintro ⟨⟨hlt, hhigh, hlow⟩, hb, halen, ha⟩
      refine ⟨by omega, hlt, ?_, ?_, fun _ => ⟨hhigh, hlow, halen, ha, hb rfl⟩, ?_, ?_⟩ <;> (intro h; omega)
  | tob32 =>
    have hcode : r.ctl.toNat % 16 = 6 := hcode
    rw [LegalAt, and_mbzMask_tob32_iff, LegalRequest]
    constructor
    · rintro ⟨-, hlt, -, -, -, htob32, -⟩
      obtain ⟨hunused, hb⟩ := htob32 hcode
      exact ⟨⟨hlt, hunused⟩, fun _ => hb, rfl⟩
    · rintro ⟨⟨hlt, hunused⟩, hb, -⟩
      refine ⟨by omega, hlt, ?_, ?_, ?_, fun _ => ⟨hunused, hb rfl⟩, ?_⟩ <;> (intro h; omega)
  | f32x =>
    have hcode : r.ctl.toNat % 16 = 7 := hcode
    rw [LegalAt, and_mbzMask_f32x_iff, LegalRequest]
    constructor
    · rintro ⟨-, -, -, -, -, -, hf32x⟩
      have hctl := hf32x hcode
      exact ⟨by omega, fun h => Bool.noConfusion h, rfl⟩
    · rintro ⟨hlt, -, -⟩
      refine ⟨by omega, by omega, ?_, ?_, ?_, ?_, fun _ => by omega⟩ <;> (intro h; omega)

/-- A code below 8 selects an operation (R47). -/
theorem exists_code_eq_of_lt {c : BitVec 4} (h : c.toNat < 8) : ∃ o : Op, c = o.code := by
  have hsome : ∀ c : BitVec 4, c.toNat < 8 → (Op.ofCode? c).isSome := by decide
  obtain ⟨o, ho⟩ := Option.isSome_iff_exists.mp (hsome c h)
  exact ⟨o, (ofCode?_eq_some_iff c o).mp ho⟩

/-- A request is legal exactly when it is legal at the operation `OP` selects (R47, R56, R57). -/
theorem legalRequest_iff (r : Request) : LegalRequest r ↔ ∃ o : Op, r.op = o.code ∧ LegalAt o r := by
  constructor
  · intro h
    obtain ⟨o, hop⟩ := exists_code_eq_of_lt ((toNat_op r).trans_lt h.left)
    exact ⟨o, hop, (legalRequest_iff_legalAt hop).mp h⟩
  · rintro ⟨o, hop, h⟩
    exact (legalRequest_iff_legalAt hop).mpr h

/-- A request holds the fixed bits of a row exactly when `OP` is the row's code and the unused bits are zero (R50,
R56). -/
theorem row_iff (r : Request) (o : Op) :
    r.ctl &&& o.mask = o.matchWord ↔ r.op = o.code ∧ r.ctl &&& o.mbzMask = 0 := by
  constructor
  · exact fun h => ⟨op_of_row h, mbz_of_row h⟩
  · rintro ⟨hop, hmbz⟩
    rw [and_mask, hmbz, and_opField, hop]
    exact BitVec.zero_or

/-- The legal requests are the ones that decode to a well-formed instruction (R56). -/
theorem legalRequest_iff_decodes (r : Request) :
    LegalRequest r ↔ ∃ i : Instr, decode r = .ok i ∧ i.wellFormed = true := by
  rw [legalRequest_iff]
  constructor
  · rintro ⟨o, hop, hmbz, hb, hwf⟩
    exact ⟨o.read r, (decode_eq_read_iff o r).mpr ⟨(row_iff r o).mpr ⟨hop, hmbz⟩, hb⟩, hwf⟩
  · rintro ⟨i, hd, hwf⟩
    obtain ⟨hread, hrow, hb⟩ := (decode_eq_ok_iff r i).mp hd
    obtain ⟨hop, hmbz⟩ := (row_iff r i.op).mp hrow
    exact ⟨i.op, hop, hmbz, hb, hread ▸ hwf⟩

/-! ## The answer `IllegalCommand` -/

/-- An instruction that is not well formed is answered as R56 answers its request. -/
theorem resultOf_of_not_wellFormed {i : Instr} (h : i.wellFormed = false) : resultOf i = .error .illegalCommand := by
  cases i with
  | add w alen blen a b | sub w alen blen a b | mul w alen blen a b | div w alen blen a b =>
    exact withOperands_of_not_wf _ h
  | tobin w sgn fr a => exact resultOf_tobin_of_lt (Nat.lt_of_not_le (of_decide_eq_false h)) sgn fr a
  | frombin alen frac a => exact resultOf_frombin_of_not_wf h frac
  | tob32 | f32x => cases h

/-- A well-formed instruction is not answered `IllegalCommand` (R149). -/
theorem resultOf_ne_of_wellFormed {i : Instr} (h : i.wellFormed = true) : resultOf i ≠ .error .illegalCommand := by
  intro hresult
  obtain ⟨-, hwf⟩ | hmem := raises_of_resultOf hresult
  · exact Bool.noConfusion (h.symm.trans hwf)
  · exact illegalCommand_not_mem_raises i.op hmem

/-- The answer `IllegalCommand` is the result `IllegalCommand`. -/
theorem outcomeOf_eq_illegalCommand {x : OpResult} (h : (outcomeOf x).1 = .fail .illegalCommand) :
    x = .error .illegalCommand := by
  cases x with
  | error f => cases h; rfl
  | ok q => cases h

/-- A request that is not legal has the result `IllegalCommand`, whichever stage finds it so (R56, R149). -/
theorem resultOfRequest_of_not_legal {r : Request} (h : ¬ LegalRequest r) :
    resultOfRequest r = .error .illegalCommand := by
  cases hd : decode r with
  | error e => exact resultOfRequest_of_error hd
  | ok i =>
    have hwf : i.wellFormed = false :=
      Bool.eq_false_iff.mpr fun hwf => h ((legalRequest_iff_decodes r).mpr ⟨i, hd, hwf⟩)
    rw [resultOfRequest, hd]
    exact resultOf_of_not_wellFormed hwf

/-- Settles O9: the legal requests are those that decode to a well-formed instruction, and a well-formed instruction
has only failures of its own. -/
theorem illegalCommandExactlyForIllegalRequests : Obligations.IllegalCommandExactlyForIllegalRequests := by
  intro s p ps hpending
  refine ⟨fun hillegal => ?illegal, fun hlegal => ?legal⟩
  case illegal =>
    rw [step_of_pending_cons hpending, resultOfRequest_of_not_legal hillegal]
    rfl
  case legal =>
    obtain ⟨i, hd, hwf⟩ := (legalRequest_iff_decodes p.req).mp hlegal
    have hresult : resultOfRequest p.req = resultOf i := by rw [resultOfRequest, hd]
    refine ⟨i, _, _, decodeLegal_of_wellFormed hd hwf, fun hanswer => ?_, step_of_pending_cons hpending⟩
    rw [hresult] at hanswer
    exact resultOf_ne_of_wellFormed hwf (outcomeOf_eq_illegalCommand hanswer)

end Sys2Proof.Proofs
end

section
/-! Reset (spec/70_reset_and_hazards.md R161) and the widening of a pattern by its host (R168). -/

namespace Sys2Proof.Proofs

open Sys2Proof Sys2Proof.Machine

/-! ## Reset -/

/-- A request presented to an idle block is the one answered, whatever was delivered before. -/
theorem step_present_of_idle {s : State} (hidle : s.pending = []) (h : HostId) (r : Request) :
    step (s.present h r) = .next ⟨[], s.answers ++ [answerOf ⟨h, r⟩]⟩ := by
  have hpending : (s.present h r).pending = [⟨h, r⟩] := by rw [present_pending, hidle, List.nil_append]
  rw [step_of_pending_cons hpending, present_answers, answerOf]

/-- Settles O17: `applyReset` leaves the block idle, as `State.reset` is, and the answer of an idle block to a request
is the same in both. -/
theorem resetAbandonsPendingRequests : Obligations.ResetAbandonsPendingRequests := fun s h r =>
  ⟨applyReset_pending s, applyReset_answers s, step_nil s.answers, answerOf ⟨h, r⟩,
    step_present_of_idle (applyReset_pending s) h r, step_present_of_idle reset_pending h r⟩

/-! ## Widening -/

section Widening

variable {w n : Nat} (x : BitVec w)

/-- Copies of the sign bit keep the signed value. -/
theorem toInt_signPad (h : w ≤ n) : (signPad n x).toInt = x.toInt := BitVec.toInt_signExtend_of_le h

/-- Zeros keep the unsigned value. -/
theorem toNat_zeroPad (h : w ≤ n) : (zeroPad n x).toNat = x.toNat := BitVec.toNat_setWidth_of_le h

/-- With at least one zero in front, the signed value is the unsigned one. -/
theorem toInt_zeroPad (h : w < n) : (zeroPad n x).toInt = (x.toNat : Int) := by
  have hroom : 2 * x.toNat < 2 ^ n :=
    calc 2 * x.toNat < 2 * 2 ^ w := by have := x.isLt; omega
      _ = 2 ^ (w + 1) := (Nat.pow_succ').symm
      _ ≤ 2 ^ n := Nat.pow_le_pow_right (by decide) h
  rw [← toNat_zeroPad x h.le] at hroom ⊢
  exact BitVec.toInt_eq_toNat_of_lt hroom

/-- The unsigned value is the signed one exactly where the sign bit is 0: elsewhere they are `2 ^ w` apart. -/
theorem toNat_eq_toInt_iff_msb : (x.toNat : Int) = x.toInt ↔ x.msb = false := by
  have hpow : 0 < 2 ^ w := Nat.two_pow_pos w
  rw [BitVec.toInt_eq_msb_cond]
  cases x.msb with
  | false => simp
  | true => simp only [if_true, Bool.true_eq_false, iff_false]; omega

end Widening

/-- Settles O52. -/
theorem zeroPaddingChangesNegativePatterns : Obligations.ZeroPaddingChangesNegativePatterns := by
  intro w n x _ hn
  refine ⟨toInt_signPad x hn.le, toInt_zeroPad x hn, ?_⟩
  rw [toInt_zeroPad x hn]
  exact toNat_eq_toInt_iff_msb x

end Sys2Proof.Proofs
end

section
/-! Commutativity of ADD and MUL (spec/44_addsub.md R105, spec/45_muldiv.md R115): the sum, the product and the two
flags are the library's, which do not tell their operands apart. -/

namespace Sys2Proof.Proofs

open Sys2Proof Sys2Proof.Machine

/-- Operands that fit still fit when they are exchanged (R100). -/
theorem operandsFit_swap {w : BitVec 6} {a b : Word} (h : OperandsFit w a b) : OperandsFit w b a := by
  obtain ⟨hpos, hle, ha, hb⟩ := h
  exact ⟨hpos, hle, hb, ha⟩

/-- Signed overflow of a sum does not depend on the order of the addends. -/
theorem saddOverflow_comm {w : Nat} (x y : BitVec w) : BitVec.saddOverflow x y = BitVec.saddOverflow y x := by
  rw [BitVec.saddOverflow, BitVec.saddOverflow, Int.add_comm]

/-- Signed overflow of a product does not depend on the order of the factors. -/
theorem smulOverflow_comm {w : Nat} (x y : BitVec w) : BitVec.smulOverflow x y = BitVec.smulOverflow y x := by
  rw [BitVec.smulOverflow, BitVec.smulOverflow, Int.mul_comm]

/-- The response of an addition does not depend on the order of the addends (R105). -/
theorem sumResponse_comm {w : Nat} (x y : BitVec w) : sumResponse x y = sumResponse y x := by
  rw [sumResponse, sumResponse, addOverflow_eq_saddOverflow, addOverflow_eq_saddOverflow, rippleSum_eq_add,
    rippleSum_eq_add, BitVec.add_comm, saddOverflow_comm]

/-- Settles O32. -/
theorem addAndMulCommute : Obligations.AddAndMulCommute := by
  intro w a b s h
  have hadd := delivers_add (operandsFit_swap h) s
  have hmul := delivers_mul (operandsFit_swap h) s
  rw [sumResponse_comm] at hadd
  rw [BitVec.mul_comm, smulOverflow_comm] at hmul
  exact ⟨⟨_, _, _, delivers_add h s, hadd⟩, _, _, _, delivers_mul h s, hmul⟩

end Sys2Proof.Proofs
end

section
/-! Well-formed answers (spec/30_encoding.md R62 to R66, spec/60_exceptions.md R140 to R154): the trace of an arithmetic
success is linked from record to record, the payload of every success and the name of every failure is one the block can
produce, and so every step keeps the delivered answers well formed. -/

namespace Sys2Proof.Proofs

open Sys2Proof Sys2Proof.Machine

/-! ## Linked traces -/

/-- Consecutive records of an addition are linked by the carry between them (R101, R103). -/
theorem addLinked_map_range' {w : Nat} (x y : BitVec w) (k n : Nat) :
    addLinked k (carry x y k) ((List.range' k n).map (addRec x y)) = true := by
  induction n generalizing k with
  | zero => rfl
  | succ n ih =>
    rw [List.range'_succ, List.map_cons, addRec, addLinked, ih (k + 1)]
    simp [sumBit, carry]

/-- An accumulator is the one before plus the partial product, as a number: the sum does not wrap (R112). -/
theorem toNat_accumulator_succ {w : Nat} (ma mb : BitVec w) {i : Nat} (hi : i < w) :
    (accumulator ma mb (i + 1)).toNat = (accumulator ma mb i).toNat + (partialProduct ma mb i).toNat := by
  rw [toNat_accumulator ma mb (i + 1) hi, toNat_accumulator ma mb i hi.le, toNat_partialProduct ma mb i hi.le,
    BitVec.getLsbD, Nat.testBit_eq_decide_div_mod_eq, Nat.mod_pow_succ, Nat.mul_add]
  obtain hbit | hbit := Nat.mod_two_eq_zero_or_one (mb.toNat / 2 ^ i)
  · simp [hbit]
  · simp [hbit]

/-- The accumulators on the port are those of the block, zero-extended, and add up in the same way (R68, R112). -/
theorem accumulator_succ_setWidth {w : Nat} (ma mb : BitVec w) {i : Nat} (hi : i < w) :
    (accumulator ma mb (i + 1)).setWidth 64 =
      (accumulator ma mb i).setWidth 64 + (partialProduct ma mb i).setWidth 64 := by
  rw [← BitVec.ofNat_toNat, ← BitVec.ofNat_toNat, ← BitVec.ofNat_toNat, toNat_accumulator_succ ma mb hi,
    BitVec.ofNat_add]

/-- A zero multiplier bit has a zero partial product (R112). -/
theorem partialProduct_of_not_getLsbD {w : Nat} {mb : BitVec w} {i : Nat} (h : mb.getLsbD i = false) (ma : BitVec w) :
    partialProduct ma mb i = 0#(2 * w) := by
  rw [partialProduct, h]
  rfl

/-- Consecutive records of a multiplication are linked by the accumulator (R112, R114). -/
theorem mulLinked_map_range' {w : Nat} (ma mb : BitVec w) (k n : Nat) (hle : k + n ≤ w) :
    mulLinked k ((accumulator ma mb k).setWidth 64) ((List.range' k n).map (mulRec ma mb)) = true := by
  induction n generalizing k with
  | zero => rfl
  | succ n ih =>
    have hbit : (mb.getLsbD k || (partialProduct ma mb k).setWidth 64 == 0) = true := by
      cases h : mb.getLsbD k with
      | true => rfl
      | false => rw [partialProduct_of_not_getLsbD h, BitVec.setWidth_zero]; rfl
    rw [List.range'_succ, List.map_cons, mulRec, mulLinked, ih (k + 1) (by omega), hbit,
      accumulator_succ_setWidth ma mb (by omega)]
    simp

/-- The positions of the last `n` records of a division descend to 0 (R120). -/
theorem divLinked_map_range' {w : Nat} (ma mb : BitVec w) (k n : Nat) (hw : k + n = w) :
    divLinked ((List.range' k n).map (divRec ma mb)) = true := by
  induction n generalizing k with
  | zero => rfl
  | succ n ih =>
    rw [List.range'_succ, List.map_cons, divRec, divLinked, ih (k + 1) (by omega), List.length_map,
      List.length_range', Bool.and_true, beq_iff_eq]
    omega

/-- The trace of an addition is linked from position 0 and carry 0 on (R101, R103). -/
theorem addLinked_addTrace {w : Nat} (x y : BitVec w) : addLinked 0 false (addTrace x y) = true := by
  rw [addTrace, List.range_eq_range']
  exact addLinked_map_range' x y 0 w

/-- The trace of a multiplication is linked from position 0 and accumulator 0 on (R112, R114). -/
theorem mulLinked_mulTrace {w : Nat} (ma mb : BitVec w) : mulLinked 0 0 (mulTrace ma mb) = true := by
  have hlinked := mulLinked_map_range' ma mb 0 w (Nat.zero_add w).le
  rw [accumulator, BitVec.setWidth_zero, ← List.range_eq_range'] at hlinked
  exact hlinked

/-- The positions of the trace of a division descend from `w-1` to 0 (R120). -/
theorem divLinked_divTrace {w : Nat} (ma mb : BitVec w) : divLinked (divTrace ma mb) = true := by
  rw [divTrace, List.range_eq_range']
  exact divLinked_map_range' ma mb 0 w (Nat.zero_add w)

/-- A trace of as many records as the pattern has bits, linked in one of the three ways, belongs to it (R66). -/
theorem traceWf_arith {w : Nat} (z : BitVec w) (ovf : Bool) {t : Trace} (hlen : t.length = w)
    (hlinked : addLinked 0 false t = true ∨ mulLinked 0 0 t = true ∨ divLinked t = true) :
    traceWf (.ok (.arith w z ovf)) t = true := by
  rw [traceWf, hlen, beq_self_eq_true, Bool.true_and, Bool.or_eq_true, Bool.or_eq_true, or_assoc]
  exact hlinked

/-- The trace of a success belongs to its payload (R66). -/
theorem Success.wf_trace {o : Op} {p : Payload} {t : Trace} (h : Success o p t) : traceWf (.ok p) t = true := by
  cases h with
  | add x y | sub x y => exact traceWf_arith _ _ (length_addTrace x y) (.inl (addLinked_addTrace x y))
  | mul x y => exact traceWf_arith _ _ (length_mulTrace x y) (.inr (.inl (mulLinked_mulTrace x y)))
  | div x y => exact traceWf_arith _ _ (length_divTrace x y) (.inr (.inr (divLinked_divTrace x y)))
  | tobin | frombin | tob32 | f32x => rfl

/-! ## Payloads -/

/-- A pattern of a legal width is a payload the block can produce (R48). -/
theorem wf_arith {w : Nat} (hpos : 1 ≤ w) (hle : w ≤ 32) (z : BitVec w) (ovf : Bool) :
    (Payload.arith w z ovf).wf = true := by
  rw [Payload.wf, decide_eq_true hpos, decide_eq_true hle, Bool.and_self]

/-- The width TOBIN selects is at least 1 (R77). -/
theorem one_le_tobinWidth (w : BitVec 6) : 1 ≤ tobinWidth w := by
  rw [tobinWidth, defaultW_eq]
  split_ifs <;> omega

/-- The low half of the fraction of a Numeral that FROMBIN delivers is zero (R79). -/
theorem extractLsb'_low_setWidth_shiftLeft (frac : BitVec 4) : (frac.setWidth 8 <<< 4).extractLsb' 0 4 = 0#4 := by
  revert frac
  decide

/-- The Numeral of a string of length 1 to 32 is one FROMBIN can deliver: its value is in the range of the string's
length, and it is not a negative zero (R78). -/
theorem wf_numeralOf {x : BinStr} (hpos : 1 ≤ x.len) (hle : x.len ≤ 32) :
    (Payload.numeral (numeralOf x)).wf = true := by
  have hlow : (numeralOf x).fmag.extractLsb' 0 4 = 0#4 := extractLsb'_low_setWidth_shiftLeft x.frac
  have hpow : 2 ^ (x.len - 1) ≤ 2 ^ 31 := Nat.pow_le_pow_right (by decide) (by omega)
  have hfits := (fitsWidth_iff x.len (numeralOf x)).mp (fitsWidth_numeralOf hle)
  have hvalue := signedPart_numeralOf hle
  have hsgn : (numeralOf x).sgn = decide (x.bits.toInt < 0) := BitVec.msb_eq_toInt
  rw [signedPart] at hvalue
  rw [Payload.wf, hlow, beq_self_eq_true, Bool.true_and]
  cases hneg : (numeralOf x).sgn with
  | true =>
    rw [hneg, if_pos rfl] at hfits hvalue
    have hlt : x.bits.toInt < 0 := of_decide_eq_true (hsgn.symm.trans hneg)
    simp only [if_pos, Bool.and_eq_true, decide_eq_true_eq]
    omega
  | false =>
    rw [hneg, if_neg Bool.false_ne_true] at hfits
    have hpow_pos := Nat.two_pow_pos (x.len - 1)
    simp only [Bool.false_eq_true, if_false, decide_eq_true_eq]
    omega

/-- The integer symbols are the one symbol 0 or end in a symbol that is not 0 (R95). -/
theorem base32Symbols_eq_zero_or_getLast? (a : Word) :
    base32Symbols a.toNat = [0#5] ∨ (base32Symbols a.toNat).getLast? ≠ some 0#5 := by
  by_cases hzero : a.toNat = 0
  · exact .inl (if_pos hzero)
  · obtain ⟨d, hlast, hd⟩ := getLast?_base32Digits Config.b32Nd a.toNat hzero (a.isLt.trans (by decide))
    rw [base32Symbols, if_neg hzero, hlast]
    exact .inr fun h => hd (Option.some.inj h)

/-- The symbols of a magnitude with one fractional symbol are a payload the block can produce (R95, R96). -/
theorem wf_b32 (a : Word) (fd : BitVec 5) : (Payload.b32 (base32Symbols a.toNat) [fd]).wf = true := by
  have hlast := base32Symbols_eq_zero_or_getLast? a
  simp only [Payload.wf, packDigits_base32Symbols, Bool.and_eq_true, Bool.or_eq_true, decide_eq_true_eq, beq_iff_eq,
    bne_iff_ne]
  exact ⟨⟨⟨⟨rfl, one_le_length_base32Symbols a⟩, length_base32Symbols_le _⟩, a.isLt⟩, hlast⟩

/-- The fields of a normal operand are ones the block can produce: their exponent is 1 to 254 (R88, R92). -/
theorem wf_normalFields {v : BitVec 64} (h : classify (exponent11 v) (fraction52 v) = .normal) :
    (Payload.f754 .normal (normalFields v)).wf = true := by
  obtain ⟨hlow, hhigh⟩ := (classify_eq_normal_iff _ _).mp h
  have hexp := trueExponent_normalFields h
  simp only [Payload.wf, Bool.and_eq_true, decide_eq_true_eq]
  omega

/-- TOBIN succeeds with a string of length 1 to 32 (R63, R77). -/
theorem wf_of_resultOf_tobin {w : BitVec 6} {sgn : Bool} {fr : BitVec 8} {a : Word} {p : Payload} {t : Trace}
    (h : resultOf (.tobin w sgn fr a) = .ok (p, t)) : p.wf = true := by
  rw [resultOf] at h
  split_ifs at h with hillegal
  obtain ⟨x, hlen, rfl, -⟩ := tobinOp_eq_ok h
  have hle : tobinWidth w ≤ 32 := tobinWidth_le (Option.not_isSome_iff_eq_none.mp hillegal)
  rw [Payload.wf, hlen, decide_eq_true (one_le_tobinWidth w), decide_eq_true hle, Bool.and_self]

/-- FROMBIN succeeds with the Numeral of a string of length 1 to 32 (R49, R78). -/
theorem wf_of_resultOf_frombin {alen : BitVec 6} {frac : BitVec 4} {a : Word} {p : Payload} {t : Trace}
    (h : resultOf (.frombin alen frac a) = .ok (p, t)) : p.wf = true := by
  cases hwf : wfString alen a with
  | false =>
    rw [resultOf_frombin_of_not_wf hwf] at h
    cases h
  | true =>
    rw [resultOf_frombin hwf] at h
    rw [wfString, wMax_eq, Bool.and_eq_true, decide_eq_true_eq] at hwf
    obtain ⟨hle, -⟩ := hwf
    by_cases hlen : (stringOperand alen frac a).len = 0
    · rw [frombinOp, if_pos hlen] at h
      cases h
    · rw [frombinOp_eq hlen] at h
      cases h
      exact wf_numeralOf (Nat.one_le_iff_ne_zero.mpr hlen) hle

/-- F32X succeeds with the fields of a zero or of a normal operand (R84, R87, R88). -/
theorem wf_of_f32xOp_eq_ok {v : BitVec 64} {p : Payload} {t : Trace} (h : f32xOp v = .ok (p, t)) : p.wf = true := by
  by_cases hzero : classify (exponent11 v) (fraction52 v) = .zero
  · rw [f32xOp_of_zero hzero] at h
    cases h
    rfl
  by_cases hnormal : classify (exponent11 v) (fraction52 v) = .normal
  · rw [f32xOp_of_normal hnormal] at h
    cases h
    exact wf_normalFields hnormal
  rw [f32xOp_of_special rfl hzero hnormal] at h
  cases h

/-- Every success has a payload the block can produce (R63). -/
theorem payload_wf_of_resultOf {i : Instr} {p : Payload} {t : Trace} (h : resultOf i = .ok (p, t)) : p.wf = true := by
  cases i with
  | add | sub | mul | div =>
    cases success_of_resultOf h
    exact wf_arith ‹1 ≤ _› ‹_ ≤ 32› _ _
  | tobin w sgn fr a => exact wf_of_resultOf_tobin h
  | frombin alen frac a => exact wf_of_resultOf_frombin h
  | tob32 sgn fr a =>
    obtain ⟨rfl, -⟩ := tob32Op_eq_ok h
    exact wf_b32 _ _
  | f32x b a => exact wf_of_f32xOp_eq_ok h

/-! ## Failures -/

/-- The failures of an operation are ones the block can produce (R154). -/
theorem failureWf_of_mem_raises (o : Op) : ∀ f ∈ raises o, failureWf f = true := by
  cases o <;> decide

/-- Every failure that ends an operation is one the block can produce (R140, R154). -/
theorem failureWf_of_resultOf {i : Instr} {f : Failure} (h : resultOf i = .error f) : failureWf f = true := by
  obtain ⟨rfl, -⟩ | hmem := raises_of_resultOf h
  · rfl
  · exact failureWf_of_mem_raises _ _ hmem

/-! ## Answers -/

/-- An answer to a host that holds the outcome of an operation is well formed. -/
theorem wf_outcomeOf_resultOf (h : HostId) (i : Instr) :
    (Answer.mk (some h) (outcomeOf (resultOf i)).1 (outcomeOf (resultOf i)).2).wf = true := by
  cases hres : resultOf i with
  | error f =>
    have hfailure : failureWf f = true := failureWf_of_resultOf hres
    simp [outcomeOf, Answer.wf, Response.wf, traceWf, hfailure]
  | ok q =>
    obtain ⟨p, t⟩ := q
    have hpayload : p.wf = true := payload_wf_of_resultOf hres
    have htrace : traceWf (.ok p) t = true := (success_of_resultOf hres).wf_trace
    simp [outcomeOf, Answer.wf, Response.wf, hpayload, htrace]

/-- The answer to a presented request is well formed, whether the request decodes or not. -/
theorem wf_answerOf (p : Presented) : (answerOf p).wf = true := by
  rw [answerOf, resultOfRequest]
  cases decode p.req with
  | error e => rfl
  | ok i => exact wf_outcomeOf_resultOf p.host i

/-- One more well-formed answer keeps the invariant, whatever is pending. -/
theorem safe_append {s : State} {ps : List Presented} {x : Answer} (hs : s.safe = true) (hx : x.wf = true) :
    (State.mk ps (s.answers ++ [x])).safe = true := by
  rw [State.safe] at hs ⊢
  simp [hs, hx]

/-- Settles O7. -/
theorem idleBlockStaysAsItIs : Obligations.IdleBlockStaysAsItIs := by
  rintro ⟨pending, answers⟩ rfl
  exact step_nil answers

/-- Settles O15: an idle step delivers nothing, any other one well-formed answer. -/
theorem everyStepKeepsAnswersWellFormed : Obligations.EveryStepKeepsAnswersWellFormed := by
  intro s t hs hstep
  cases hpending : s.pending with
  | nil =>
    rw [idleBlockStaysAsItIs s hpending] at hstep
    cases hstep
    exact hs
  | cons p ps =>
    rw [step_of_pending_cons hpending] at hstep
    cases hstep
    exact safe_append hs (wf_answerOf p)

/-- Settles O16: nothing has been delivered. -/
theorem resetIsSafe : Obligations.ResetIsSafe := rfl

end Sys2Proof.Proofs
end
